-- ==== Sys2Proof/Word.lean ====
section
/-! DEFINITION. The two word types of the TLVC (00_scope.md R12, R13): a byte of a byte string and a 32-bit register. -/

namespace Sys2Proof

/-- A byte of a byte string or of a window (R13). Bit 7 is its most significant bit (R12). -/
abbrev Byte := BitVec 8

/-- A 32-bit register of the register block, and a command word (10_state.md R32, 30_encoding.md R121). -/
abbrev Word := BitVec 32

end Sys2Proof
end

