-- ==== Sys2Proof/Config.lean ====
section
/-! DEFINITION. What an implementation fixes: the constants and the parameters of 00_scope.md R6, and their constraints, R7. -/

namespace Sys2Proof

/-- `IBUF_BYTES` (R6). -/
abbrev ibufBytes : Nat := 512
/-- `OBUF_BYTES` (R6). -/
abbrev obufBytes : Nat := 4096
/-- `MAX_TYPE_GROUPS` (R6): the most 7-bit type groups one header may hold. -/
abbrev maxTypeGroups : Nat := 3
/-- `MAX_HDR_BYTES` (R6): the most bytes of one header. -/
abbrev maxHdrBytes : Nat := 1 + maxTypeGroups
/-- `TYPE_LIMIT` = 2^21 (R6). -/
abbrev typeLimit : Nat := 2097152
/-- `LEN_LIMIT` (R6): every element length is below it. -/
abbrev lenLimit : Nat := 128
/-- `SECTION_MAX` (R6): the largest section length. -/
abbrev sectionMax : Nat := 255
/-- `ID_LEN` (R6): the identity length in bytes. -/
abbrev idLen : Nat := 16
/-- `SALT_SHORT` (R6). -/
abbrev saltShort : Nat := 2
/-- `SALT_LONG` (R6). -/
abbrev saltLong : Nat := 16
/-- `EI_LEN` (R6): the encryption-info element's length. -/
abbrev eiLen : Nat := 17
/-- `EI_SCHEME_MASK` (R6): bits 6-3. -/
abbrev eiSchemeMask : Nat := 0x78
/-- `NONCE_MAX` (R6): the longest nonce the TLVC holds. -/
abbrev nonceMax : Nat := 32
/-- `CRY_REQ_MAX` (R6): the largest data block of one Cryptor request. -/
abbrev cryReqMax : Nat := 511
/-- `CRY_RSP_MAX` (R6): the largest data block of one Cryptor response. -/
abbrev cryRspMax : Nat := 255

/-- The OPEN parameter `BASE` is a multiple of 0x2000 (R6): 0x2000 times this number, to which no value is given (log 6). -/
opaque Config.openBaseIndex : Nat

/-- The most bytes that a `NONCE` request with the 16-byte salt leaves its offset field: every request's fields are at most
`CRY_REQ_MAX` bytes together (20_memory.md R106; log 20). -/
abbrev nonceOffsetMax : Nat := cryReqMax - saltLong

/-- How many bytes the OPEN parameter `NONCE_OFFSET` has: no number is given within the port's limit (log 6, log 20). -/
opaque Config.openNonceOffsetLength : Fin (nonceOffsetMax + 1)

/-- The bytes of the OPEN parameter `NONCE_OFFSET`: no value is given (log 6). -/
opaque Config.openNonceOffsetByte : Nat → Byte

/-- The OPEN parameter `NONCE_OFFSET` (R6), a byte string like every field of a request (20_memory.md R102). -/
def Config.openNonceOffset : List Byte :=
  (List.range Config.openNonceOffsetLength.val).map Config.openNonceOffsetByte

/-- The parameters a model of the TLVC takes (R6). They are fixed for a machine: no step changes them. -/
structure Params where
  /-- `BASE` = 0x2000 × `baseIndex`. -/
  baseIndex : Nat
  /-- `SUPPORTED_VERSION`. -/
  supportedVersion : Nat
  /-- `T_SALT`. -/
  tSalt : Nat
  /-- `T_ACTION`. -/
  tAction : Nat
  /-- `T_EI`. -/
  tEi : Nat
  /-- `IDENTITY_TYPES`, a set, listed without repeats. -/
  identityTypes : List Nat
  /-- `SCHEME_MIC`. -/
  schemeMic : Nat
  /-- `SCHEME_SIGNATURE`. -/
  schemeSignature : Nat
  /-- `SIG_LEN`, the Cryptor's fixed signature length. -/
  sigLen : Nat
  /-- `MKTAG_LEN`, the length of the metadata key tag. -/
  mktagLen : Nat
  /-- `NONCE_OFFSET`, the byte string sent with an extended-salt nonce request (20_memory.md R102, R103). -/
  nonceOffset : List Byte
  /-- `PROTO_CONST`, the fixed 2-byte protocol constant. -/
  protoConst : List Byte
  deriving DecidableEq, Repr

/-- The defaults of R6. The spec marks them "[from general knowledge, not in source]" (log 5). -/
def Params.default : Params where
  baseIndex := Config.openBaseIndex
  supportedVersion := 1
  tSalt := 0
  tAction := 6
  tEi := 16
  identityTypes := [1, 2, 3, 4]
  schemeMic := 0
  schemeSignature := 1
  sigLen := 16
  mktagLen := 32
  nonceOffset := Config.openNonceOffset
  protoConst := [0xFC, 0xF1]

/-- The element types that have a role of their own (30_encoding.md R135). -/
def Params.roleTypes (c : Params) : List Nat :=
  c.tSalt :: c.tAction :: c.tEi :: c.identityTypes

/-- The constraints of R7, one conjunct each, in the rule's order. -/
abbrev Params.wf (c : Params) : Prop :=
  c.roleTypes.Nodup ∧
  (∀ t ∈ c.roleTypes, t < typeLimit) ∧
  c.identityTypes ≠ [] ∧
  c.schemeMic ≠ c.schemeSignature ∧
  c.schemeMic < 16 ∧
  c.schemeSignature < 16 ∧
  c.supportedVersion ≤ 7 ∧
  1 ≤ c.sigLen ∧ c.sigLen ≤ 64 ∧
  1 ≤ c.mktagLen ∧ c.mktagLen ≤ 32 ∧
  c.protoConst.length = 2

/-- `BASE` (R6, 20_memory.md R81). -/
def Params.base (c : Params) : Nat := 0x2000 * c.baseIndex

end Sys2Proof
end

