-- ==== Sys2Proof/Syntax.lean ====
section
/-! DEFINITION. The TLVC's instructions: one constructor per row of spec/opcode_table.json.
Seven commands and the three kinds of illegal command word (30_encoding.md R121, R122; 40_lifecycle.md R163), and the
four kinds of header byte (30_encoding.md R126-R128). -/

namespace Sys2Proof

/-- An instruction of the TLVC, one constructor per row of the opcode table. -/
inductive Instr where
  /-- `HDR_ENC`, word 0x0000_0001 (41_header_codec.md R182). -/
  | hdrEnc
  /-- `HDR_DEC`, word 0x0000_0002 (41_header_codec.md R183). -/
  | hdrDec
  /-- `EI_ENC`, word 0x0000_0003 (42_encryption_info.md R202). -/
  | eiEnc
  /-- `EI_DEC`, word 0x0000_0004 (42_encryption_info.md R203). -/
  | eiDec
  /-- `SCAN`, word 0x0000_0005 (43_scanner.md R220). -/
  | scan
  /-- `ADV_BUILD`, word 0x0000_0006 (44_adv_build.md R236). -/
  | advBuild
  /-- `ADV_PARSE`, word 0x0000_0007 (45_adv_parse.md R261). -/
  | advParse
  /-- `ILLEGAL`, the row with `OP` = 0 and any `RSV` (40_lifecycle.md R163). -/
  | illegalZero (rsv : BitVec 28)
  /-- `ILLEGAL`, the row with `OP` = 8..15 and any `RSV`: `op` is `OP` bits 2:0 (40_lifecycle.md R163). -/
  | illegalHigh (op : BitVec 3) (rsv : BitVec 28)
  /-- `ILLEGAL`, the default row: `OP` = 1..7 with `RSV` not 0 (40_lifecycle.md R163). -/
  | illegalReserved (op : BitVec 3) (rsv : BitVec 28)
  /-- `HDR1`, the single-byte header (30_encoding.md R126). -/
  | hdr1 (length : BitVec 3) (typ : BitVec 4)
  /-- `HDRM`, byte 0 of a multi-byte header (30_encoding.md R127). -/
  | hdrm (length : BitVec 7)
  /-- `HDRM_GROUP_CONT`, a type group that is not the last (30_encoding.md R128). -/
  | groupCont (bits : BitVec 7)
  /-- `HDRM_GROUP_FINAL`, the final type group (30_encoding.md R128). -/
  | groupFinal (bits : BitVec 7)
  deriving DecidableEq, Repr

end Sys2Proof
end

