-- ==== Sys2Proof/WellFormed.lean ====
section
/-! DEFINITION. Which terms of Instr stand for an encoding.
Every field but one pair is as wide as the encoding's own field, so the only checks are those of the default illegal row. -/

namespace Sys2Proof

/-- The default illegal row holds the words with `OP` = 1..7 and `RSV` not 0 (40_lifecycle.md R163): with `OP` = 0 the word
belongs to the first illegal row, and with `RSV` = 0 it is a command. Every other term is an encoding. -/
def Instr.wf : Instr → Bool
  | .hdrEnc | .hdrDec | .eiEnc | .eiDec | .scan | .advBuild | .advParse => true
  | .illegalZero _ => true
  | .illegalHigh _ _ => true
  | .illegalReserved op rsv => op != 0 && rsv != 0
  | .hdr1 _ _ => true
  | .hdrm _ => true
  | .groupCont _ => true
  | .groupFinal _ => true

end Sys2Proof
end

