-- ==== Sys2Proof/Decode.lean ====
section
/-! DEFINITION. The decoder and the encoder of command words and header bytes (30_encoding.md R121-R128), and the byte-order
and bit-field helpers of both. -/

namespace Sys2Proof

/-- The bytes of a 32-bit unit, least significant first, as the host bus lays them out (20_memory.md R86). -/
def wordBytes (w : Word) : List Byte :=
  [w.extractLsb' 0 8, w.extractLsb' 8 8, w.extractLsb' 16 8, w.extractLsb' 24 8]

/-- The 32-bit unit whose least significant byte is the first argument (20_memory.md R86). -/
def bytesWord (b0 b1 b2 b3 : Byte) : Word :=
  b3 ++ b2 ++ b1 ++ b0

/-- What tells how a byte string is read: as a word written to `CMD`, as byte 0 of a header, or as a type group of a
multi-byte header (30_encoding.md R120, R125, R128). -/
inductive DecodePosition where
  | command
  | headerStart
  | headerGroup
  deriving DecidableEq, Repr

/-- Why a byte string is not an instruction. -/
inductive DecodeError where
  /-- A command word is 4 bytes (R123) and a header byte is 1 byte; the string has another length. -/
  | wrongLength
  deriving DecidableEq, Repr

/-- R121, R122: "a decoder compares the whole 32 bits"; every other word is illegal, and falls in one of the table's three
illegal rows by its `OP`. -/
def decodeCommand (w : Word) : Instr :=
  if w = 0x00000001 then .hdrEnc
  else if w = 0x00000002 then .hdrDec
  else if w = 0x00000003 then .eiEnc
  else if w = 0x00000004 then .eiDec
  else if w = 0x00000005 then .scan
  else if w = 0x00000006 then .advBuild
  else if w = 0x00000007 then .advParse
  else if w.extractLsb' 0 4 = 0 then .illegalZero (w.extractLsb' 4 28)
  else if w.getLsbD 3 then .illegalHigh (w.extractLsb' 0 3) (w.extractLsb' 4 28)
  else .illegalReserved (w.extractLsb' 0 3) (w.extractLsb' 4 28)

/-- R125-R127: byte 0 of a header, told apart by bit 7. -/
def decodeHeaderStart (b : Byte) : Instr :=
  if b.getLsbD 7 then .hdrm (b.extractLsb' 0 7) else .hdr1 (b.extractLsb' 4 3) (b.extractLsb' 0 4)

/-- R128: a type group, told apart by its continuation bit. -/
def decodeHeaderGroup (b : Byte) : Instr :=
  if b.getLsbD 7 then .groupCont (b.extractLsb' 0 7) else .groupFinal (b.extractLsb' 0 7)

/-- The decoder: total on every byte string, in every position. -/
def decode : DecodePosition → List Byte → Except DecodeError Instr
  | .command, [b0, b1, b2, b3] => .ok (decodeCommand (bytesWord b0 b1 b2 b3))
  | .headerStart, [b] => .ok (decodeHeaderStart b)
  | .headerGroup, [b] => .ok (decodeHeaderGroup b)
  | _, _ => .error .wrongLength

/-- Where an instruction's bytes are read. -/
def Instr.position : Instr → DecodePosition
  | .hdrEnc | .hdrDec | .eiEnc | .eiDec | .scan | .advBuild | .advParse => .command
  | .illegalZero _ => .command
  | .illegalHigh _ _ => .command
  | .illegalReserved _ _ => .command
  | .hdr1 _ _ => .headerStart
  | .hdrm _ => .headerStart
  | .groupCont _ => .headerGroup
  | .groupFinal _ => .headerGroup

/-- The encoder, from the same tables: R121 and R122 for command words, R126-R128 for header bytes. -/
def encode : Instr → List Byte
  | .hdrEnc => wordBytes 0x00000001
  | .hdrDec => wordBytes 0x00000002
  | .eiEnc => wordBytes 0x00000003
  | .eiDec => wordBytes 0x00000004
  | .scan => wordBytes 0x00000005
  | .advBuild => wordBytes 0x00000006
  | .advParse => wordBytes 0x00000007
  | .illegalZero rsv => wordBytes (rsv ++ (0 : BitVec 4))
  | .illegalHigh op rsv => wordBytes (rsv ++ (1#1 ++ op))
  | .illegalReserved op rsv => wordBytes (rsv ++ (0#1 ++ op))
  | .hdr1 length typ => [0#1 ++ (length ++ typ)]
  | .hdrm length => [1#1 ++ length]
  | .groupCont bits => [1#1 ++ bits]
  | .groupFinal bits => [0#1 ++ bits]

/-- Whether a table word is a header byte rather than a command word. The table gives the header rows 8 bits. It gives the
illegal command rows their `OP` bits only, so an 8-bit word whose value is 0 or 8..15 is read as a command word with its other bits 0
(log 12). -/
def tableWordIsHeader (nbits w : Nat) : Bool :=
  nbits == 8 && !(w == 0 || (8 ≤ w && w < 16))

/-- The instruction that the decoder reads from a word of the opcode table, its missing bits 0: a header byte at the start of
a header, or a command word laid out least significant byte first (log 12). -/
def decodeTableWord (nbits w : Nat) : Option Instr :=
  if tableWordIsHeader nbits w then (decode .headerStart [BitVec.ofNat 8 w]).toOption
  else if w < 2 ^ 32 then (decode .command (wordBytes (BitVec.ofNat 32 w))).toOption
  else none

end Sys2Proof
end

