-- ==== Sys2Proof/Machine/State.lean ====
section
/-! DEFINITION. The state of the TLVC as plain data (10_state.md), the messages of its two ports (20_memory.md), the model's
faults and refusals, and the state after reset (10_state.md R60). -/

namespace Sys2Proof.Machine

open Sys2Proof

/-- The error codes of 60_exceptions.md R290, 1 to 16. -/
inductive ErrorCode where
  | malformedHeader
  | unsupportedVersion
  | invalidSaltLength
  | invalidIdentityLength
  | invalidEncryptionScheme
  | decryptionFailure
  | authenticationMismatch
  | structuralDuplicate
  | sectionTooLarge
  | invalidElementType
  | invalidActionLength
  | truncated
  | sectionLengthMismatch
  | cryptorFailure
  | invalidArgument
  | illegalCommand
  deriving DecidableEq, Repr

/-- `CTRL` (10_state.md R35). `SRST` is an action and reads 0, so it has no storage. -/
structure Ctrl where
  ie : Bool
  enforceSeclen : Bool
  deriving DecidableEq, Repr

/-- `STATUS` (10_state.md R37), field by field. Its other bits are reserved and read 0. -/
structure Status where
  busy : Bool
  done : Bool
  err : Bool
  werr : Bool
  errcode : BitVec 5
  failStep : BitVec 4
  deriving DecidableEq, Repr

/-- The engine phase (10_state.md R54). -/
inductive Phase where
  | idle
  | run
  | wait
  deriving DecidableEq, Repr

/-- The snapshot taken at acceptance (10_state.md R55, 40_lifecycle.md R161). -/
structure Latch where
  cmd : Word
  arg0 : Word
  arg1 : Word
  arg2 : Word
  arg3 : Word
  inLen : BitVec 10
  enf : Bool
  deriving DecidableEq, Repr

/-- A request on the Cryptor port with its fields, byte strings all (20_memory.md R102, R103). -/
inductive Request where
  | nonce (salt : List Byte) (offset : Option (List Byte))
  | encrypt (plaintext nonce key : List Byte)
  | decrypt (ciphertext nonce key : List Byte)
  | sign (bytes key : List Byte)
  | verify (bytes key tag : List Byte)
  | hash (bytes key : List Byte)
  deriving DecidableEq, Repr

/-- A response on the Cryptor port (20_memory.md R102). -/
structure Response where
  ok : Bool
  data : List Byte
  deriving DecidableEq, Repr

/-- The engine's position in the command it carries out (10_state.md R31): at its start, or just past the request named. -/
inductive Position where
  | start
  | nonce
  | encrypt
  | sign
  | decrypt
  | hash
  | verify
  deriving DecidableEq, Repr

/-- Where the header decoder stands (41_header_codec.md R181): before byte 0; after byte 0 of a multi-byte header and `g` type
groups, with the `length` and `type` accumulated so far; at the end of a header of `n` bytes; or stopped by a header it
refuses. -/
inductive HeaderUnit where
  | start
  | groups (length typ g : Nat)
  | done (length typ n : Nat)
  | malformed
  deriving DecidableEq, Repr

/-- The engine's working storage (10_state.md R57). -/
structure Work where
  pos : Position
  answer : Option Response
  cursor : Nat
  nonce : List Byte
  salt : List Byte
  lead : List Byte
  idh : List Byte
  idType : Nat
  plaintext : List Byte
  ciphertext : List Byte
  tag : List Byte
  out : List Byte
  hdr : HeaderUnit
  deriving DecidableEq, Repr

/-- The width of a host access, 1, 2 or 4 bytes (20_memory.md R80). -/
inductive Width where
  | byte
  | half
  | word
  deriving DecidableEq, Repr

/-- One host access at a host byte address (00_scope.md R14). A write narrower than 4 bytes carries its value in the low
bits (20_memory.md R86; log 18). -/
inductive HostAccess where
  | read (addr : Nat) (width : Width)
  | write (addr : Nat) (width : Width) (value : Word)
  deriving DecidableEq, Repr

/-- The response to a host access: `OKAY` or `ERROR` (20_memory.md R85), and the data of a read, 0 for a write. -/
structure BusResponse where
  error : Bool
  data : Word
  deriving DecidableEq, Repr

/-- One step of one agent (00_scope.md R8, 60_exceptions.md R296). -/
inductive Event where
  /-- The host makes one access (20_memory.md R80). -/
  | host (access : HostAccess)
  /-- The engine takes its step, where it has one (40_lifecycle.md R164). -/
  | engine
  /-- The Cryptor answers the request that was issued when resets had abandoned so many requests (20_memory.md R104, R113;
  log 9, log 10). -/
  | cryptor (abandoned : Nat) (response : Response)
  /-- The platform's reset input (70_reset_and_hazards.md R320; log 16). -/
  | reset
  /-- The model's own: one byte goes through the header decoder by itself (log 11). -/
  | headerByte (byte : Byte)
  deriving DecidableEq, Repr

/-- The bytes of the windows by window offset: addresses strictly rising, no entry equal to what an unlisted address reads
as, which is 0x00, the reset value of every window (10_state.md R48-R53). -/
abbrev Memory := List Host.Cell

/-- The state of the machine: the spec's own (10_state.md R30) and the three fields of the model, `cfg`, `events` and `bus`. -/
structure State where
  /-- The parameters (00_scope.md R6): fixed, no step changes them (log 5). -/
  cfg : Params
  arg0 : Word
  arg1 : Word
  arg2 : Word
  arg3 : Word
  res0 : Word
  res1 : Word
  res2 : Word
  res3 : Word
  ctrl : Ctrl
  status : Status
  inLen : BitVec 10
  outLen : BitVec 13
  /-- The windows `KEY`, `IDKEY`, `SALT`, `MKTAG`, `IBUF` and `OBUF`. -/
  mem : Memory
  phase : Phase
  latch : Latch
  pending : Option Request
  /-- How many requests resets have abandoned (20_memory.md R113). The abandon epoch bit (10_state.md R56) is `State.epoch` of
  it (log 9). -/
  abandoned : Nat
  work : Work
  /-- The agents' steps still to come (log 1). -/
  events : List Event
  /-- The response to the last host access (log 2). -/
  bus : Option BusResponse
  deriving DecidableEq, Repr

/-- Why the model stops where the spec describes no behaviour. No command outcome is one of these. -/
inductive Fault where
  /-- Raised by a host access to an address outside the TLVC window, which is "not the TLVC's" (20_memory.md R81). Safe:
  the real TLVC never sees the access (log 3). -/
  | outsideWindow
  /-- Raised by a Cryptor response longer than `CRY_RSP_MAX`, which "the port cannot carry" (20_memory.md R106). Safe: no
  such response exists (log 4). -/
  | responseTooLong
  /-- Raised by ADV_BUILD or ADV_PARSE at a position that the command does not have, or at a position after a request
  without its answer. Safe: no run reaches one (log 14). -/
  | engineOutOfPlace
  /-- Raised by a type group when the header decoder stands in no multi-byte header, where the spec has no type group
  (30_encoding.md R128). Safe: no header is read so (log 11). -/
  | groupOutsideHeader
  deriving DecidableEq, Repr

/-- Why the model has no meaning to give. -/
inductive Refusal where
  /-- Raised by exec for an instruction without a meaning; no arm raises it. Safe. -/
  | notModelled (mnemonic : String)
  /-- Raised by step for parameters that break a constraint of 00_scope.md R7, where "a model may refuse" the configuration.
  Safe (log 7). -/
  | invalidConfiguration
  deriving DecidableEq, Repr

/-- An empty latch: its contents while idle are "unspecified; unobservable" (10_state.md R60; log 8). -/
def Latch.empty : Latch where
  cmd := 0
  arg0 := 0
  arg1 := 0
  arg2 := 0
  arg3 := 0
  inLen := 0
  enf := false

/-- Empty working storage: its contents between commands are "unspecified and unobservable" (10_state.md R57; log 8). -/
def Work.empty : Work where
  pos := .start
  answer := none
  cursor := 0
  nonce := []
  salt := []
  lead := []
  idh := []
  idType := 0
  plaintext := []
  ciphertext := []
  tag := []
  out := []
  hdr := .start

/-- The machine right after reset (10_state.md R60), with the default parameters (log 5), no request abandoned (log 9) and no
event to come (log 13). -/
def State.reset : State where
  cfg := Params.default
  arg0 := 0
  arg1 := 0
  arg2 := 0
  arg3 := 0
  res0 := 0
  res1 := 0
  res2 := 0
  res3 := 0
  ctrl := { ie := false, enforceSeclen := true }
  status := { busy := false, done := false, err := false, werr := false, errcode := 0, failStep := 0 }
  inLen := 0
  outLen := 0
  mem := []
  phase := .idle
  latch := Latch.empty
  pending := none
  abandoned := 0
  work := Work.empty
  events := []
  bus := none

end Sys2Proof.Machine
end

