-- ==== Sys2Proof/Machine/Flags.lean ====
section
/-! DEFINITION. The flags: the `STATUS` and `CTRL` words, what sets and clears each `STATUS` field, and the interrupt output
(10_state.md R35-R43, R58; 60_exceptions.md R290, R300). -/

namespace Sys2Proof.Machine

open Sys2Proof

/-- The number of an error code (60_exceptions.md R290). -/
def errorNumber : ErrorCode → Nat
  | .malformedHeader => 1
  | .unsupportedVersion => 2
  | .invalidSaltLength => 3
  | .invalidIdentityLength => 4
  | .invalidEncryptionScheme => 5
  | .decryptionFailure => 6
  | .authenticationMismatch => 7
  | .structuralDuplicate => 8
  | .sectionTooLarge => 9
  | .invalidElementType => 10
  | .invalidActionLength => 11
  | .truncated => 12
  | .sectionLengthMismatch => 13
  | .cryptorFailure => 14
  | .invalidArgument => 15
  | .illegalCommand => 16

/-- `STATUS` as a word (10_state.md R37): bits 31:20, 15:13 and 7:4 are reserved and read 0. -/
def statusWord (f : Status) : Word :=
  (0 : BitVec 12) ++ f.failStep ++ (0 : BitVec 3) ++ f.errcode ++ (0 : BitVec 4) ++
    BitVec.ofBool f.werr ++ BitVec.ofBool f.err ++ BitVec.ofBool f.done ++ BitVec.ofBool f.busy

/-- `CTRL` as a word (10_state.md R35): `SRST` and the reserved bits read 0. -/
def ctrlWord (c : Ctrl) : Word :=
  (0 : BitVec 30) ++ BitVec.ofBool c.enforceSeclen ++ BitVec.ofBool c.ie

/-- What a write without a soft reset stores in `CTRL` (10_state.md R36). -/
def ctrlOfWord (v : Word) : Ctrl where
  ie := v.getLsbD 0
  enforceSeclen := v.getLsbD 1

/-- Acceptance (40_lifecycle.md R160): `WERR` is unchanged. -/
def statusAccept (f : Status) : Status :=
  { f with busy := true, done := false, err := false, errcode := 0, failStep := 0 }

/-- Completion with `Ok` (40_lifecycle.md R166, R167). -/
def statusOk (f : Status) : Status :=
  { f with busy := false, done := true, errcode := 0, failStep := 0 }

/-- Completion with `Fail(code, step)` (40_lifecycle.md R166, R168). -/
def statusFail (code : ErrorCode) (step : Nat) (f : Status) : Status :=
  { f with
    busy := false
    err := true
    errcode := BitVec.ofNat 5 (errorNumber code)
    failStep := BitVec.ofNat 4 step }

/-- A host write to `STATUS` (10_state.md R37): each W1C bit written as 1 is cleared, and nothing else changes. -/
def statusClear (v : Word) (f : Status) : Status :=
  { f with
    done := f.done && !v.getLsbD 1
    err := f.err && !v.getLsbD 2
    werr := f.werr && !v.getLsbD 3 }

/-- A write that the busy lock ignores (20_memory.md R91, 10_state.md R41). -/
def statusLocked (f : Status) : Status :=
  { f with werr := true }

/-- The abandon epoch (10_state.md R56): a bit that flips with each request that a reset abandons (20_memory.md R113). -/
def State.epoch (s : State) : Bool := s.abandoned % 2 == 1

/-- The interrupt output (10_state.md R58, 60_exceptions.md R300). -/
def irq (s : State) : Bool :=
  s.ctrl.ie && (s.status.done || s.status.err)

end Sys2Proof.Machine
end

