-- ==== Sys2Proof/Machine/Memory.lean ====
section
/-! DEFINITION. The windows' bytes: reading and writing by window offset, in one canonical form (20_memory.md R82, R86). -/

namespace Sys2Proof.Machine

open Sys2Proof

/-- Window offset of `KEY` (20_memory.md R82). -/
abbrev keyOff : Nat := 0x100
/-- Window offset of `IDKEY` (20_memory.md R82). -/
abbrev idkeyOff : Nat := 0x110
/-- Window offset of `SALT` (20_memory.md R82). -/
abbrev saltOff : Nat := 0x120
/-- Window offset of `MKTAG` (20_memory.md R82). -/
abbrev mktagOff : Nat := 0x140
/-- Window offset of `IBUF` (20_memory.md R82). -/
abbrev ibufOff : Nat := 0x400
/-- Window offset of `OBUF` (20_memory.md R82). -/
abbrev obufOff : Nat := 0x1000
/-- The window's size (20_memory.md R80). -/
abbrev windowSize : Nat := 0x2000

/-- What a byte that no cell lists reads as: the reset value of every window (10_state.md R48-R53, R60). -/
abbrev unlistedByte : Byte := 0

/-- The canonical form: addresses strictly rising, and no entry equal to what an unlisted address reads as. -/
abbrev Memory.wf (m : Memory) : Prop :=
  m.Pairwise (fun c d => c.1 < d.1) ∧ ∀ c ∈ m, c.2 ≠ unlistedByte

/-- The byte at a window offset. -/
def Memory.read : Memory → Nat → Byte
  | [], _ => unlistedByte
  | (x, b) :: m, a => if x = a then b else Memory.read m a

/-- The cells of a byte string that starts at an offset, bytes equal to the unlisted one left out. -/
def Memory.cells : Nat → List Byte → Memory
  | _, [] => []
  | a, b :: bs => if b = unlistedByte then Memory.cells (a + 1) bs else (a, b) :: Memory.cells (a + 1) bs

/-- The memory in which the `n` bytes from offset `lo` on are replaced by `bs`, and by unlisted bytes past the end of `bs`. -/
def Memory.fill (m : Memory) (lo n : Nat) (bs : List Byte) : Memory :=
  m.filter (fun c => c.1 < lo) ++ (Memory.cells lo (bs.take n) ++ m.filter (fun c => lo + n ≤ c.1))

/-- Stores a byte string at an offset. -/
def Memory.store (m : Memory) (lo : Nat) (bs : List Byte) : Memory :=
  Memory.fill m lo bs.length bs

/-- The `n` bytes from offset `lo` on. -/
def Memory.bytes (m : Memory) (lo n : Nat) : List Byte :=
  (List.range n).map (fun k => Memory.read m (lo + k))

end Sys2Proof.Machine
end

