-- ==== Sys2Proof/Machine/Operands.lean ====
section
/-! DEFINITION. The operands of a command (30_encoding.md R124): the latched registers (40_lifecycle.md R161) and the byte
strings of the windows, and the byte-string operations of 00_scope.md R13. -/

namespace Sys2Proof.Machine

open Sys2Proof

/-- `byte(v)` for a number below 256 (00_scope.md R13). -/
def byteOf (v : Nat) : Byte := BitVec.ofNat 8 v

/-- `v[hi:lo]` of a number with `hi = lo + w - 1` (00_scope.md R12). -/
def bitField (v lo w : Nat) : Nat := v / 2 ^ lo % 2 ^ w

/-- `s[i..j)` (00_scope.md R13). -/
def slice (s : List Byte) (i j : Nat) : List Byte := (s.take j).drop i

/-- Byte `i` of a string, read within its bounds (20_memory.md R100). -/
def byteAt (s : List Byte) (i : Nat) : Byte := s.getD i 0

/-- A number as `n` bytes, least significant first (43_scanner.md R221). -/
def littleEndian : Nat → Nat → List Byte
  | 0, _ => []
  | n + 1, v => byteOf (v % 256) :: littleEndian n (v / 256)

/-- The number whose bytes are given, least significant first (41_header_codec.md R182, `res1`). -/
def packLittleEndian : List Byte → Nat
  | [] => 0
  | b :: bs => b.toNat + 256 * packLittleEndian bs

/-- A result register's value. -/
def wordOf (v : Nat) : Word := BitVec.ofNat 32 v

/-- `arg[0]` (40_lifecycle.md R161). -/
def arg0 (s : State) : Nat := s.latch.arg0.toNat
/-- `arg[1]` (40_lifecycle.md R161). -/
def arg1 (s : State) : Nat := s.latch.arg1.toNat
/-- `arg[2]` (40_lifecycle.md R161). -/
def arg2 (s : State) : Nat := s.latch.arg2.toNat
/-- `arg[3]` (40_lifecycle.md R161). -/
def arg3 (s : State) : Nat := s.latch.arg3.toNat
/-- `in_len` (40_lifecycle.md R161). -/
def inLen (s : State) : Nat := s.latch.inLen.toNat

/-- The input `IBUF[0..in_len)` (10_state.md R52). -/
def inputBytes (s : State) : List Byte := Memory.bytes s.mem ibufOff (inLen s)

/-- `KEY[0..16)` (10_state.md R48). -/
def keyBytes (s : State) : List Byte := Memory.bytes s.mem keyOff 16

/-- `IDKEY[0..16)` (10_state.md R49). -/
def idkeyBytes (s : State) : List Byte := Memory.bytes s.mem idkeyOff 16

/-- `SALT[0..n)` (10_state.md R50). -/
def saltBytes (s : State) (n : Nat) : List Byte := Memory.bytes s.mem saltOff n

/-- `MKTAG[0..MKTAG_LEN)` (10_state.md R51). -/
def mktagBytes (s : State) : List Byte := Memory.bytes s.mem mktagOff s.cfg.mktagLen

end Sys2Proof.Machine
end

