-- ==== Sys2Proof/Machine/Ops.lean ====
section
/-! DEFINITION. The operations that every command shares (40_lifecycle.md): acceptance, a Cryptor request and its answer, the
two commits, and reset. The fail-closed commit is the TLVC's exception entry (60_exceptions.md R297), and clearing `ERR` or
accepting the next command is its return (R298). -/

namespace Sys2Proof.Machine

open Sys2Proof

/-- What one engine step does (40_lifecycle.md R164): issue a request and wait, or complete. -/
inductive Action where
  /-- `cry(...)` (20_memory.md R104): the request, and the working storage that the command keeps. -/
  | ask (request : Request) (work : Work)
  /-- `return Ok(out, res0, res1, res2, res3)` (R167). -/
  | ok (out : List Byte) (res0 res1 res2 res3 : Nat)
  /-- `raise Fail(code, step)` (R168). -/
  | fail (code : ErrorCode) (step : Nat)
  deriving DecidableEq, Repr

/-- The bytes of `OBUF` become `out`, followed by zeros (R167, R168). -/
def writeObuf (m : Memory) (out : List Byte) : Memory := Memory.fill m obufOff obufBytes out

/-- What both commits share (R166-R168): the results are written, the engine is idle, and the latch and the working storage
are discarded (log 8). -/
def complete (st : Status) (out : List Byte) (r0 r1 r2 r3 : Nat) (s : State) : State :=
  { s with
    status := st
    res0 := wordOf r0
    res1 := wordOf r1
    res2 := wordOf r2
    res3 := wordOf r3
    outLen := BitVec.ofNat 13 out.length
    mem := writeObuf s.mem out
    phase := .idle
    pending := none
    latch := Latch.empty
    work := Work.empty }

/-- The commit of `Ok` (R166, R167). -/
def commitOk (out : List Byte) (r0 r1 r2 r3 : Nat) (s : State) : State :=
  complete (statusOk s.status) out r0 r1 r2 r3 s

/-- The commit of `Fail` (R166, R168): nothing but the code and the step tells of the failure. This is the one operation by
which a command's error is taken (60_exceptions.md R297). -/
def commitFail (code : ErrorCode) (step : Nat) (s : State) : State :=
  complete (statusFail code step s.status) [] 0 0 0 0 s

/-- The issue of a Cryptor request (20_memory.md R104 item 1). -/
def issueRequest (r : Request) (w : Work) (s : State) : State :=
  { s with phase := .wait, pending := some r, work := { w with answer := none } }

/-- The effect of one engine step (40_lifecycle.md R164). -/
def perform : Action → State → State
  | .ask r w, s => issueRequest r w s
  | .ok out r0 r1 r2 r3, s => commitOk out r0 r1 r2 r3 s
  | .fail code step, s => commitFail code step s

/-- The second common check (40_lifecycle.md R162). The first, that the word is a command, is the decoder's: a word that is none
decodes to an illegal instruction. -/
def commonChecks (s : State) (a : Action) : Action :=
  if inLen s > ibufBytes then .fail .invalidArgument 0 else a

/-- The snapshot of R161. -/
def snapshot (w : Word) (s : State) : Latch where
  cmd := w
  arg0 := s.arg0
  arg1 := s.arg1
  arg2 := s.arg2
  arg3 := s.arg3
  inLen := s.inLen
  enf := s.ctrl.enforceSeclen

/-- Acceptance of a command word (R160, R161). -/
def accept (w : Word) (s : State) : State :=
  { s with
    status := statusAccept s.status
    res0 := 0
    res1 := 0
    res2 := 0
    res3 := 0
    outLen := 0
    latch := snapshot w s
    phase := .run
    work := Work.empty }

/-- The Cryptor's step (20_memory.md R104 items 2 and 3): the answer to the pending request returns the engine to `RUN`. A
response to an abandoned request has a lower count and is discarded whenever it arrives (R113; 70_reset_and_hazards.md R322;
log 9); so is one that answers no request. -/
def takeAnswer (abandoned : Nat) (r : Response) (s : State) : State :=
  if s.phase = .wait ∧ abandoned = s.abandoned then
    { s with phase := .run, pending := none, work := { s.work with answer := some r } }
  else s

/-- Reset, hardware or soft (70_reset_and_hazards.md R320, R321; 10_state.md R60): every register, flag and window at its reset
value, a running command abandoned, and the abandon epoch flipped if a request was pending, which is then abandoned. -/
def resetTlvc (s : State) : State :=
  { State.reset with
    cfg := s.cfg
    abandoned := s.abandoned + s.pending.isSome.toNat
    events := s.events
    bus := s.bus }

end Sys2Proof.Machine
end

