-- ==== Sys2Proof/Machine/Bus.lean ====
section
/-! DEFINITION. The host window: its map, which accesses are allowed, and what each read and write does (20_memory.md R80-R93;
10_state.md R32-R53). -/

namespace Sys2Proof.Machine

open Sys2Proof

/-- The parts of the window's map (20_memory.md R82). -/
inductive Region where
  | register
  | key
  | idkey
  | salt
  | mktag
  | ibuf
  | obuf
  | reserved
  deriving DecidableEq, Repr

/-- The map of R82, by window offset. -/
def regionOf (off : Nat) : Region :=
  if off < 0x100 then .register
  else if off < 0x110 then .key
  else if off < 0x120 then .idkey
  else if off < 0x130 then .salt
  else if off < 0x140 then .reserved
  else if off < 0x160 then .mktag
  else if off < 0x400 then .reserved
  else if off < 0x600 then .ibuf
  else if off < 0x1000 then .reserved
  else .obuf

/-- The bytes of an access (R80). -/
def widthBytes : Width → Nat
  | .byte => 1
  | .half => 2
  | .word => 4

/-- R83 and R84: 4-byte accesses only in the register block, and natural alignment everywhere. -/
def accessAllowed (off : Nat) (w : Width) : Bool :=
  (0x100 ≤ off || w == .word) && off % widthBytes w == 0

/-- The window offset of a host address, `none` outside the window (R80, R81). -/
def offsetOf (c : Params) (addr : Nat) : Option Nat :=
  if c.base ≤ addr ∧ addr < c.base + windowSize then some (addr - c.base) else none

/-- `ID` (10_state.md R34). -/
def idConstant : Word := 0x544C5601

/-- Result gating (R92): a result reads 0 while a command runs. -/
def gated {n : Nat} (s : State) (v : BitVec n) : BitVec n := if s.status.busy then 0 else v

/-- What a register reads as (R88, R92): `CMD` and reserved offsets read 0. -/
def readRegister (s : State) (off : Nat) : Word :=
  if off = 0x000 then idConstant
  else if off = 0x004 then ctrlWord s.ctrl
  else if off = 0x008 then statusWord s.status
  else if off = 0x010 then s.inLen.setWidth 32
  else if off = 0x014 then gated s (s.outLen.setWidth 32)
  else if off = 0x020 then s.arg0
  else if off = 0x024 then s.arg1
  else if off = 0x028 then s.arg2
  else if off = 0x02C then s.arg3
  else if off = 0x030 then gated s s.res0
  else if off = 0x034 then gated s s.res1
  else if off = 0x038 then gated s s.res2
  else if off = 0x03C then gated s s.res3
  else 0

/-- What a window byte reads as (R88, R92): `KEY`, `IDKEY` and reserved offsets read 0. -/
def readWindow (s : State) (off : Nat) : Byte :=
  match regionOf off with
  | .salt | .mktag | .ibuf => Memory.read s.mem off
  | .obuf => gated s (Memory.read s.mem off)
  | .register | .key | .idkey | .reserved => 0

/-- The window bytes of an access as a word, the first in bits 7:0 (R86). -/
def readWindowWord (s : State) (off : Nat) (w : Width) : Word :=
  let b (k : Nat) : Byte := if k < widthBytes w then readWindow s (off + k) else 0
  bytesWord (b 0) (b 1) (b 2) (b 3)

/-- The data of an allowed read (R88). -/
def readData (s : State) (off : Nat) (w : Width) : Word :=
  if off < 0x100 then readRegister s off else readWindowWord s off w

/-- The busy lock (R91): while a command runs, the write changes nothing but `WERR`. -/
def unlessBusy (s s' : State) : State :=
  if s.status.busy then { s with status := statusLocked s.status } else s'

/-- A write to the register block (R89). -/
def writeRegister (off : Nat) (v : Word) (s : State) : State :=
  if off = 0x004 then (if v.getLsbD 2 then resetTlvc s else { s with ctrl := ctrlOfWord v })
  else if off = 0x008 then { s with status := statusClear v s.status }
  else if off = 0x00C then unlessBusy s (accept v s)
  else if off = 0x010 then unlessBusy s { s with inLen := v.extractLsb' 0 10 }
  else if off = 0x020 then unlessBusy s { s with arg0 := v }
  else if off = 0x024 then unlessBusy s { s with arg1 := v }
  else if off = 0x028 then unlessBusy s { s with arg2 := v }
  else if off = 0x02C then unlessBusy s { s with arg3 := v }
  else s

/-- A write to a byte window (R89): the bytes of the value, least significant first, at the offset and on (R86). -/
def writeWindow (off : Nat) (w : Width) (v : Word) (s : State) : State :=
  match regionOf off with
  | .key | .idkey | .salt | .mktag | .ibuf =>
    unlessBusy s { s with mem := Memory.store s.mem off ((wordBytes v).take (widthBytes w)) }
  | .register | .obuf | .reserved => s

/-- The effect of an allowed write (R89). -/
def writeData (off : Nat) (w : Width) (v : Word) (s : State) : State :=
  if off < 0x100 then writeRegister off v s else writeWindow off w v s

/-- One access at a window offset, with its response (R85): `ERROR` has no effect and reads 0. -/
def accessAt (off : Nat) (a : HostAccess) (s : State) : State :=
  match a with
  | .read _ w =>
    if accessAllowed off w then { s with bus := some { error := false, data := readData s off w } }
    else { s with bus := some { error := true, data := 0 } }
  | .write _ w v =>
    if accessAllowed off w then { writeData off w v s with bus := some { error := false, data := 0 } }
    else { s with bus := some { error := true, data := 0 } }

/-- The host address of an access. -/
def accessAddress : HostAccess → Nat
  | .read addr _ => addr
  | .write addr _ _ => addr

/-- One host access: an address outside the window is not the TLVC's (R81; log 3). -/
def hostAccess (a : HostAccess) (s : State) : Host.Outcome State Fault Refusal :=
  match offsetOf s.cfg (accessAddress a) with
  | some off => .next (accessAt off a s)
  | none => .fault .outsideWindow

end Sys2Proof.Machine
end

