-- ==== Sys2Proof/Machine/EncryptionInfo.lean ====
section
/-! DEFINITION. The encryption-info element (42_encryption_info.md): `ei_encode`, `ei_decode`, EI_ENC and EI_DEC. -/

namespace Sys2Proof.Machine

open Sys2Proof

/-- `ei_encode(scheme, salt)` (R200): the salt's length is checked, the scheme is not. -/
def eiEncode (scheme : Nat) (salt : List Byte) : Except ErrorCode (List Byte) :=
  if salt.length ≠ saltLong then .error .invalidSaltLength
  else .ok (byteOf ((scheme <<< 3) &&& eiSchemeMask) :: salt)

/-- `bytes[0][6:3]` (R201): bits 7 and 2:0 are ignored. -/
def eiScheme (b : Byte) : Nat := bitField b.toNat 3 4

/-- `ei_decode(bytes)` (R201): the length is checked before the scheme. -/
def eiDecode (c : Params) (bytes : List Byte) : Except ErrorCode (Nat × List Byte) :=
  if bytes.length ≠ eiLen then .error .invalidSaltLength
  else
    let scheme := eiScheme (byteAt bytes 0)
    if scheme ≠ c.schemeMic ∧ scheme ≠ c.schemeSignature then .error .invalidEncryptionScheme
    else .ok (scheme, slice bytes 1 eiLen)

/-- The outcome of `EI_ENC` (R202). -/
def eiEncAction (s : State) : Action :=
  match eiEncode (arg0 s) (inputBytes s) with
  | .error code => .fail code 0
  | .ok e => .ok e 0 0 0 0

/-- `EI_ENC` (R202). -/
def execEiEnc (s : State) : Host.Outcome State Fault Refusal :=
  .next (perform (commonChecks s (eiEncAction s)) s)

/-- The outcome of `EI_DEC` (R203). -/
def eiDecAction (s : State) : Action :=
  match eiDecode s.cfg (inputBytes s) with
  | .error code => .fail code 0
  | .ok (scheme, salt) => .ok salt scheme 0 0 0

/-- `EI_DEC` (R203). -/
def execEiDec (s : State) : Host.Outcome State Fault Refusal :=
  .next (perform (commonChecks s (eiDecAction s)) s)

end Sys2Proof.Machine
end

