-- ==== Sys2Proof/Machine/HeaderCodec.lean ====
section
/-! DEFINITION. The header codec (41_header_codec.md): the header decoder and the effect of each kind of header byte on it
(30_encoding.md R125-R130), `hdr_encode` and `hdr_decode`, and the meanings of HDR_ENC, HDR_DEC and of the four header bytes. -/

namespace Sys2Proof.Machine

open Sys2Proof

/-- A decoded header: `(type, length, n)` of R181. -/
structure Header where
  typ : Nat
  length : Nat
  n : Nat
  deriving DecidableEq, Repr

/-- An `HDR1` byte is a whole header of one byte (30_encoding.md R126). -/
def unitHdr1 (length : BitVec 3) (typ : BitVec 4) : HeaderUnit :=
  .done length.toNat typ.toNat 1

/-- Byte 0 of a multi-byte header gives the length; no type bits and no group yet (30_encoding.md R127). -/
def unitHdrm (length : BitVec 7) : HeaderUnit :=
  .groups length.toNat 0 0

/-- A type group with continuation set (30_encoding.md R128, R129): seven more type bits, and a refusal at the third group.
Defined only inside a multi-byte header. -/
def unitGroupCont (bits : BitVec 7) : HeaderUnit → Option HeaderUnit
  | .groups length typ g =>
    some (if g + 1 = maxTypeGroups then .malformed else .groups length (typ * 128 + bits.toNat) (g + 1))
  | _ => none

/-- The final type group (30_encoding.md R128, R129) ends the header: byte 0, the earlier groups and this one. Defined only
inside a multi-byte header. -/
def unitGroupFinal (bits : BitVec 7) : HeaderUnit → Option HeaderUnit
  | .groups length typ g => some (.done length (typ * 128 + bits.toNat) (g + 2))
  | _ => none

/-- The kind of byte that the header decoder reads next. -/
def headerPosition : HeaderUnit → DecodePosition
  | .groups _ _ _ => .headerGroup
  | _ => .headerStart

/-- The header byte that a byte stands for where the decoder stands. -/
def decodeHeaderByte (u : HeaderUnit) (b : Byte) : Instr :=
  match headerPosition u with
  | .headerGroup => decodeHeaderGroup b
  | _ => decodeHeaderStart b

/-- The effect of a header byte on the decoder, `none` where it has none. -/
def unitStep (i : Instr) (u : HeaderUnit) : Option HeaderUnit :=
  match i with
  | .hdr1 length typ => some (unitHdr1 length typ)
  | .hdrm length => some (unitHdrm length)
  | .groupCont bits => unitGroupCont bits u
  | .groupFinal bits => unitGroupFinal bits u
  | _ => none

/-- The decoder's run over the bytes that remain before `end` (R181): it stops at the end of the header, and refuses the
header if the bytes end first. -/
def runHeader : HeaderUnit → List Byte → HeaderUnit
  | .done length typ n, _ => .done length typ n
  | .malformed, _ => .malformed
  | .start, [] => .malformed
  | .groups _ _ _, [] => .malformed
  | .start, b :: bs =>
    match unitStep (decodeHeaderByte .start b) .start with
    | some u => runHeader u bs
    | none => .malformed
  | .groups length typ g, b :: bs =>
    match unitStep (decodeHeaderByte (.groups length typ g) b) (.groups length typ g) with
    | some u => runHeader u bs
    | none => .malformed

/-- `hdr_decode(buf, off, end)` (R181; log 17); `none` is `MALFORMED_HEADER`. -/
def hdrDecode (buf : List Byte) (off fin : Nat) : Option Header :=
  match runHeader .start (slice buf off fin) with
  | .done length typ n => some { typ := typ, length := length, n := n }
  | _ => none

/-- `bitlen(v)` (R180): the number of bits without leading zeros. -/
def bitlen (v : Nat) : Nat := if v = 0 then 0 else Nat.log2 v + 1

/-- The fewest type groups that hold a type (R180, 30_encoding.md R131): `max(1, ceil(bitlen(type) / 7))`. -/
def groupCount (typ : Nat) : Nat := max 1 ((bitlen typ + 6) / 7)

/-- Type group `k` of `g` (R180). -/
def groupByte (typ g k : Nat) : Byte :=
  byteOf ((if k + 1 < g then 0x80 else 0x00) + typ / 2 ^ (7 * (g - 1 - k)) % 0x80)

/-- `hdr_encode(type, length)` (R180), for `type < TYPE_LIMIT` and `length < LEN_LIMIT`. -/
def hdrEncode (typ length : Nat) : List Byte :=
  if typ < 16 ∧ length < 8 then [byteOf (length * 16 + typ)]
  else byteOf (0x80 + length) :: (List.range (groupCount typ)).map (groupByte typ (groupCount typ))

/-- The outcome of `HDR_ENC` (R182). -/
def hdrEncAction (s : State) : Action :=
  let t := arg0 s
  let l := arg1 s
  if l ≥ lenLimit ∨ t ≥ typeLimit then .fail .invalidArgument 0
  else
    let h := hdrEncode t l
    .ok h h.length (packLittleEndian h) 0 0

/-- `HDR_ENC` (R182). -/
def execHdrEnc (s : State) : Host.Outcome State Fault Refusal :=
  .next (perform (commonChecks s (hdrEncAction s)) s)

/-- The outcome of `HDR_DEC` (R183). -/
def hdrDecAction (s : State) : Action :=
  match hdrDecode (inputBytes s) (arg0 s) (inLen s) with
  | none => .fail .malformedHeader 0
  | some h => .ok [] h.typ h.length h.n 0

/-- `HDR_DEC` (R183). -/
def execHdrDec (s : State) : Host.Outcome State Fault Refusal :=
  .next (perform (commonChecks s (hdrDecAction s)) s)

/-- The header decoder moves to where a header byte takes it; nothing else changes. -/
def moveHeaderUnit (u : Option HeaderUnit) (s : State) : Host.Outcome State Fault Refusal :=
  match u with
  | some u => .next { s with work := { s.work with hdr := u } }
  | none => .fault .groupOutsideHeader

/-- `HDR1` (30_encoding.md R126). -/
def execHdr1 (length : BitVec 3) (typ : BitVec 4) (s : State) : Host.Outcome State Fault Refusal :=
  moveHeaderUnit (some (unitHdr1 length typ)) s

/-- `HDRM` (30_encoding.md R127). -/
def execHdrm (length : BitVec 7) (s : State) : Host.Outcome State Fault Refusal :=
  moveHeaderUnit (some (unitHdrm length)) s

/-- `HDRM_GROUP_CONT` (30_encoding.md R128). -/
def execGroupCont (bits : BitVec 7) (s : State) : Host.Outcome State Fault Refusal :=
  moveHeaderUnit (unitGroupCont bits s.work.hdr) s

/-- `HDRM_GROUP_FINAL` (30_encoding.md R128). -/
def execGroupFinal (bits : BitVec 7) (s : State) : Host.Outcome State Fault Refusal :=
  moveHeaderUnit (unitGroupFinal bits s.work.hdr) s

end Sys2Proof.Machine
end

