-- ==== Sys2Proof/Machine/Scanner.lean ====
section
/-! DEFINITION. The element-stream scanner (43_scanner.md): its three rule sets, `scan_elements`, the table entry, and SCAN. -/

namespace Sys2Proof.Machine

open Sys2Proof

/-- The three rule sets (R217, R218, R219). -/
inductive RuleSet where
  | plain
  | inner
  | extras
  deriving DecidableEq, Repr

/-- An entry `(type, length, n, voff)` of a scan (R215). -/
structure Entry where
  typ : Nat
  length : Nat
  n : Nat
  voff : Nat
  deriving DecidableEq, Repr

/-- A type that may not reappear after the head of a frame: SALT, ENCRYPTION_INFO or an identity type (R218, R219). -/
def isHeadType (c : Params) (t : Nat) : Bool :=
  t == c.tSalt || t == c.tEi || c.identityTypes.contains t

/-- `check(rs, t, l)` (R217, R218, R219): the failure, if any. -/
def checkElement (c : Params) (rs : RuleSet) (t l : Nat) : Option ErrorCode :=
  match rs with
  | .plain => none
  | .inner =>
    if isHeadType c t then some .structuralDuplicate
    else if t = c.tAction ∧ l ≠ 1 then some .invalidActionLength
    else none
  | .extras =>
    if isHeadType c t then some .structuralDuplicate
    else if t = c.tAction then some .invalidElementType
    else none

/-- The loop of `scan_elements` (R215). Each element takes at least one byte, so a number of rounds that is not below
`fin - pos` never runs out. -/
def scanLoop (c : Params) (rs : RuleSet) (buf : List Byte) (fin : Nat) : Nat → Nat → Except ErrorCode (List Entry)
  | 0, _ => .ok []
  | rounds + 1, pos =>
    if pos < fin then
      match hdrDecode buf pos fin with
      | none => .error .malformedHeader
      | some h =>
        if pos + h.n + h.length > fin then .error .truncated
        else
          match checkElement c rs h.typ h.length with
          | some code => .error code
          | none =>
            match scanLoop c rs buf fin rounds (pos + h.n + h.length) with
            | .error code => .error code
            | .ok es => .ok ({ typ := h.typ, length := h.length, n := h.n, voff := pos + h.n } :: es)
    else .ok []

/-- `scan_elements(buf, start, end, rs)` (R215). -/
def scanElements (c : Params) (buf : List Byte) (start fin : Nat) (rs : RuleSet) : Except ErrorCode (List Entry) :=
  scanLoop c rs buf fin (fin - start) start

/-- A table entry of 8 bytes (R221). -/
def entryBytes (e : Entry) : List Byte :=
  littleEndian 4 e.typ ++ [byteOf e.length, byteOf e.n] ++ littleEndian 2 e.voff

/-- The outcome of `SCAN` (R220). -/
def scanAction (s : State) : Action :=
  if bitField (arg1 s) 1 31 ≠ 0 then .fail .invalidArgument 0
  else if arg0 s > inLen s then .fail .invalidArgument 0
  else
    match scanElements s.cfg (inputBytes s) (arg0 s) (inLen s) (if bitField (arg1 s) 0 1 = 1 then .inner else .plain) with
    | .error code => .fail code 0
    | .ok es => .ok (es.flatMap entryBytes) es.length (inLen s) 0 0

/-- `SCAN` (R220). -/
def execScan (s : State) : Host.Outcome State Fault Refusal :=
  .next (perform (commonChecks s (scanAction s)) s)

end Sys2Proof.Machine
end

