-- ==== Sys2Proof/Machine/AdvBuild.lean ====
section
/-! DEFINITION. The advertisement builder (44_adv_build.md): its steps between Cryptor requests, and ADV_BUILD. What both frame
commands share, the nonce request (R239) and the signed string (R243), stands here too. -/

namespace Sys2Proof.Machine

open Sys2Proof

/-- The nonce request (R239, 20_memory.md R103): the offset goes with the extended salt only. -/
def nonceRequest (c : Params) (extended : Bool) (salt : List Byte) : Request :=
  .nonce salt (if extended then some c.nonceOffset else none)

/-- A `NONCE` answer that the engine does not take (20_memory.md R107). -/
def nonceRefused (r : Response) : Bool := !r.ok || nonceMax < r.data.length

/-- `auth_bytes(hb, L, lead, nonce, idh, ct)` (R243). -/
def authBytes (c : Params) (hb len : Byte) (lead nonce idh ct : List Byte) : List Byte :=
  c.protoConst ++ [hb] ++ [len] ++ lead ++ nonce ++ idh ++ ct

/-- The frame's header byte as built (R237): `SUPPORTED_VERSION << 5`. -/
def headerByte (c : Params) : Byte := byteOf (c.supportedVersion <<< 5)

/-- The leading element (R238, 30_encoding.md R141). -/
def leadingElement (c : Params) (salt : List Byte) : Except ErrorCode (List Byte) :=
  if salt.length = saltShort then .ok (hdrEncode c.tSalt saltShort ++ salt)
  else
    match eiEncode c.schemeMic salt with
    | .error code => .error code
    | .ok e => .ok (hdrEncode c.tEi eiLen ++ e)

/-- The action elements of the plaintext (R241): one of length 1 for each action, in order. -/
def actionElements (c : Params) (actions : List Byte) : List Byte :=
  actions.flatMap (fun a => hdrEncode c.tAction 1 ++ [a])

/-- The plaintext (R241): identity, action elements, and the extras as they stand in `IBUF`. -/
def buildPlaintext (c : Params) (identity input : List Byte) (nA : Nat) : List Byte :=
  identity ++ actionElements c (input.take nA) ++ input.drop nA

/-- The section length (R242). -/
def sectionLength (c : Params) (lead idh ct : List Byte) : Nat :=
  lead.length + idh.length + ct.length + c.sigLen

/-- Step 1 (R237, R238), up to the `NONCE` request. -/
def buildStart (s : State) : Action :=
  let sl := arg1 s
  if arg0 s ≠ s.cfg.supportedVersion then .fail .unsupportedVersion 1
  else if sl ≠ saltShort ∧ sl ≠ saltLong then .fail .invalidSaltLength 1
  else
    match leadingElement s.cfg (saltBytes s sl) with
    | .error code => .fail code 1
    | .ok lead =>
      .ask (nonceRequest s.cfg (sl == saltLong) (saltBytes s sl))
        { s.work with pos := .nonce, salt := saltBytes s sl, lead := lead }

/-- Step 2 with the nonce's answer, steps 3 and 4 (R239-R241), up to the `ENCRYPT` request. -/
def buildAfterNonce (s : State) (r : Response) : Action :=
  let nA := arg3 s
  if nonceRefused r then .fail .cryptorFailure 2
  else if !s.cfg.identityTypes.contains (arg2 s) then .fail .invalidElementType 3
  else if nA > inLen s then .fail .invalidArgument 4
  else
    match scanElements s.cfg (inputBytes s) nA (inLen s) .extras with
    | .error code => .fail code 4
    | .ok _ =>
      let pt := buildPlaintext s.cfg (idkeyBytes s) (inputBytes s) nA
      if pt.length > sectionMax then .fail .sectionTooLarge 4
      else
        .ask (.encrypt pt r.data (keyBytes s))
          { s.work with
            pos := .encrypt
            nonce := r.data
            idType := arg2 s
            idh := hdrEncode (arg2 s) idLen
            cursor := nA
            plaintext := pt }

/-- Step 4 with the ciphertext, step 5 (R242), and step 6 up to the `SIGN` request (R243, R244). -/
def buildAfterEncrypt (s : State) (r : Response) : Action :=
  let w := s.work
  let len := sectionLength s.cfg w.lead w.idh r.data
  if !r.ok then .fail .cryptorFailure 4
  else if len > sectionMax then .fail .sectionTooLarge 5
  else
    .ask (.sign (authBytes s.cfg (headerByte s.cfg) (byteOf len) w.lead w.nonce w.idh r.data) (keyBytes s))
      { w with
        pos := .sign
        ciphertext := r.data
        out := [headerByte s.cfg, byteOf len] ++ w.lead ++ w.idh ++ r.data }

/-- Step 6 with the tag (20_memory.md R110), and step 7 (R245). -/
def buildAfterSign (s : State) (r : Response) : Action :=
  let w := s.work
  if !r.ok ∨ r.data.length ≠ s.cfg.sigLen then .fail .cryptorFailure 6
  else .ok (w.out ++ r.data) (sectionLength s.cfg w.lead w.idh w.ciphertext) 0 0 0

/-- The engine step of `ADV_BUILD` from where the command stands (R236, 40_lifecycle.md R164). -/
def buildAction (s : State) : Option Action :=
  match s.work.pos, s.work.answer with
  | .start, _ => some (commonChecks s (buildStart s))
  | .nonce, some r => some (buildAfterNonce s r)
  | .encrypt, some r => some (buildAfterEncrypt s r)
  | .sign, some r => some (buildAfterSign s r)
  | _, _ => none

/-- Performs an engine step where the command has one at its position. -/
def performAt (a : Option Action) (s : State) : Host.Outcome State Fault Refusal :=
  match a with
  | some a => .next (perform a s)
  | none => .fault .engineOutOfPlace

/-- `ADV_BUILD` (R236). -/
def execAdvBuild (s : State) : Host.Outcome State Fault Refusal :=
  performAt (buildAction s) s

end Sys2Proof.Machine
end

