-- ==== Sys2Proof/Machine/AdvParse.lean ====
section
/-! DEFINITION. The advertisement parser (45_adv_parse.md): its steps between Cryptor requests, its result, and ADV_PARSE. -/

namespace Sys2Proof.Machine

open Sys2Proof

/-- `hb[7:5]` (R262). -/
def versionOf (hb : Byte) : Nat := bitField hb.toNat 5 3

/-- The length that a leading element of a type must have (R264), `none` for a type that leads no frame. -/
def leadingLength (c : Params) (t : Nat) : Option Nat :=
  if t = c.tSalt then some saltShort
  else if t = c.tEi then some eiLen
  else none

/-- The salt in a leading element's value (R264). -/
def leadingSalt (c : Params) (t : Nat) (v : List Byte) : Except ErrorCode (List Byte) :=
  if t = c.tSalt then .ok v
  else
    match eiDecode c v with
    | .error code => .error code
    | .ok (_, salt) => .ok salt

/-- Step 3 up to the `NONCE` request (R264). -/
def parseLead (s : State) (buf : List Byte) : Action :=
  let fin := inLen s
  match hdrDecode buf 2 fin with
  | none => .fail .malformedHeader 3
  | some h =>
    match leadingLength s.cfg h.typ with
    | none => .fail .invalidElementType 3
    | some l =>
      if h.length ≠ l then .fail .invalidSaltLength 3
      else if 2 + h.n + h.length > fin then .fail .truncated 3
      else
        match leadingSalt s.cfg h.typ (slice buf (2 + h.n) (2 + h.n + h.length)) with
        | .error code => .fail code 3
        | .ok salt =>
          .ask (nonceRequest s.cfg (h.typ != s.cfg.tSalt) salt)
            { s.work with
              pos := .nonce
              salt := salt
              lead := slice buf 2 (2 + h.n + h.length)
              cursor := 2 + h.n + h.length }

/-- Steps 1 and 2 (R262, R263), and step 3 up to the `NONCE` request. -/
def parseStart (s : State) : Action :=
  let buf := inputBytes s
  let fin := inLen s
  if fin < 1 then .fail .truncated 1
  else if versionOf (byteAt buf 0) ≠ s.cfg.supportedVersion then .fail .unsupportedVersion 1
  else if fin < 2 then .fail .truncated 2
  else if fin - 2 > sectionMax then .fail .sectionTooLarge 2
  else if s.latch.enf ∧ (byteAt buf 1).toNat ≠ fin - 2 then .fail .sectionLengthMismatch 2
  else parseLead s buf

/-- Step 3 with the nonce's answer, step 4 (R265), and step 5 up to the `DECRYPT` request (R266). -/
def parseAfterNonce (s : State) (r : Response) : Action :=
  let buf := inputBytes s
  let fin := inLen s
  let p := s.work.cursor
  if nonceRefused r then .fail .cryptorFailure 3
  else
    match hdrDecode buf p fin with
    | none => .fail .malformedHeader 4
    | some h =>
      if !s.cfg.identityTypes.contains h.typ then .fail .invalidElementType 4
      else if h.length ≠ idLen then .fail .invalidIdentityLength 4
      else if fin - (p + h.n) < s.cfg.sigLen then .fail .truncated 5
      else
        let ct := slice buf (p + h.n) (fin - s.cfg.sigLen)
        .ask (.decrypt ct r.data (keyBytes s))
          { s.work with
            pos := .decrypt
            nonce := r.data
            idType := h.typ
            idh := slice buf p (p + h.n)
            cursor := p + h.n
            ciphertext := ct
            tag := slice buf (fin - s.cfg.sigLen) fin }

/-- Step 5 with the plaintext, and step 6 up to the `HASH` request (R266, R267). -/
def parseAfterDecrypt (s : State) (r : Response) : Action :=
  if !r.ok then .fail .decryptionFailure 5
  else if r.data.length < idLen then .fail .truncated 6
  else
    .ask (.hash (r.data.take idLen) (keyBytes s))
      { s.work with pos := .hash, plaintext := r.data }

/-- The string whose tag is checked (R268), from the bytes observed. -/
def observedAuthBytes (s : State) : List Byte :=
  let buf := inputBytes s
  authBytes s.cfg (byteAt buf 0) (byteAt buf 1) s.work.lead s.work.nonce s.work.idh s.work.ciphertext

/-- Step 6 with the expected metadata key tag (R267, 20_memory.md R112), and step 7 up to the `VERIFY` request (R268). -/
def parseAfterHash (s : State) (r : Response) : Action :=
  if !r.ok ∨ r.data.length ≠ s.cfg.mktagLen then .fail .cryptorFailure 6
  else if r.data ≠ mktagBytes s then .fail .authenticationMismatch 6
  else
    .ask (.verify (observedAuthBytes s) (keyBytes s) s.work.tag)
      { s.work with pos := .verify, out := s.work.plaintext.take idLen ++ s.work.salt }

/-- An ACTION element (R270). -/
def isAction (c : Params) (e : Entry) : Bool := e.typ == c.tAction

/-- The action elements of a scan, in stream order (R270). -/
def actionsOf (c : Params) (es : List Entry) : List Entry := es.filter (isAction c)

/-- The data elements of a scan, in stream order (R270). -/
def dataOf (c : Params) (es : List Entry) : List Entry := es.filter (fun e => !isAction c e)

/-- The actions and the data elements of `adv_bytes` (R270); `identity ++ salt` goes before them. -/
def advTail (c : Params) (pt : List Byte) (es : List Entry) : List Byte :=
  (actionsOf c es).map (fun e => byteAt pt e.voff) ++
    (dataOf c es).flatMap (fun e => slice pt (e.voff - e.n) (e.voff + e.length))

/-- `dlen(E)` (R270). -/
def dataLength (c : Params) (es : List Entry) : Nat := ((dataOf c es).map (fun e => e.n + e.length)).sum

/-- The step that an inner element's failure is reported under (R269). -/
def innerFailStep (code : ErrorCode) : Nat := if code = .invalidActionLength then 9 else 8

/-- Step 7 with the answer, steps 8 and 9 (R269), and the result (R270, R271). -/
def parseAfterVerify (s : State) (r : Response) : Action :=
  let w := s.work
  if !r.ok then .fail .authenticationMismatch 7
  else
    match scanElements s.cfg w.plaintext idLen w.plaintext.length .inner with
    | .error code => .fail code (innerFailStep code)
    | .ok es =>
      .ok (w.out ++ advTail s.cfg w.plaintext es)
        (versionOf (byteAt (inputBytes s) 0))
        w.idType
        (w.salt.length + (actionsOf s.cfg es).length <<< 8 + (dataOf s.cfg es).length <<< 16)
        (dataLength s.cfg es)

/-- The engine step of `ADV_PARSE` from where the command stands (R261, 40_lifecycle.md R164). -/
def parseAction (s : State) : Option Action :=
  match s.work.pos, s.work.answer with
  | .start, _ => some (commonChecks s (parseStart s))
  | .nonce, some r => some (parseAfterNonce s r)
  | .decrypt, some r => some (parseAfterDecrypt s r)
  | .hash, some r => some (parseAfterHash s r)
  | .verify, some r => some (parseAfterVerify s r)
  | _, _ => none

/-- `ADV_PARSE` (R261). -/
def execAdvParse (s : State) : Host.Outcome State Fault Refusal :=
  performAt (parseAction s) s

end Sys2Proof.Machine
end

