-- ==== Sys2Proof/Machine/Illegal.lean ====
section
/-! DEFINITION. The illegal command words (40_lifecycle.md R163), one meaning for each of the table's three rows. -/

namespace Sys2Proof.Machine

open Sys2Proof

/-- `raise Fail(ILLEGAL_COMMAND, 0)` (R162, R163): the first common check, before any other. -/
def illegalAction : Action := .fail .illegalCommand 0

/-- `ILLEGAL` with `OP` = 0 (R163). -/
def execIllegalZero (s : State) : Host.Outcome State Fault Refusal :=
  .next (perform illegalAction s)

/-- `ILLEGAL` with `OP` = 8..15 (R163). -/
def execIllegalHigh (s : State) : Host.Outcome State Fault Refusal :=
  .next (perform illegalAction s)

/-- `ILLEGAL` with `OP` = 1..7 and `RSV` not 0 (R163). -/
def execIllegalReserved (s : State) : Host.Outcome State Fault Refusal :=
  .next (perform illegalAction s)

end Sys2Proof.Machine
end

