-- ==== Sys2Proof/Machine/Dispatch.lean ====
section
/-! DEFINITION. One arm for each constructor of Instr: the engine's step for the command it carries out, and the effect of a
header byte on the header decoder. -/

namespace Sys2Proof.Machine

open Sys2Proof

def exec (i : Instr) (s : State) : Host.Outcome State Fault Refusal :=
  match i with
  | .hdrEnc => Sys2Proof.Machine.execHdrEnc s
  | .hdrDec => Sys2Proof.Machine.execHdrDec s
  | .eiEnc => Sys2Proof.Machine.execEiEnc s
  | .eiDec => Sys2Proof.Machine.execEiDec s
  | .scan => Sys2Proof.Machine.execScan s
  | .advBuild => Sys2Proof.Machine.execAdvBuild s
  | .advParse => Sys2Proof.Machine.execAdvParse s
  | .illegalZero _ => Sys2Proof.Machine.execIllegalZero s
  | .illegalHigh _ _ => Sys2Proof.Machine.execIllegalHigh s
  | .illegalReserved _ _ => Sys2Proof.Machine.execIllegalReserved s
  | .hdr1 length typ => Sys2Proof.Machine.execHdr1 length typ s
  | .hdrm length => Sys2Proof.Machine.execHdrm length s
  | .groupCont bits => Sys2Proof.Machine.execGroupCont bits s
  | .groupFinal bits => Sys2Proof.Machine.execGroupFinal bits s

end Sys2Proof.Machine
end

