-- ==== Sys2Proof/Machine/Fetch.lean ====
section
/-! DEFINITION. What takes the place of an instruction fetch: the command word in the latch (40_lifecycle.md R161, R164), and the
byte that the header decoder reads (log 11). -/

namespace Sys2Proof.Machine

open Sys2Proof

/-- The command in progress: the latched word, decoded (40_lifecycle.md R161, R162). -/
def fetchCommand (s : State) : Instr := decodeCommand s.latch.cmd

/-- The header byte that the decoder reads where it stands. -/
def fetchHeaderByte (b : Byte) (s : State) : Instr := decodeHeaderByte s.work.hdr b

/-- The instruction that the next step runs, if it runs one: the command in progress, when it is the engine's turn in phase
`RUN`, or a header byte. -/
def nextInstr (s : State) : Option Instr :=
  match s.events with
  | [] => if s.phase = .run then some (fetchCommand s) else none
  | .engine :: _ => if s.phase = .run then some (fetchCommand s) else none
  | .headerByte b :: _ => some (fetchHeaderByte b s)
  | .host _ :: _ => none
  | .cryptor _ _ :: _ => none
  | .reset :: _ => none

/-- The state whose very next step runs a table word: a header byte goes to the header decoder at the start of a header, and a
command word is accepted (40_lifecycle.md R160) with the engine's step to come (log 13). -/
def placeTableWord (s : State) (nbits w : Nat) : State :=
  if tableWordIsHeader nbits w then
    { s with work := { s.work with hdr := .start }, events := .headerByte (BitVec.ofNat 8 w) :: s.events }
  else { accept (BitVec.ofNat 32 w) s with events := .engine :: s.events }

end Sys2Proof.Machine
end

