-- ==== Sys2Proof/Machine/Events.lean ====
section
/-! DEFINITION. One step of one agent (00_scope.md R8; 60_exceptions.md R296). -/

namespace Sys2Proof.Machine

open Sys2Proof

/-- The engine's step: in phase `RUN` it carries out the command in progress (40_lifecycle.md R164); in `IDLE` and `WAIT` it has
none, and the state stays (R165). -/
def engineStep (s : State) : Host.Outcome State Fault Refusal :=
  if s.phase = .run then exec (fetchCommand s) s else .next s

/-- The Cryptor's step: an answer within the port's limit (20_memory.md R106) is taken or discarded. -/
def cryptorStep (abandoned : Nat) (r : Response) (s : State) : Host.Outcome State Fault Refusal :=
  if r.data.length > cryRspMax then .fault .responseTooLong else .next (takeAnswer abandoned r s)

/-- The step of one event. -/
def eventStep (e : Event) (s : State) : Host.Outcome State Fault Refusal :=
  match e with
  | .host a => hostAccess a s
  | .engine => engineStep s
  | .cryptor abandoned r => cryptorStep abandoned r s
  | .reset => .next (resetTlvc s)
  | .headerByte b => exec (fetchHeaderByte b s) s

/-- The next event in the order of `events`; the engine's step when there is none left (log 1). -/
def nextStep (s : State) : Host.Outcome State Fault Refusal :=
  match s.events with
  | [] => engineStep s
  | e :: es => eventStep e { s with events := es }

end Sys2Proof.Machine
end

