-- ==== Sys2Proof/Machine/Step.lean ====
section
/-! DEFINITION. The machine's step, and where a table word is placed so that the next step runs it. -/

namespace Sys2Proof.Machine

open Sys2Proof

/-- One step of the machine: a configuration that breaks 00_scope.md R7 is refused (log 7), and otherwise one agent moves. -/
def step (s : State) : Host.Outcome State Fault Refusal :=
  if s.cfg.wf then nextStep s else .refused .invalidConfiguration

/-- `s` with a table word where the next step takes its instruction (log 12, log 13). -/
def State.withFetchWord (s : State) (nbits w : Nat) : State := placeTableWord s nbits w

end Sys2Proof.Machine
end

