-- ==== Sys2Proof/Safety.lean ====
section
/-! DEFINITION. What the claims about the TLVC speak of: the commits and requests as the spec states them, the invariants of every
run, what a host can observe, and the outcome of a whole frame command as one function of its operands and the Cryptor's
answers. -/

namespace Sys2Proof.Safety

open Sys2Proof Sys2Proof.Machine

/-! ## What a command's step changes -/

/-- No command writes the host's registers, the parameters, the count of abandoned requests, the event list or the bus response
(20_memory.md R101). -/
def HostSideKept (s t : State) : Prop :=
  t.cfg = s.cfg ∧ t.arg0 = s.arg0 ∧ t.arg1 = s.arg1 ∧ t.arg2 = s.arg2 ∧ t.arg3 = s.arg3 ∧ t.inLen = s.inLen ∧
  t.ctrl = s.ctrl ∧ t.abandoned = s.abandoned ∧ t.events = s.events ∧ t.bus = s.bus

/-- Every byte of the window but `OBUF`'s reads as before. -/
def MemoryKeptOutsideObuf (s t : State) : Prop :=
  ∀ a, a < obufOff ∨ obufOff + obufBytes ≤ a → Memory.read t.mem a = Memory.read s.mem a

/-- `OBUF` holds a byte string and then zeros. -/
def ObufHolds (t : State) (out : List Byte) : Prop :=
  ∀ k, k < obufBytes → Memory.read t.mem (obufOff + k) = out.getD k 0

/-- The result registers hold four numbers. -/
def ResultsHold (t : State) (r0 r1 r2 r3 : Nat) : Prop :=
  t.res0 = BitVec.ofNat 32 r0 ∧ t.res1 = BitVec.ofNat 32 r1 ∧ t.res2 = BitVec.ofNat 32 r2 ∧ t.res3 = BitVec.ofNat 32 r3

/-- From `s` to `t` the engine commits `Ok(out, r0, r1, r2, r3)` (40_lifecycle.md R166, R167), and nothing else that is not hidden
changes. -/
def CommitsOk (s t : State) (out : List Byte) (r0 r1 r2 r3 : Nat) : Prop :=
  ObufHolds t out ∧ t.outLen = BitVec.ofNat 13 out.length ∧ ResultsHold t r0 r1 r2 r3 ∧
  t.status = { s.status with busy := false, done := true, errcode := 0, failStep := 0 } ∧
  t.phase = .idle ∧ t.pending = none ∧ MemoryKeptOutsideObuf s t ∧ HostSideKept s t

/-- From `s` to `t` the engine commits `Fail(code, step)` (40_lifecycle.md R166, R168), and nothing else that is not hidden
changes. -/
def CommitsFail (s t : State) (code : ErrorCode) (step : Nat) : Prop :=
  ObufHolds t [] ∧ t.outLen = 0 ∧ ResultsHold t 0 0 0 0 ∧
  t.status = { s.status with
    busy := false, err := true, errcode := BitVec.ofNat 5 (errorNumber code), failStep := BitVec.ofNat 4 step } ∧
  t.phase = .idle ∧ t.pending = none ∧ MemoryKeptOutsideObuf s t ∧ HostSideKept s t

/-- From `s` to `t` the engine issues a request and waits (20_memory.md R104), and changes nothing but its working storage. -/
def Requests (s t : State) (r : Request) : Prop :=
  t.phase = .wait ∧ t.pending = some r ∧ t.status = s.status ∧ t.outLen = s.outLen ∧
  t.res0 = s.res0 ∧ t.res1 = s.res1 ∧ t.res2 = s.res2 ∧ t.res3 = s.res3 ∧
  (∀ a, Memory.read t.mem a = Memory.read s.mem a) ∧ t.latch = s.latch ∧ HostSideKept s t

/-- A header byte moves the header decoder and changes nothing else. -/
def OnlyHeaderUnit (s t : State) (u : HeaderUnit) : Prop :=
  t = { s with work := { s.work with hdr := u } }

/-! ## The outcome of a command as one function -/

/-- The header at `off`, from the bytes of `buf` below `fin`: the pseudocode of 41_header_codec.md R181 with its loop written out,
for the one to three type groups that a header may have (30_encoding.md R126-R130, R143). `none` is `MALFORMED_HEADER`: no byte 0,
bytes that end before the final group, or a third group with bit 7 set. -/
def headerRead (buf : List Byte) (off fin : Nat) : Option Header :=
  let byte (k : Nat) : Option Byte := if off + k < fin then buf[off + k]? else none
  (byte 0).bind fun b0 =>
    if b0.toNat < 128 then some { typ := b0.toNat % 16, length := b0.toNat / 16, n := 1 }
    else
      let length := b0.toNat - 128
      (byte 1).bind fun b1 =>
        if b1.toNat < 128 then some { typ := b1.toNat, length := length, n := 2 }
        else
          (byte 2).bind fun b2 =>
            if b2.toNat < 128 then
              some { typ := 2 ^ 7 * (b1.toNat - 128) + b2.toNat, length := length, n := 3 }
            else
              (byte 3).bind fun b3 =>
                if b3.toNat < 128 then
                  some { typ := 2 ^ 14 * (b1.toNat - 128) + 2 ^ 7 * (b2.toNat - 128) + b3.toNat, length := length, n := 4 }
                else none

/-- The outcome of a command (00_scope.md R15). -/
inductive Result where
  | ok (out : List Byte) (res0 res1 res2 res3 : Nat)
  | fail (code : ErrorCode) (step : Nat)
  deriving DecidableEq, Repr

/-- From `s` to `t` a command commits its outcome. -/
def Commits (s t : State) : Result → Prop
  | .ok out r0 r1 r2 r3 => CommitsOk s t out r0 r1 r2 r3
  | .fail code step => CommitsFail s t code step

/-- The outcome of ADV_BUILD with the three Cryptor answers `rn`, `re`, `rs`: the pseudocode of 44_adv_build.md R236 line by
line, on the operands of R235. -/
def buildResult (s : State) (rn re rs : Response) : Result :=
  let c := s.cfg
  let input := Memory.bytes s.mem 0x400 s.latch.inLen.toNat
  let nA := s.latch.arg3.toNat
  let salt := Memory.bytes s.mem 0x120 s.latch.arg1.toNat
  let lead :=
    if s.latch.arg1.toNat = saltShort then hdrEncode c.tSalt 2 ++ salt
    else hdrEncode c.tEi eiLen ++ byteOf ((c.schemeMic <<< 3) &&& eiSchemeMask) :: salt
  let idh := hdrEncode (s.latch.arg2.toNat) idLen
  let pt := Memory.bytes s.mem 0x110 16 ++ (input.take nA).flatMap (fun a => hdrEncode c.tAction 1 ++ [a]) ++ input.drop nA
  let hb := byteOf (c.supportedVersion * 32)
  let len := lead.length + idh.length + re.data.length + c.sigLen
  if s.latch.inLen.toNat > ibufBytes then .fail .invalidArgument 0
  else if s.latch.arg0.toNat ≠ c.supportedVersion then .fail .unsupportedVersion 1
  else if s.latch.arg1.toNat ≠ saltShort ∧ s.latch.arg1.toNat ≠ saltLong then .fail .invalidSaltLength 1
  else if rn.ok = false ∨ rn.data.length > nonceMax then .fail .cryptorFailure 2
  else if s.latch.arg2.toNat ∉ c.identityTypes then .fail .invalidElementType 3
  else if nA > s.latch.inLen.toNat then .fail .invalidArgument 4
  else
    match scanElements c input nA s.latch.inLen.toNat .extras with
    | .error code => .fail code 4
    | .ok _ =>
      if pt.length > sectionMax then .fail .sectionTooLarge 4
      else if re.ok = false then .fail .cryptorFailure 4
      else if len > sectionMax then .fail .sectionTooLarge 5
      else if rs.ok = false ∨ rs.data.length ≠ c.sigLen then .fail .cryptorFailure 6
      else .ok ([hb, byteOf len] ++ lead ++ idh ++ re.data ++ rs.data) len 0 0 0

/-- The outcome of ADV_PARSE with the four Cryptor answers `rn`, `rd`, `rh`, `rv`: the pseudocode of 45_adv_parse.md R261 line by
line, on the operands of R260, and the result of R270 and R271. -/
def parseResult (s : State) (rn rd rh rv : Response) : Result :=
  let c := s.cfg
  let buf := Memory.bytes s.mem 0x400 s.latch.inLen.toNat
  let fin := s.latch.inLen.toNat
  let hb := byteAt buf 0
  let pt := rd.data
  if fin > ibufBytes then .fail .invalidArgument 0
  else if fin < 1 then .fail .truncated 1
  else if hb.toNat / 32 ≠ c.supportedVersion then .fail .unsupportedVersion 1
  else if fin < 2 then .fail .truncated 2
  else if fin - 2 > sectionMax then .fail .sectionTooLarge 2
  else if s.latch.enf = true ∧ (byteAt buf 1).toNat ≠ fin - 2 then .fail .sectionLengthMismatch 2
  else
    match hdrDecode buf 2 fin with
    | none => .fail .malformedHeader 3
    | some h =>
      let p := 2 + h.n + h.length
      let v := slice buf (2 + h.n) p
      if h.typ ≠ c.tSalt ∧ h.typ ≠ c.tEi then .fail .invalidElementType 3
      else if h.typ = c.tSalt ∧ h.length ≠ saltShort ∨ h.typ = c.tEi ∧ h.length ≠ eiLen then .fail .invalidSaltLength 3
      else if p > fin then .fail .truncated 3
      else if h.typ = c.tEi ∧ eiScheme (byteAt v 0) ≠ c.schemeMic ∧ eiScheme (byteAt v 0) ≠ c.schemeSignature then
        .fail .invalidEncryptionScheme 3
      else if rn.ok = false ∨ rn.data.length > nonceMax then .fail .cryptorFailure 3
      else
        match hdrDecode buf p fin with
        | none => .fail .malformedHeader 4
        | some ih =>
          if ih.typ ∉ c.identityTypes then .fail .invalidElementType 4
          else if ih.length ≠ idLen then .fail .invalidIdentityLength 4
          else if fin - (p + ih.n) < c.sigLen then .fail .truncated 5
          else if rd.ok = false then .fail .decryptionFailure 5
          else if pt.length < idLen then .fail .truncated 6
          else if rh.ok = false ∨ rh.data.length ≠ c.mktagLen then .fail .cryptorFailure 6
          else if rh.data ≠ Memory.bytes s.mem 0x140 c.mktagLen then .fail .authenticationMismatch 6
          else if rv.ok = false then .fail .authenticationMismatch 7
          else
            match scanElements c pt idLen pt.length .inner with
            | .error code => .fail code (if code = .invalidActionLength then 9 else 8)
            | .ok es =>
              let salt := if h.typ = c.tSalt then v else v.drop 1
              let acts := es.filter (fun e => e.typ = c.tAction)
              let dats := es.filter (fun e => e.typ ≠ c.tAction)
              .ok (pt.take idLen ++ salt ++ acts.map (fun e => byteAt pt e.voff) ++
                  dats.flatMap (fun e => slice pt (e.voff - e.n) (e.voff + e.length)))
                (hb.toNat / 32) ih.typ (salt.length + acts.length * 256 + dats.length * 65536)
                (dats.map (fun e => e.n + e.length)).sum

/-- `n` steps of the machine, up to the first stop. -/
def runSteps : Nat → State → Host.Outcome State Fault Refusal
  | 0, s => .next s
  | n + 1, s =>
    match Machine.step s with
    | .next t => runSteps n t
    | .fault f => .fault f
    | .refused r => .refused r

/-- The events of a run whose requests are answered in turn: an engine step, and for each answer the Cryptor's step and then the
engine's. -/
def servedEvents (abandoned : Nat) : List Response → List Event
  | [] => [.engine]
  | r :: rs => .engine :: .cryptor abandoned r :: servedEvents abandoned rs

/-- The run of an accepted command with its requests answered in turn. -/
def servedRun (rs : List Response) (s : State) : Host.Outcome State Fault Refusal :=
  runSteps (servedEvents s.abandoned rs).length { s with events := servedEvents s.abandoned rs }

/-- A Cryptor as a test double answers (95_test_vectors.md 0.3): each request, one response. -/
abbrev Cryptor := Request → Response

/-- One step with the Cryptor at hand: it answers a pending request, and otherwise the engine moves. -/
def stepWith (cry : Cryptor) (s : State) : Host.Outcome State Fault Refusal :=
  Machine.step { s with events := match s.pending with
    | some r => [.cryptor s.abandoned (cry r)]
    | none => [.engine] }

/-- `n` such steps. -/
def runWith (cry : Cryptor) : Nat → State → Host.Outcome State Fault Refusal
  | 0, s => .next s
  | n + 1, s =>
    match stepWith cry s with
    | .next t => runWith cry n t
    | .fault f => .fault f
    | .refused r => .refused r

/-- The Cryptor premise of the round trip (45_adv_parse.md R272): `DECRYPT` inverts the `ENCRYPT` of a plaintext that ADV_BUILD
can send, `VERIFY` accepts exactly the tags that `SIGN` gives, and `HASH` succeeds with an answer of `MKTAG_LEN` bytes. -/
def HonestCryptor (c : Params) (cry : Cryptor) : Prop :=
  (∀ p n k, p.length ≤ sectionMax → (cry (.encrypt p n k)).ok = true →
    cry (.decrypt (cry (.encrypt p n k)).data n k) = { ok := true, data := p }) ∧
  (∀ m k t, (cry (.verify m k t)).ok = decide ((cry (.sign m k)).ok = true ∧ t = (cry (.sign m k)).data) ∧
    (cry (.verify m k t)).data.length ≤ cryRspMax) ∧
  (∀ m k, (cry (.hash m k)).ok = true ∧ (cry (.hash m k)).data.length = c.mktagLen)

/-- A command has been accepted and has not moved yet, on a machine whose parameters are as 00_scope.md R7 has them. -/
def Accepted (s : State) : Prop :=
  s.cfg.wf ∧ s.phase = .run ∧ s.work.pos = .start

/-- The command words of 30_encoding.md R122. -/
def IsCommandWord (w : Word) : Prop :=
  w = 1 ∨ w = 2 ∨ w = 3 ∨ w = 4 ∨ w = 5 ∨ w = 6 ∨ w = 7

/-- An illegal instruction, of any of the table's three rows. -/
def IsIllegal (i : Instr) : Prop :=
  (∃ rsv, i = .illegalZero rsv) ∨ (∃ op rsv, i = .illegalHigh op rsv) ∨ (∃ op rsv, i = .illegalReserved op rsv)

/-! ## Invariants -/

/-- The windows' bytes are in canonical form, and none is listed outside the windows (20_memory.md R82). -/
def WindowsCanonical (s : State) : Prop :=
  Memory.wf s.mem ∧
  ∀ x ∈ s.mem, x.1 < windowSize ∧ regionOf x.1 ≠ .register ∧ regionOf x.1 ≠ .reserved

/-- The flags agree with the engine phase and with each other: 10_state.md R38 and R54 (`BUSY`), R56 (the pending request), R39
(`DONE` and `ERR`), R40 and R42 (`ERRCODE`), 60_exceptions.md R293 (`FAIL_STEP`), and 40_lifecycle.md R160 (nothing of an earlier
result while a command runs). -/
def FlagsAgree (s : State) : Prop :=
  (s.status.busy = true ↔ s.phase ≠ .idle) ∧
  (s.pending ≠ none ↔ s.phase = .wait) ∧
  ¬(s.status.done = true ∧ s.status.err = true) ∧
  (s.status.done = true → s.status.errcode = 0) ∧
  (s.status.err = true → s.status.errcode ≠ 0) ∧
  s.status.errcode.toNat ≤ 16 ∧
  s.status.failStep.toNat ≤ 9 ∧
  (s.status.errcode = 0 → s.status.failStep = 0) ∧
  (s.status.busy = true → s.status.done = false ∧ s.status.err = false ∧ s.status.errcode = 0) ∧
  (s.status.busy = true ∨ s.status.errcode ≠ 0 → ResultsHold s 0 0 0 0 ∧ s.outLen = 0)

/-- While a command runs, the operand registers are the ones it latched (10_state.md R55, 20_memory.md R98). -/
def OperandsHeld (s : State) : Prop :=
  s.status.busy = true →
    s.latch.arg0 = s.arg0 ∧ s.latch.arg1 = s.arg1 ∧ s.latch.arg2 = s.arg2 ∧ s.latch.arg3 = s.arg3 ∧
    s.latch.inLen = s.inLen

/-- The positions a command has past its start: one for each request it issues (20_memory.md R105). -/
def positionsOf : Instr → List Position
  | .advBuild => [.nonce, .encrypt, .sign]
  | .advParse => [.nonce, .decrypt, .hash, .verify]
  | _ => []

/-- The position that follows a request. -/
def positionAfter : Request → Position
  | .nonce _ _ => .nonce
  | .encrypt _ _ _ => .encrypt
  | .decrypt _ _ _ => .decrypt
  | .sign _ _ => .sign
  | .verify _ _ _ => .verify
  | .hash _ _ => .hash

/-- The engine stands where its command can stand (10_state.md R31, 20_memory.md R105): waiting, at the position of the pending
request; running, at the start, or past a request with its answer. -/
def EngineInPlace (s : State) : Prop :=
  (s.phase = .wait → s.work.pos ∈ positionsOf (fetchCommand s) ∧ ∀ r, s.pending = some r → s.work.pos = positionAfter r) ∧
  (s.phase = .run → s.work.pos = .start ∨ s.work.pos ∈ positionsOf (fetchCommand s) ∧ s.work.answer ≠ none)

/-- The total field length of a request (20_memory.md R106): every field of R103's table that the request has. -/
def requestLength : Request → Nat
  | .nonce salt offset => salt.length + (offset.getD []).length
  | .encrypt p n k => p.length + n.length + k.length
  | .decrypt c n k => c.length + n.length + k.length
  | .sign b k => b.length + k.length
  | .verify b k t => b.length + k.length + t.length
  | .hash b k => b.length + k.length

/-- The strings of the working storage are within the limits that the port and the formats set (20_memory.md R106, R107;
30_encoding.md R128, R139, R140). -/
def WorkWithinLimits (w : Work) : Prop :=
  (∀ r, w.answer = some r → r.data.length ≤ cryRspMax) ∧
  w.salt.length ≤ 16 ∧ w.lead.length ≤ 21 ∧ w.nonce.length ≤ nonceMax ∧ w.idh.length ≤ 4 ∧
  w.plaintext.length ≤ cryRspMax ∧ w.ciphertext.length ≤ cryRspMax ∧ w.tag.length ≤ 64 ∧ w.out.length ≤ 257

/-- The engine's strings, the request on the port and the input of a command past its start are within their limits
(40_lifecycle.md R162; 45_adv_parse.md R263), for parameters as 00_scope.md R7 has them and a `NONCE_OFFSET` that a request has room
for (20_memory.md R106; DEDUCED, log 20). -/
def WithinLimits (s : State) : Prop :=
  s.cfg.wf ∧ s.cfg.nonceOffset.length ≤ nonceOffsetMax ∧ WorkWithinLimits s.work ∧
  (∀ r, s.pending = some r → requestLength r ≤ cryReqMax) ∧
  (s.phase ≠ .idle ∧ s.work.pos ≠ .start →
    inLen s ≤ ibufBytes ∧ (fetchCommand s = .advParse → inLen s ≤ sectionMax + 2))

/-- `OUT_LEN` never exceeds `OBUF_BYTES` (10_state.md R46), and between commands `OBUF` is zero at and past it (R53). -/
def OutputBounded (s : State) : Prop :=
  s.outLen.toNat ≤ obufBytes ∧
  (s.phase = .idle → ∀ k, s.outLen.toNat ≤ k → k < obufBytes → Memory.read s.mem (obufOff + k) = 0)

/-! ## What a host can observe -/

/-- Two states that differ in nothing but the bytes of `KEY` and `IDKEY`. -/
def SameButKeys (s t : State) : Prop :=
  (∀ a, regionOf a ≠ .key → regionOf a ≠ .idkey → Memory.read s.mem a = Memory.read t.mem a) ∧
  { s with mem := [] } = { t with mem := [] }

/-- Two memories that read alike but at the bytes that no command reads: `IBUF` at and past the latched `IN_LEN` (10_state.md R45)
and `MKTAG` at and past `MKTAG_LEN` (R51). -/
def SameButUnused (s : State) (m m' : Memory) : Prop :=
  ∀ a, ¬(ibufOff + inLen s ≤ a ∧ a < ibufOff + ibufBytes) → ¬(mktagOff + s.cfg.mktagLen ≤ a ∧ a < mktagOff + 32) →
    Memory.read m a = Memory.read m' a

/-- Two states that differ in nothing but the latch and the working storage. -/
def SameButHidden (s t : State) : Prop :=
  { s with latch := Latch.empty, work := Work.empty } = { t with latch := Latch.empty, work := Work.empty }

/-- Two outcomes related by a relation of states: both stop alike, or both go on to related states. -/
def OutcomesRelated (R : State → State → Prop) : Host.Outcome State Fault Refusal → Host.Outcome State Fault Refusal → Prop
  | .next s, .next t => R s t
  | .fault f, .fault g => f = g
  | .refused f, .refused g => f = g
  | _, _ => False

end Sys2Proof.Safety
end

