-- ==== Sys2Proof/Certificates/Slice0/Obligations.lean ====
section
/-! DEFINITION. The statements about the TLVC that the provers settle. -/

open Sys2Proof Sys2Proof.Machine Sys2Proof.Safety

/-! ## Encodings -/

/-- Decoding an encoded well-formed instruction gives it back, in the position where its bytes are read (30_encoding.md R121,
R122, R126-R128). -/
def Obligations.DecodeRecoversEncodedInstruction : Prop :=
  ∀ i : Instr, i.wf = true → decode i.position (encode i) = .ok i

/-- Every command word is the encoding of exactly the instruction it decodes to, a well-formed one (30_encoding.md R122). -/
def Obligations.EncodeRecoversDecodedCommandWord : Prop :=
  ∀ w : Word, (decodeCommand w).wf = true ∧ (decodeCommand w).position = .command ∧ encode (decodeCommand w) = wordBytes w

/-- A few words written out from the spec: the seven command words, three illegal words, and the header bytes 0x53, 0x8A, 0x94
and 0x14 (30_encoding.md R122; 95_test_vectors.md L1.1, L1.2). -/
def Obligations.SampleWordsDecodeAsTheSpecSays : Prop :=
  decodeCommand 0x00000001 = .hdrEnc ∧ decodeCommand 0x00000002 = .hdrDec ∧ decodeCommand 0x00000003 = .eiEnc ∧
  decodeCommand 0x00000004 = .eiDec ∧ decodeCommand 0x00000005 = .scan ∧ decodeCommand 0x00000006 = .advBuild ∧
  decodeCommand 0x00000007 = .advParse ∧ decodeCommand 0x00000000 = .illegalZero 0 ∧
  decodeCommand 0x0000000F = .illegalHigh 7 0 ∧ decodeCommand 0x00000011 = .illegalReserved 1 1 ∧
  decodeHeaderStart 0x53 = .hdr1 5 3 ∧ decodeHeaderStart 0x8A = .hdrm 10 ∧
  decodeHeaderGroup 0x94 = .groupCont 20 ∧ decodeHeaderGroup 0x14 = .groupFinal 20

/-- 41_header_codec.md R184: decoding inverts encoding within the bounds, with any bytes after the header; the one-byte form is
the form of exactly the small pairs; encoding is injective and decoding is not. -/
def Obligations.HeaderInverseLaw : Prop :=
  (∀ typ length : Nat, typ < typeLimit → length < lenLimit →
    hdrDecode (hdrEncode typ length) 0 (hdrEncode typ length).length =
      some { typ := typ, length := length, n := (hdrEncode typ length).length } ∧
    ((hdrEncode typ length).length = 1 ↔ typ < 16 ∧ length < 8) ∧
    ∀ s : List Byte, hdrDecode (hdrEncode typ length ++ s) 0 ((hdrEncode typ length).length + s.length) =
      some { typ := typ, length := length, n := (hdrEncode typ length).length }) ∧
  (∀ typ length typ' length' : Nat, typ < typeLimit → length < lenLimit → typ' < typeLimit → length' < lenLimit →
    hdrEncode typ length = hdrEncode typ' length' → typ = typ' ∧ length = length') ∧
  ∃ (a b : List Byte) (x y : Header), a ≠ b ∧ hdrDecode a 0 a.length = some x ∧ hdrDecode b 0 b.length = some y ∧
    x.typ = y.typ ∧ x.length = y.length ∧ x.n = a.length ∧ y.n = b.length

/-- A header that is decoded takes 1 to 4 bytes, all of them below `end` and in the input; its fields are within their limits;
and no byte outside the header matters (20_memory.md R100; 30_encoding.md R128, R129, R133). -/
def Obligations.DecodedHeaderDependsOnItsOwnBytes : Prop :=
  ∀ (buf : List Byte) (off fin : Nat) (h : Header), hdrDecode buf off fin = some h →
    1 ≤ h.n ∧ h.n ≤ maxHdrBytes ∧ off + h.n ≤ fin ∧ off + h.n ≤ buf.length ∧ h.typ < typeLimit ∧ h.length < lenLimit ∧
    ∀ (buf' : List Byte) (fin' : Nat), off + h.n ≤ fin' →
      (∀ i, off ≤ i → i < off + h.n → buf'[i]? = buf[i]?) → hdrDecode buf' off fin' = some h

/-- The encoder's form is the shortest of all headers that decode to the same pair: the single-byte form when both fit, and else
the fewest type groups (30_encoding.md R131, R132). -/
def Obligations.CanonicalHeaderIsShortest : Prop :=
  ∀ (buf : List Byte) (off fin : Nat) (h : Header), hdrDecode buf off fin = some h →
    (hdrEncode h.typ h.length).length ≤ h.n

/-- What the header decoder reads, byte for byte. `hdrDecode`, which every command uses, is R181's loop written out: it gives every
header of one to four bytes its type and length, canonical or not (41_header_codec.md R181; 30_encoding.md R129, R132), and refuses
exactly the strings without a byte 0, those that end before a final group, and those whose third group has bit 7 set (30_encoding.md
R143). A header of three groups with leading zero groups is read, against vector HD8 (log 17). The bytes of any such header, canonical
or not, given one by one to the machine take its header decoder to the pair and the length, or to the refusal at the third group, and
change nothing else: that way of running them is the model's (log 11). -/
def Obligations.HeaderDecoderReadsExactlyItsHeaders : Prop :=
  (∀ (buf : List Byte) (off fin : Nat), hdrDecode buf off fin = headerRead buf off fin) ∧
  (hdrDecode [0x85, 0x03] 0 2 = some { typ := 3, length := 5, n := 2 } ∧
    hdrDecode [0x80, 0x80, 0x05] 0 3 = some { typ := 5, length := 0, n := 3 } ∧
    hdrDecode [0x80, 0x80, 0x80, 0x01] 0 4 = some { typ := 1, length := 0, n := 4 } ∧
    hdrDecode [0x80, 0xFF, 0xFF, 0xFF] 0 4 = none ∧ hdrDecode [0x8A, 0x94] 0 2 = none ∧ hdrDecode [] 0 0 = none) ∧
  ∀ s : State, s.cfg.wf → s.work.hdr = .start →
    (∀ typ length : Nat, typ < typeLimit → length < lenLimit →
      runSteps (hdrEncode typ length).length { s with events := (hdrEncode typ length).map .headerByte } =
        .next { s with
          events := [], work := { s.work with hdr := .done length typ (hdrEncode typ length).length } }) ∧
    (∀ (bytes : List Byte) (h : Header), headerRead bytes 0 bytes.length = some h → h.n = bytes.length →
      runSteps bytes.length { s with events := bytes.map .headerByte } =
        .next { s with events := [], work := { s.work with hdr := .done h.length h.typ h.n } }) ∧
    (∀ b0 b1 b2 b3 : Byte, 128 ≤ b0.toNat → 128 ≤ b1.toNat → 128 ≤ b2.toNat → 128 ≤ b3.toNat →
      runSteps 4 { s with events := [b0, b1, b2, b3].map .headerByte } =
        .next { s with events := [], work := { s.work with hdr := .malformed } })

/-- What each kind of header byte does to the header decoder, and that it changes nothing else (30_encoding.md R126-R129; the
decoder as a unit of its own is the model's, log 11). A type group where no multi-byte header is open stops by name, also the
model's choice. -/
def Obligations.HeaderByteInstructionsComplete : Prop :=
  ∀ s : State,
    (∀ length typ, exec (.hdr1 length typ) s =
      .next { s with work := { s.work with hdr := .done length.toNat typ.toNat 1 } }) ∧
    (∀ length, exec (.hdrm length) s = .next { s with work := { s.work with hdr := .groups length.toNat 0 0 } }) ∧
    (∀ bits l t g, s.work.hdr = .groups l t g → exec (.groupCont bits) s =
      .next { s with work := { s.work with
        hdr := if g + 1 = 3 then .malformed else .groups l (t * 128 + bits.toNat) (g + 1) } }) ∧
    (∀ bits l t g, s.work.hdr = .groups l t g → exec (.groupFinal bits) s =
      .next { s with work := { s.work with hdr := .done l (t * 128 + bits.toNat) (g + 2) } }) ∧
    (∀ bits, (∀ l t g, s.work.hdr ≠ .groups l t g) →
      exec (.groupCont bits) s = .fault .groupOutsideHeader ∧ exec (.groupFinal bits) s = .fault .groupOutsideHeader)

/-! ## The commands without Cryptor requests -/

/-- 41_header_codec.md R182, with the common check of 40_lifecycle.md R162: HDR_ENC completes on all operands. -/
def Obligations.HdrEncOutcome : Prop :=
  ∀ s : State, ∃ t, exec .hdrEnc s = .next t ∧
    Commits s t
      (if s.latch.inLen.toNat > 512 then .fail .invalidArgument 0
       else if s.latch.arg1.toNat ≥ 128 ∨ s.latch.arg0.toNat ≥ 2 ^ 21 then .fail .invalidArgument 0
       else
         .ok (hdrEncode s.latch.arg0.toNat s.latch.arg1.toNat)
           (hdrEncode s.latch.arg0.toNat s.latch.arg1.toNat).length
           (packLittleEndian (hdrEncode s.latch.arg0.toNat s.latch.arg1.toNat)) 0 0)

/-- 41_header_codec.md R183, with the common check of 40_lifecycle.md R162: HDR_DEC completes on all operands. -/
def Obligations.HdrDecOutcome : Prop :=
  ∀ s : State, ∃ t, exec .hdrDec s = .next t ∧
    Commits s t
      (if s.latch.inLen.toNat > 512 then .fail .invalidArgument 0
       else
         match hdrDecode (Memory.bytes s.mem 0x400 s.latch.inLen.toNat) s.latch.arg0.toNat s.latch.inLen.toNat with
         | none => .fail .malformedHeader 0
         | some h => .ok [] h.typ h.length h.n 0)

/-- 42_encryption_info.md R200 and R202, with the common check of 40_lifecycle.md R162: EI_ENC completes on all operands. -/
def Obligations.EiEncOutcome : Prop :=
  ∀ s : State, ∃ t, exec .eiEnc s = .next t ∧
    Commits s t
      (if s.latch.inLen.toNat > 512 then .fail .invalidArgument 0
       else if s.latch.inLen.toNat ≠ 16 then .fail .invalidSaltLength 0
       else .ok (BitVec.ofNat 8 (s.latch.arg0.toNat % 16 * 8) :: Memory.bytes s.mem 0x400 s.latch.inLen.toNat) 0 0 0 0)

/-- 42_encryption_info.md R201 and R203, with the common check of 40_lifecycle.md R162: EI_DEC completes on all operands. -/
def Obligations.EiDecOutcome : Prop :=
  ∀ s : State, ∃ t, exec .eiDec s = .next t ∧
    Commits s t
      (if s.latch.inLen.toNat > 512 then .fail .invalidArgument 0
       else if s.latch.inLen.toNat ≠ 17 then .fail .invalidSaltLength 0
       else
         let scheme := (Memory.read s.mem 0x400).toNat / 8 % 16
         if scheme ≠ s.cfg.schemeMic ∧ scheme ≠ s.cfg.schemeSignature then .fail .invalidEncryptionScheme 0
         else .ok ((Memory.bytes s.mem 0x400 s.latch.inLen.toNat).drop 1) scheme 0 0 0)

/-- 42_encryption_info.md R204: decoding inverts encoding for the valid schemes, and refuses every other scheme below 16. -/
def Obligations.EncryptionInfoInverseLaw : Prop :=
  ∀ (c : Params) (scheme : Nat) (salt : List Byte), c.wf → scheme < 16 → salt.length = 16 →
    ∃ e, eiEncode scheme salt = .ok e ∧ e.length = 17 ∧
      eiDecode c e =
        if scheme = c.schemeMic ∨ scheme = c.schemeSignature then .ok (scheme, salt)
        else .error .invalidEncryptionScheme

/-- 43_scanner.md R217, R218 and R219: what each rule set refuses, and in which order. -/
def Obligations.RuleSetsRefuseAsStated : Prop :=
  ∀ (c : Params) (t l : Nat),
    checkElement c .plain t l = none ∧
    checkElement c .inner t l =
      (if t = c.tSalt ∨ t = c.tEi ∨ t ∈ c.identityTypes then some .structuralDuplicate
       else if t = c.tAction ∧ l ≠ 1 then some .invalidActionLength
       else none) ∧
    checkElement c .extras t l =
      (if t = c.tSalt ∨ t = c.tEi ∨ t ∈ c.identityTypes then some .structuralDuplicate
       else if t = c.tAction then some .invalidElementType
       else none)

/-- 43_scanner.md R215 and R216: the scanner's loop, with its checks in order, without the bound on its rounds that makes the
model's recursion structural. -/
def Obligations.ScannerFollowsItsLoop : Prop :=
  ∀ (c : Params) (rs : RuleSet) (buf : List Byte) (pos fin : Nat),
    scanElements c buf pos fin rs =
      if pos < fin then
        match hdrDecode buf pos fin with
        | none => .error .malformedHeader
        | some h =>
          if pos + h.n + h.length > fin then .error .truncated
          else
            match checkElement c rs h.typ h.length with
            | some code => .error code
            | none =>
              (scanElements c buf (pos + h.n + h.length) fin rs).map
                (fun es => { typ := h.typ, length := h.length, n := h.n, voff := pos + h.n } :: es)
      else .ok []

/-- A successful scan's elements lie back to back and fill the stream exactly (43_scanner.md R215; 30_encoding.md R134). -/
def Obligations.ScannedElementsFillTheStream : Prop :=
  ∀ (c : Params) (rs : RuleSet) (buf : List Byte) (start fin : Nat) (es : List Entry), start ≤ fin →
    scanElements c buf start fin rs = .ok es →
    (es.map (fun e => e.n + e.length)).sum = fin - start ∧
    (∀ (k : Nat) (e : Entry), es[k]? = some e →
      e.voff = start + ((es.take k).map (fun e => e.n + e.length)).sum + e.n ∧
      hdrDecode buf (e.voff - e.n) fin = some { typ := e.typ, length := e.length, n := e.n } ∧
      e.voff + e.length ≤ fin ∧ checkElement c rs e.typ e.length = none)

/-- 43_scanner.md R220, with the common check of 40_lifecycle.md R162: SCAN completes on all operands. -/
def Obligations.ScanOutcome : Prop :=
  ∀ s : State, ∃ t, exec .scan s = .next t ∧
    Commits s t
      (if s.latch.inLen.toNat > 512 then .fail .invalidArgument 0
       else if s.latch.arg1.toNat ≥ 2 then .fail .invalidArgument 0
       else if s.latch.arg0.toNat > s.latch.inLen.toNat then .fail .invalidArgument 0
       else
         match scanElements s.cfg (Memory.bytes s.mem 0x400 s.latch.inLen.toNat) s.latch.arg0.toNat s.latch.inLen.toNat
             (if s.latch.arg1 = 1 then .inner else .plain) with
         | .error code => .fail code 0
         | .ok es => .ok (es.flatMap entryBytes) es.length s.latch.inLen.toNat 0 0)

/-- 43_scanner.md R221: where each field of entry `k` of a committed table stands in `OBUF`. -/
def Obligations.ScanTableEntryLayout : Prop :=
  ∀ (s t : State) (es : List Entry) (k : Nat) (e : Entry),
    inLen s ≤ 512 → s.latch.arg1.toNat < 2 → s.latch.arg0.toNat ≤ inLen s →
    scanElements s.cfg (inputBytes s) s.latch.arg0.toNat (inLen s) (if s.latch.arg1 = 1 then .inner else .plain) = .ok es →
    exec .scan s = .next t → es[k]? = some e →
    let b (j : Nat) : Nat := (Memory.read t.mem (0x1000 + 8 * k + j)).toNat
    b 0 + 256 * b 1 + 65536 * b 2 + 16777216 * b 3 = e.typ ∧ e.typ < 2 ^ 21 ∧
    b 4 = e.length ∧ b 5 = e.n ∧ b 6 + 256 * b 7 = e.voff ∧ e.length ≤ 127 ∧ 1 ≤ e.n ∧ e.n ≤ 4

/-- 40_lifecycle.md R163: every word that is not one of the seven command words is an illegal instruction, and every illegal
instruction completes with ILLEGAL_COMMAND, whatever the operands. -/
def Obligations.IllegalCommandOutcome : Prop :=
  (∀ w : Word, ¬IsCommandWord w → IsIllegal (decodeCommand w)) ∧
  (∀ w : Word, IsCommandWord w → ¬IsIllegal (decodeCommand w)) ∧
  ∀ (s : State) (i : Instr), IsIllegal i → ∃ t, exec i s = .next t ∧ CommitsFail s t .illegalCommand 0

/-- 40_lifecycle.md R162: the two common checks, in their order, before anything else of a command. -/
def Obligations.CommonChecksComeFirst : Prop :=
  ∀ (s : State) (w : Word), s.work.pos = .start →
    (¬IsCommandWord w → ∃ t, exec (decodeCommand w) s = .next t ∧ CommitsFail s t .illegalCommand 0) ∧
    (IsCommandWord w → inLen s > 512 → ∃ t, exec (decodeCommand w) s = .next t ∧ CommitsFail s t .invalidArgument 0)

/-! ## The frame commands -/

/-- The whole run of ADV_BUILD, with its requests answered in turn, commits the outcome of the pseudocode of 44_adv_build.md
R236. The list of events that brings the run's steps is the model's choice (log 1). -/
def Obligations.BuildRunCommitsItsPseudocode : Prop :=
  ∀ (s : State) (rn re rs : Response), Accepted s → fetchCommand s = .advBuild →
    rn.data.length ≤ 255 → re.data.length ≤ 255 → rs.data.length ≤ 255 →
    ∃ t, servedRun [rn, re, rs] s = .next t ∧ Commits { s with events := [] } t (buildResult s rn re rs)

/-- The whole run of ADV_PARSE, with its requests answered in turn, commits the outcome of the pseudocode of 45_adv_parse.md
R261. The list of events that brings the run's steps is the model's choice (log 1). -/
def Obligations.ParseRunCommitsItsPseudocode : Prop :=
  ∀ (s : State) (rn rd rh rv : Response), Accepted s → fetchCommand s = .advParse →
    rn.data.length ≤ 255 → rd.data.length ≤ 255 → rh.data.length ≤ 255 → rv.data.length ≤ 255 →
    ∃ t, servedRun [rn, rd, rh, rv] s = .next t ∧ Commits { s with events := [] } t (parseResult s rn rd rh rv)

/-- The first step of both frame commands, up to the nonce request, with the offset for the extended salt only. ADV_BUILD
(44_adv_build.md R236 steps 1 and 2, R238, R239) keeps the leading element that it builds. ADV_PARSE (45_adv_parse.md R261
steps 1 to 3, R262-R264) keeps the leading element's bytes as observed, canonical or not. -/
def Obligations.FrameCommandsAskForTheirNonce : Prop :=
  (∀ s : State, s.work.pos = .start → inLen s ≤ 512 → s.latch.arg0.toNat = s.cfg.supportedVersion →
    (s.latch.arg1 = 2 → ∃ t, exec .advBuild s = .next t ∧
      Requests s t (.nonce (Memory.bytes s.mem 0x120 2) none) ∧ t.work.pos = .nonce ∧
      t.work.lead = hdrEncode s.cfg.tSalt 2 ++ Memory.bytes s.mem 0x120 2) ∧
    (s.latch.arg1 = 16 → ∃ t, exec .advBuild s = .next t ∧
      Requests s t (.nonce (Memory.bytes s.mem 0x120 16) (some s.cfg.nonceOffset)) ∧ t.work.pos = .nonce ∧
      t.work.lead =
        hdrEncode s.cfg.tEi 17 ++ BitVec.ofNat 8 (s.cfg.schemeMic % 16 * 8) :: Memory.bytes s.mem 0x120 16)) ∧
  ∀ (s : State) (h : Header), s.work.pos = .start → 2 ≤ inLen s → inLen s ≤ 257 →
    (byteAt (inputBytes s) 0).toNat / 32 = s.cfg.supportedVersion →
    (s.latch.enf = true → (byteAt (inputBytes s) 1).toNat = inLen s - 2) →
    hdrDecode (inputBytes s) 2 (inLen s) = some h → 2 + h.n + h.length ≤ inLen s →
    (h.typ = s.cfg.tSalt → h.length = 2 → ∃ t, exec .advParse s = .next t ∧
      Requests s t (.nonce (slice (inputBytes s) (2 + h.n) (4 + h.n)) none) ∧ t.work.pos = .nonce ∧
      t.work.lead = slice (inputBytes s) 2 (4 + h.n) ∧
      t.work.salt = slice (inputBytes s) (2 + h.n) (4 + h.n) ∧ t.work.cursor = 4 + h.n) ∧
    (h.typ ≠ s.cfg.tSalt → h.typ = s.cfg.tEi → h.length = 17 →
      let scheme := (byteAt (inputBytes s) (2 + h.n)).toNat / 8 % 16
      scheme = s.cfg.schemeMic ∨ scheme = s.cfg.schemeSignature → ∃ t, exec .advParse s = .next t ∧
        Requests s t (.nonce (slice (inputBytes s) (3 + h.n) (19 + h.n)) (some s.cfg.nonceOffset)) ∧ t.work.pos = .nonce ∧
        t.work.lead = slice (inputBytes s) 2 (19 + h.n) ∧
        t.work.salt = slice (inputBytes s) (3 + h.n) (19 + h.n) ∧ t.work.cursor = 19 + h.n)

/-- ADV_BUILD's last step (44_adv_build.md R236 steps 6 and 7, R245; 20_memory.md R110): with a tag of SIG_LEN bytes the command
commits the frame built so far and the tag, and with any other answer it fails at step 6. -/
def Obligations.BuildCompletesWithItsTag : Prop :=
  ∀ (s : State) (r : Response), s.work.pos = .sign → s.work.answer = some r →
    ∃ t, exec .advBuild s = .next t ∧
      Commits s t
        (if r.ok = true ∧ r.data.length = s.cfg.sigLen then
          .ok (s.work.out ++ r.data)
            (s.work.lead.length + s.work.idh.length + s.work.ciphertext.length + s.cfg.sigLen) 0 0 0
         else .fail .cryptorFailure 6)

/-- ADV_PARSE's last step (45_adv_parse.md R261 steps 7 to 9, R268-R271; 20_memory.md R111): a tag that does not verify fails
the command at step 7, whatever the data of the answer; with a verified tag, an inner element that the scan refuses fails it at
step 8 or 9, and otherwise the command commits the bytes kept so far, the action values and the data elements. (That the bytes
kept so far are identity and salt is ParseRunCommitsItsPseudocode, over the whole run.) -/
def Obligations.ParseEndsWithItsVerification : Prop :=
  ∀ (s : State) (r : Response), s.work.pos = .verify → s.work.answer = some r →
    (r.ok = false → ∃ t, exec .advParse s = .next t ∧ CommitsFail s t .authenticationMismatch 7) ∧
    (∀ code, r.ok = true → scanElements s.cfg s.work.plaintext 16 s.work.plaintext.length .inner = .error code →
      ∃ t, exec .advParse s = .next t ∧ CommitsFail s t code (if code = .invalidActionLength then 9 else 8)) ∧
    ∀ es : List Entry, r.ok = true →
      scanElements s.cfg s.work.plaintext 16 s.work.plaintext.length .inner = .ok es →
      ∃ t, exec .advParse s = .next t ∧
        CommitsOk s t
          (s.work.out ++ (es.filter (fun e => e.typ = s.cfg.tAction)).map (fun e => byteAt s.work.plaintext e.voff) ++
            (es.filter (fun e => e.typ ≠ s.cfg.tAction)).flatMap
              (fun e => slice s.work.plaintext (e.voff - e.n) (e.voff + e.length)))
          ((byteAt (inputBytes s) 0).toNat / 32) s.work.idType
          (s.work.salt.length + (es.filter (fun e => e.typ = s.cfg.tAction)).length * 256 +
            (es.filter (fun e => e.typ ≠ s.cfg.tAction)).length * 65536)
          ((es.filter (fun e => e.typ ≠ s.cfg.tAction)).map (fun e => e.n + e.length)).sum

/-- 20_memory.md R107: a nonce that is refused or too long fails the command, ADV_BUILD at step 2 and ADV_PARSE at step 3; any other
nonce is kept as it came. With it, and where its later checks pass, ADV_BUILD asks for the encryption of identity, action elements
and extras (44_adv_build.md R240, R241), and ADV_PARSE for the decryption of the bytes between identity header and tag
(45_adv_parse.md R265, R266), both under KEY (20_memory.md R103). -/
def Obligations.NonceAnswerIsClassified : Prop :=
  ∀ (s : State) (r : Response), s.work.pos = .nonce → s.work.answer = some r →
    let nA := s.latch.arg3.toNat
    let key := Memory.bytes s.mem 0x100 16
    let pt := Memory.bytes s.mem 0x110 16 ++
      ((inputBytes s).take nA).flatMap (fun a => hdrEncode s.cfg.tAction 1 ++ [a]) ++ (inputBytes s).drop nA
    (r.ok = false ∨ r.data.length > 32 →
      (∃ t, exec .advBuild s = .next t ∧ CommitsFail s t .cryptorFailure 2) ∧
      (∃ t, exec .advParse s = .next t ∧ CommitsFail s t .cryptorFailure 3)) ∧
    (r.ok = true ∧ r.data.length ≤ 32 →
      (∃ t, exec .advBuild s = .next t ∧ ¬CommitsFail s t .cryptorFailure 2 ∧
        (t.phase = .wait ↔ s.latch.arg2.toNat ∈ s.cfg.identityTypes ∧ nA ≤ inLen s ∧
          (∃ es, scanElements s.cfg (inputBytes s) nA (inLen s) .extras = .ok es) ∧ pt.length ≤ 255) ∧
        (t.phase = .wait → Requests s t (.encrypt pt r.data key) ∧ t.work.nonce = r.data ∧
          t.work.idh = hdrEncode s.latch.arg2.toNat 16 ∧ t.work.lead = s.work.lead)) ∧
      (∃ t, exec .advParse s = .next t ∧ ¬CommitsFail s t .cryptorFailure 3 ∧
        (t.phase = .wait ↔ ∃ h, hdrDecode (inputBytes s) s.work.cursor (inLen s) = some h ∧
          h.typ ∈ s.cfg.identityTypes ∧ h.length = 16 ∧ s.cfg.sigLen ≤ inLen s - (s.work.cursor + h.n)) ∧
        ∀ h, hdrDecode (inputBytes s) s.work.cursor (inLen s) = some h → t.phase = .wait →
          let ct := slice (inputBytes s) (s.work.cursor + h.n) (inLen s - s.cfg.sigLen)
          Requests s t (.decrypt ct r.data key) ∧ t.work.nonce = r.data ∧ t.work.ciphertext = ct ∧
          t.work.tag = slice (inputBytes s) (inLen s - s.cfg.sigLen) (inLen s) ∧
          t.work.idh = slice (inputBytes s) s.work.cursor (s.work.cursor + h.n) ∧ t.work.lead = s.work.lead))

/-- 20_memory.md R108: a refused encryption fails ADV_BUILD; any other answer is the ciphertext, of whatever length, and the
section length alone decides what follows (44_adv_build.md R242). The string to be signed is the one of R243: protocol constant,
header byte, section length, leading element, nonce, identity header and ciphertext, and the frame built so far goes from the header
byte to the ciphertext without the nonce (R245). -/
def Obligations.EncryptAnswerIsClassified : Prop :=
  ∀ (s : State) (r : Response), s.work.pos = .encrypt → s.work.answer = some r →
    let len := s.work.lead.length + s.work.idh.length + r.data.length + s.cfg.sigLen
    let head := [BitVec.ofNat 8 (s.cfg.supportedVersion * 32), BitVec.ofNat 8 len] ++ s.work.lead
    ∃ t, exec .advBuild s = .next t ∧
      if r.ok = false then CommitsFail s t .cryptorFailure 4
      else if len > 255 then CommitsFail s t .sectionTooLarge 5
      else
        Requests s t
          (.sign (s.cfg.protoConst ++ head ++ s.work.nonce ++ s.work.idh ++ r.data) (Memory.bytes s.mem 0x100 16)) ∧
        t.work.ciphertext = r.data ∧ t.work.out = head ++ s.work.idh ++ r.data

/-- 20_memory.md R109: a refused decryption fails ADV_PARSE; any other answer is the plaintext, and one without a whole identity
fails at step 6 (45_adv_parse.md R267). -/
def Obligations.DecryptAnswerIsClassified : Prop :=
  ∀ (s : State) (r : Response), s.work.pos = .decrypt → s.work.answer = some r →
    ∃ t, exec .advParse s = .next t ∧
      if r.ok = false then CommitsFail s t .decryptionFailure 5
      else if r.data.length < 16 then CommitsFail s t .truncated 6
      else t.work.plaintext = r.data ∧ Requests s t (.hash (r.data.take 16) (Memory.bytes s.mem 0x100 16))

/-- 20_memory.md R112 and 45_adv_parse.md R267: identity binding, before the tag is verified. The string whose tag is then checked is
the one of R243 and R268, from the bytes observed. -/
def Obligations.IdentityIsBoundBeforeTheTagIsVerified : Prop :=
  ∀ (s : State) (r : Response), s.work.pos = .hash → s.work.answer = some r →
    ∃ t, exec .advParse s = .next t ∧
      if r.ok = false ∨ r.data.length ≠ s.cfg.mktagLen then CommitsFail s t .cryptorFailure 6
      else if r.data ≠ Memory.bytes s.mem 0x140 s.cfg.mktagLen then CommitsFail s t .authenticationMismatch 6
      else
        Requests s t
          (.verify
            (s.cfg.protoConst ++ [byteAt (inputBytes s) 0] ++ [byteAt (inputBytes s) 1] ++ s.work.lead ++ s.work.nonce ++
              s.work.idh ++ s.work.ciphertext)
            (Memory.bytes s.mem 0x100 16) s.work.tag)

/-- 20_memory.md R105: which request a command's step may issue, at each position, and that no other command issues one. -/
def Obligations.RequestsComeInTheirOrder : Prop :=
  ∀ (i : Instr) (s t : State) (r : Request), i.position = .command → exec i s = .next t → t.phase = .wait →
    t.pending = some r →
    (i = .advBuild ∧ (s.work.pos, positionAfter r) ∈
      [(Position.start, Position.nonce), (.nonce, .encrypt), (.encrypt, .sign)]) ∨
    (i = .advParse ∧ (s.work.pos, positionAfter r) ∈
      [(Position.start, Position.nonce), (.nonce, .decrypt), (.decrypt, .hash), (.hash, .verify)])

/-- 45_adv_parse.md R272, the round trip: a frame that ADV_BUILD made, parsed with the same key and with the expected tag of the
identity, under an honest Cryptor, gives back identity, salt, actions and extras, the identity type and the salt length.
The list of events that brings the runs' steps is the model's choice (log 1). -/
def Obligations.BuildThenParseRoundTrip : Prop :=
  ∀ (cry : Cryptor) (s t u : State), HonestCryptor s.cfg cry → s.cfg.wf →
    s.phase = .idle → s.pending = none → u.phase = .idle → u.pending = none → u.cfg = s.cfg →
    runWith cry 7 (accept 6 s) = .next t → t.status.done = true →
    u.inLen.toNat = t.outLen.toNat →
    (∀ k, k < t.outLen.toNat → Memory.read u.mem (0x400 + k) = Memory.read t.mem (0x1000 + k)) →
    (∀ k, k < 16 → Memory.read u.mem (0x100 + k) = Memory.read s.mem (0x100 + k)) →
    Memory.bytes u.mem 0x140 s.cfg.mktagLen = (cry (.hash (Memory.bytes s.mem 0x110 16) (Memory.bytes s.mem 0x100 16))).data →
    ∃ v, runWith cry 9 (accept 7 u) = .next v ∧ v.status.done = true ∧ v.phase = .idle ∧
      ObufHolds v (Memory.bytes s.mem 0x110 16 ++ Memory.bytes s.mem 0x120 s.arg1.toNat ++ Memory.bytes s.mem 0x400 s.inLen.toNat) ∧
      v.outLen.toNat = 16 + s.arg1.toNat + s.inLen.toNat ∧
      v.res1 = s.arg2 ∧ v.res2.toNat % 256 = s.arg1.toNat

/-! ## The lifecycle and the whole machine -/

/-- 40_lifecycle.md R160 and R161: what a write to CMD does while no command runs. That the response to a write carries data 0
is the model's choice (log 2). -/
def Obligations.AcceptanceLatchesAndClears : Prop :=
  ∀ (s : State) (w : Word), s.status.busy = false → ∃ t,
    hostAccess (.write (s.cfg.base + 0x00C) .word w) s = .next t ∧
    t.bus = some { error := false, data := 0 } ∧
    t.status = { s.status with busy := true, done := false, err := false, errcode := 0, failStep := 0 } ∧
    t.res0 = 0 ∧ t.res1 = 0 ∧ t.res2 = 0 ∧ t.res3 = 0 ∧ t.outLen = 0 ∧ t.phase = .run ∧
    t.latch = { cmd := w, arg0 := s.arg0, arg1 := s.arg1, arg2 := s.arg2, arg3 := s.arg3, inLen := s.inLen,
                enf := s.ctrl.enforceSeclen } ∧
    t.mem = s.mem ∧ irq t = false ∧
    t.cfg = s.cfg ∧ t.arg0 = s.arg0 ∧ t.arg1 = s.arg1 ∧ t.arg2 = s.arg2 ∧ t.arg3 = s.arg3 ∧ t.inLen = s.inLen ∧
    t.ctrl = s.ctrl ∧ t.abandoned = s.abandoned ∧ t.pending = s.pending ∧ t.events = s.events

/-- Every command's step is a request, an `Ok` commit or a `Fail` commit (40_lifecycle.md R164, R166-R168). -/
def Obligations.CommandStepIsARequestOrACommit : Prop :=
  ∀ (i : Instr) (s t : State), i.position = .command → exec i s = .next t →
    (∃ r, Requests s t r) ∨ (∃ out r0 r1 r2 r3, CommitsOk s t out r0 r1 r2 r3) ∨ (∃ code k, CommitsFail s t code k)

/-- Fail-closed, as the host sees it (40_lifecycle.md R168; 10_state.md R40): after a step that ends a command with ERR, every read
of a result register, of OUT_LEN and of OBUF gives 0. -/
def Obligations.FailedCommandShowsNothing : Prop :=
  ∀ (i : Instr) (s t : State) (off : Nat) (w : Width), i.position = .command → exec i s = .next t →
    s.status.err = false → t.status.err = true →
    off = 0x014 ∨ 0x030 ≤ off ∧ off < 0x040 ∨ obufOff ≤ off ∧ off + widthBytes w ≤ windowSize →
    accessAllowed off w = true → readData t off w = 0

/-- The model's step runs the decoded instruction: where the next step runs one, the step is exec of it, on the state with the
event that brings the step taken off the list. The list of events, and the engine's move when it is empty, are the model's choice
(log 1), and so are header bytes as events (log 11). -/
def Obligations.StepRunsTheDecodedInstruction : Prop :=
  ∀ (s : State) (i : Instr), s.cfg.wf → nextInstr s = some i →
    Machine.step s = exec i { s with events := s.events.tail }

/-- A table word that is placed is the instruction that the next step runs (log 12, log 13). -/
def Obligations.PlacedTableWordIsRunNext : Prop :=
  ∀ (s : State) (nbits w : Nat) (i : Instr), s.cfg.wf → decodeTableWord nbits w = some i →
    nextInstr (s.withFetchWord nbits w) = some i ∧
    Machine.step (s.withFetchWord nbits w) =
      exec i { s.withFetchWord nbits w with events := s.events }

/-- Every invariant of Safety holds right after reset. The parameters, the latch, the working storage and the count of abandoned
requests are the model's choice there (log 5, 6, 8, 9), and the bound on NONCE_OFFSET is log 20's. -/
def Obligations.InvariantsHoldAtReset : Prop :=
  WindowsCanonical State.reset ∧ FlagsAgree State.reset ∧ OperandsHeld State.reset ∧ EngineInPlace State.reset ∧
  WithinLimits State.reset ∧ OutputBounded State.reset

/-- Every step keeps the windows' canonical form and keeps cells out of the reserved ranges (20_memory.md R82, R89). -/
def Obligations.WindowsStayCanonical : Prop :=
  ∀ s t : State, WindowsCanonical s → Machine.step s = .next t → WindowsCanonical t

/-- Every step keeps the flags in agreement with the engine phase and with each other (10_state.md R38-R43, R54, R56). -/
def Obligations.FlagsStayInAgreement : Prop :=
  ∀ s t : State, FlagsAgree s → Machine.step s = .next t → FlagsAgree t

/-- No step changes an operand register of the running command (20_memory.md R91, R98; 10_state.md R55). -/
def Obligations.OperandsStayHeldWhileBusy : Prop :=
  ∀ s t : State, FlagsAgree s → OperandsHeld s → Machine.step s = .next t → OperandsHeld t

/-- Every step keeps the engine at a position that its command has (10_state.md R31, R54, R56; 20_memory.md R105). -/
def Obligations.EngineStaysInPlace : Prop :=
  ∀ s t : State, EngineInPlace s → Machine.step s = .next t → EngineInPlace t

/-- Every step keeps the engine's strings and its requests within the limits of the port and the formats (20_memory.md R106). That
NONCE_OFFSET leaves a request room for the salt is read from that rule (DEDUCED, log 20). -/
def Obligations.RequestsStayWithinThePort : Prop :=
  ∀ s t : State, EngineInPlace s → WithinLimits s → Machine.step s = .next t → WithinLimits t

/-- Every step keeps OUT_LEN within OBUF, and OBUF zero at and past OUT_LEN between commands (10_state.md R46, R53). -/
def Obligations.OutputStaysBounded : Prop :=
  ∀ s t : State, EngineInPlace s → WithinLimits s → OutputBounded s → Machine.step s = .next t → OutputBounded t

/-- An engine in place never stops: its step, when it is its turn, answers a next state. In WAIT the engine has no step
(40_lifecycle.md R165), and none in IDLE. The turns are the model's choice (DESIGN CHOICE, log 1): that the engine moves when no
event is left, and that a turn of an engine that has no step uses up its event and leaves the rest of the state as it is. -/
def Obligations.EngineStepNeverStops : Prop :=
  ∀ s : State, s.cfg.wf → (s.events = [] ∨ s.events.head? = some .engine) →
    (EngineInPlace s → ∃ t, Machine.step s = .next t) ∧
    (s.phase = .wait ∨ s.phase = .idle → Machine.step s = .next { s with events := s.events.tail })

/-- 00_scope.md R10 and R11, 70_reset_and_hazards.md R330: with every request answered, every accepted command ends within five
engine steps and four answers, with exactly one of DONE and ERR set. The list of events that brings the run's steps is the
model's choice (log 1). -/
def Obligations.AnsweredCommandsEnd : Prop :=
  ∀ (s : State) (r1 r2 r3 r4 : Response), Accepted s → FlagsAgree s →
    r1.data.length ≤ 255 → r2.data.length ≤ 255 → r3.data.length ≤ 255 → r4.data.length ≤ 255 →
    ∃ t, servedRun [r1, r2, r3, r4] s = .next t ∧ t.phase = .idle ∧ t.status.busy = false ∧
      (t.status.done = true ∧ t.status.err = false ∨ t.status.done = false ∧ t.status.err = true) ∧
      (fetchCommand s ≠ .advParse → ∃ u, servedRun [r1, r2, r3] s = .next u ∧ u.phase = .idle) ∧
      (fetchCommand s ≠ .advParse → fetchCommand s ≠ .advBuild → ∃ u, servedRun [] s = .next u ∧ u.phase = .idle)

/-- Key secrecy (60_exceptions.md R303; 10_state.md R48, R49): two states that differ in the keys alone answer every host access
alike and stay so, and so do they under every command that asks the Cryptor nothing. -/
def Obligations.KeysAreNeverReadable : Prop :=
  ∀ s t : State, SameButKeys s t →
    (∀ a : HostAccess, OutcomesRelated SameButKeys (hostAccess a s) (hostAccess a t)) ∧
    (∀ i : Instr, i ≠ .advBuild → i ≠ .advParse → OutcomesRelated SameButKeys (exec i s) (exec i t))

/-- The latch and the working storage of an idle engine are unobservable (10_state.md R55, R57; 93_implementation_defined.md §3): no
event tells two states apart that differ in them alone, and acceptance makes them equal. What they hold is the model's choice
(log 8). -/
def Obligations.IdleHiddenStateIsUnobservable : Prop :=
  ∀ s t : State, s.phase = .idle → SameButHidden s t →
    (∀ e : Event, (∀ b, e ≠ .headerByte b) → OutcomesRelated SameButHidden (eventStep e s) (eventStep e t)) ∧
    ∀ w : Word, accept w s = accept w t

/-- No command reads IBUF at or past the latched IN_LEN or MKTAG at or past MKTAG_LEN (10_state.md R45, R51): two memories that
differ there alone give the same outcome, and differ there alone after it. -/
def Obligations.UnusedWindowBytesAreNeverRead : Prop :=
  ∀ (i : Instr) (s : State) (m' : Memory), s.cfg.wf → SameButUnused s s.mem m' →
    OutcomesRelated (fun t t' => SameButUnused s t.mem t'.mem ∧ { t with mem := [] } = { t' with mem := [] })
      (exec i s) (exec i { s with mem := m' })

/-! ## The host window -/

/-- 20_memory.md R83, R84 and R85: which accesses are allowed, and what becomes of the others. An allowed read answers the data of
R88, `readData`, on the bus, and changes nothing else. That the response to a write carries data 0 is the model's choice (log 2). -/
def Obligations.DisallowedAccessHasNoEffect : Prop :=
  ∀ (s : State) (off : Nat) (w : Width) (v : Word), off < 0x2000 →
    ((off < 0x100 → w = .word) ∧ off % widthBytes w = 0 →
      hostAccess (.read (s.cfg.base + off) w) s =
        .next { s with bus := some { error := false, data := readData s off w } } ∧
      (∃ t, hostAccess (.write (s.cfg.base + off) w v) s = .next t ∧ t.bus = some { error := false, data := 0 })) ∧
    (¬((off < 0x100 → w = .word) ∧ off % widthBytes w = 0) →
      hostAccess (.read (s.cfg.base + off) w) s = .next { s with bus := some { error := true, data := 0 } } ∧
      hostAccess (.write (s.cfg.base + off) w v) s = .next { s with bus := some { error := true, data := 0 } })

/-- A read changes nothing but the bus response (20_memory.md R88). An access to an address outside the window (R81) stops by
name, which is the model's choice (log 3). -/
def Obligations.ReadsChangeNothingAndOutsideAddressesStop : Prop :=
  (∀ (s t : State) (addr : Nat) (w : Width), hostAccess (.read addr w) s = .next t → t = { s with bus := t.bus }) ∧
  ∀ (s : State) (addr : Nat) (w : Width) (v : Word), addr < s.cfg.base ∨ s.cfg.base + 0x2000 ≤ addr →
    hostAccess (.read addr w) s = .fault .outsideWindow ∧ hostAccess (.write addr w v) s = .fault .outsideWindow

/-- 20_memory.md R91, the busy lock: while a command runs, an allowed write to a command input changes nothing but WERR and gets
OKAY; a write does not straddle windows; CTRL and STATUS are not locked. That the response to a write carries data 0 is the
model's choice (log 2). -/
def Obligations.BusyLockIgnoresInputWrites : Prop :=
  ∀ (s : State) (off : Nat) (w : Width) (v : Word), s.status.busy = true → off < 0x2000 → accessAllowed off w = true →
    (off = 0x00C ∨ off = 0x010 ∨ off = 0x020 ∨ off = 0x024 ∨ off = 0x028 ∨ off = 0x02C ∨
        0x100 ≤ off ∧ off < 0x130 ∨ 0x140 ≤ off ∧ off < 0x160 ∨ 0x400 ≤ off ∧ off < 0x600 →
      hostAccess (.write (s.cfg.base + off) w v) s =
        .next { s with
          status := { s.status with werr := true }, bus := some { error := false, data := 0 } }) ∧
    (∀ k, k < widthBytes w → regionOf (off + k) = regionOf off) ∧
    (off = 0x004 → v.getLsbD 2 = false →
      hostAccess (.write (s.cfg.base + off) w v) s =
        .next { s with
          ctrl := { ie := v.getLsbD 0, enforceSeclen := v.getLsbD 1 }, bus := some { error := false, data := 0 } }) ∧
    (off = 0x008 →
      hostAccess (.write (s.cfg.base + off) w v) s =
        .next { s with
          status := { s.status with
            done := s.status.done && !v.getLsbD 1, err := s.status.err && !v.getLsbD 2, werr := s.status.werr && !v.getLsbD 3 },
          bus := some { error := false, data := 0 } })

/-- 20_memory.md R92, result gating: results read 0 while a command runs, and the stored values otherwise. -/
def Obligations.ResultsAreGatedWhileBusy : Prop :=
  ∀ (s : State) (off : Nat) (w : Width), accessAllowed off w = true →
    (s.status.busy = true → off = 0x014 ∨ 0x030 ≤ off ∧ off < 0x040 ∨ 0x1000 ≤ off → readData s off w = 0) ∧
    (s.status.busy = false →
      (off = 0x030 → readData s off w = s.res0) ∧ (off = 0x034 → readData s off w = s.res1) ∧
      (off = 0x038 → readData s off w = s.res2) ∧ (off = 0x03C → readData s off w = s.res3) ∧
      (off = 0x014 → (readData s off w).toNat = s.outLen.toNat) ∧
      (0x1000 ≤ off → ∀ k, k < widthBytes w →
        (readData s off w).extractLsb' (8 * k) 8 = Memory.read s.mem (off + k)))

/-- 20_memory.md R86: in a readable and writable window, byte `off + k` is bits `8k + 7 : 8k` of the value read, busy or not
(R88), and of the value written; every byte outside the access keeps its value. That the response to a write carries data 0 is
the model's choice (log 2). -/
def Obligations.WindowAccessIsLittleEndian : Prop :=
  ∀ (s : State) (off : Nat) (w : Width) (v : Word), off < 0x2000 → accessAllowed off w = true →
    regionOf off = .salt ∨ regionOf off = .mktag ∨ regionOf off = .ibuf →
    (∀ k, k < 4 → (readData s off w).extractLsb' (8 * k) 8 =
      if k < widthBytes w then Memory.read s.mem (off + k) else 0) ∧
    (s.status.busy = false → ∃ t, hostAccess (.write (s.cfg.base + off) w v) s = .next t ∧
      (∀ k, k < widthBytes w → readData t (off + k) .byte = (v.extractLsb' (8 * k) 8).setWidth 32) ∧
      (∀ k, k < widthBytes w → (readData t off w).extractLsb' (8 * k) 8 = v.extractLsb' (8 * k) 8) ∧
      (∀ a, a < off ∨ off + widthBytes w ≤ a → Memory.read t.mem a = Memory.read s.mem a) ∧
      t = { s with mem := t.mem, bus := some { error := false, data := 0 } })

/-- KEY and IDKEY store what is written and read 0 (10_state.md R48, R49). That the response to a write carries data 0 is the
model's choice (log 2). -/
def Obligations.KeyWindowsStoreAndReadZero : Prop :=
  ∀ (s : State) (off : Nat) (w : Width) (v : Word), 0x100 ≤ off → off < 0x120 → accessAllowed off w = true →
    readData s off w = 0 ∧
    (s.status.busy = false → ∃ t, hostAccess (.write (s.cfg.base + off) w v) s = .next t ∧
      (∀ k, k < widthBytes w → Memory.read t.mem (off + k) = v.extractLsb' (8 * k) 8) ∧
      (∀ a, a < off ∨ off + widthBytes w ≤ a → Memory.read t.mem a = Memory.read s.mem a) ∧
      t = { s with mem := t.mem, bus := some { error := false, data := 0 } })

/-- IN_LEN keeps bits 9:0 and the ARG registers every bit of what is written; they read as stored, busy or not (10_state.md R32,
R45; 20_memory.md R88). That the response to a write carries data 0 is the model's choice (log 2). -/
def Obligations.OperandRegistersStoreWhatIsWritten : Prop :=
  ∀ (s : State) (v : Word),
    (s.status.busy = false →
      hostAccess (.write (s.cfg.base + 0x010) .word v) s =
        .next { s with inLen := v.extractLsb' 0 10, bus := some { error := false, data := 0 } } ∧
      hostAccess (.write (s.cfg.base + 0x020) .word v) s =
        .next { s with arg0 := v, bus := some { error := false, data := 0 } } ∧
      hostAccess (.write (s.cfg.base + 0x024) .word v) s =
        .next { s with arg1 := v, bus := some { error := false, data := 0 } } ∧
      hostAccess (.write (s.cfg.base + 0x028) .word v) s =
        .next { s with arg2 := v, bus := some { error := false, data := 0 } } ∧
      hostAccess (.write (s.cfg.base + 0x02C) .word v) s =
        .next { s with arg3 := v, bus := some { error := false, data := 0 } }) ∧
    (readData { s with inLen := v.extractLsb' 0 10 } 0x010 .word).toNat = v.toNat % 1024 ∧
    (readData s 0x010 .word).toNat = s.inLen.toNat ∧
    readData s 0x020 .word = s.arg0 ∧ readData s 0x024 .word = s.arg1 ∧
    readData s 0x028 .word = s.arg2 ∧ readData s 0x02C .word = s.arg3

/-- Writes to ID, OUT_LEN, RES0 to RES3, OBUF and every reserved location are ignored with OKAY (20_memory.md R89). In every
state ID reads its constant (10_state.md R34), and CMD, the reserved registers and the reserved ranges of the windows read 0
(R44, R47; 20_memory.md R88). That the response to a write carries data 0 is the model's choice (log 2). -/
def Obligations.ReadOnlyAndReservedLocationsActAsStated : Prop :=
  ∀ (s : State) (off : Nat) (w : Width) (v : Word), off < 0x2000 → accessAllowed off w = true →
    (off = 0x000 ∨ off = 0x014 ∨ off = 0x018 ∨ off = 0x01C ∨ 0x030 ≤ off ∧ off < 0x100 ∨ 0x130 ≤ off ∧ off < 0x140 ∨
        0x160 ≤ off ∧ off < 0x400 ∨ 0x600 ≤ off →
      hostAccess (.write (s.cfg.base + off) w v) s = .next { s with bus := some { error := false, data := 0 } }) ∧
    (off = 0x000 → hostAccess (.read (s.cfg.base + off) w) s =
      .next { s with bus := some { error := false, data := 0x544C5601 } }) ∧
    (off = 0x00C ∨ off = 0x018 ∨ off = 0x01C ∨ 0x040 ≤ off ∧ off < 0x100 ∨ 0x130 ≤ off ∧ off < 0x140 ∨
        0x160 ≤ off ∧ off < 0x400 ∨ 0x600 ≤ off ∧ off < 0x1000 →
      hostAccess (.read (s.cfg.base + off) w) s = .next { s with bus := some { error := false, data := 0 } })

/-- 10_state.md R36, a write to CTRL, busy or not: with bit 2 a soft reset that discards the other bits, and without it bits 1:0
are stored and nothing else changes. A write to STATUS, busy or not, clears each W1C bit written as 1 and changes nothing else
(R37); clearing ERR so is one of the two ways in which an error condition ends (60_exceptions.md R298). That the response to a
write carries data 0 is the model's choice (log 2). -/
def Obligations.ControlAndStatusWritesAct : Prop :=
  ∀ (s : State) (v : Word),
    (v.getLsbD 2 = true → ∃ t, hostAccess (.write (s.cfg.base + 0x004) .word v) s = .next t ∧
      t = { resetTlvc s with bus := some { error := false, data := 0 } } ∧ readData t 0x004 .word = 2) ∧
    (v.getLsbD 2 = false → hostAccess (.write (s.cfg.base + 0x004) .word v) s =
      .next { s with ctrl := { ie := v.getLsbD 0, enforceSeclen := v.getLsbD 1 }, bus := some { error := false, data := 0 } }) ∧
    hostAccess (.write (s.cfg.base + 0x008) .word v) s =
      .next { s with
        status := { s.status with
          done := s.status.done && !v.getLsbD 1, err := s.status.err && !v.getLsbD 2, werr := s.status.werr && !v.getLsbD 3 },
        bus := some { error := false, data := 0 } }

/-- The condition that the reset input and a soft reset leave, from every state (10_state.md §6, with the pending request of
§5). What the latch and the working storage hold is unspecified and not stated. The count of abandoned requests beside the
abandon epoch bit is the model's choice (log 9), and so are the fields `cfg` and `events`, which a reset keeps (log 5, log 1).
-/
def Obligations.ResetLeavesTheResetCondition : Prop :=
  ∀ (s t : State) (v : Word), v.getLsbD 2 = true →
    (eventStep .reset s = .next t ∨ hostAccess (.write (s.cfg.base + 0x004) .word v) s = .next t) →
    t.arg0 = 0 ∧ t.arg1 = 0 ∧ t.arg2 = 0 ∧ t.arg3 = 0 ∧ t.res0 = 0 ∧ t.res1 = 0 ∧ t.res2 = 0 ∧ t.res3 = 0 ∧
    readData t 0x000 .word = 0x544C5601 ∧ readData t 0x004 .word = 2 ∧ readData t 0x008 .word = 0 ∧
    t.status = { busy := false, done := false, err := false, werr := false, errcode := 0, failStep := 0 } ∧
    t.inLen = 0 ∧ t.outLen = 0 ∧ (∀ a, Memory.read t.mem a = 0) ∧ t.phase = .idle ∧ t.pending = none ∧
    t.epoch = (s.epoch ^^ s.pending.isSome) ∧ t.abandoned = s.abandoned + s.pending.isSome.toNat ∧
    irq t = false ∧ t.cfg = s.cfg ∧ t.events = s.events

/-- 20_memory.md R104 and R113: the answer to the pending request returns the engine to RUN and changes nothing else that the
TLVC shows; once a reset has abandoned the request, its answer is discarded whenever it arrives, after any run of any events. Nothing
but its answer or a reset ends the wait (40_lifecycle.md R165): every other step leaves the engine busy and waiting with its request,
and can change CTRL, WERR, the bus response and the header decoder's place alone. That an answer says how many requests had
been abandoned when its own was issued is the model's choice (log 9), and so are the list of events (log 1), the bus response as a
field (log 2) and the header decoder's place (log 11). -/
def Obligations.AnswersAreTakenOrDiscarded : Prop :=
  (∀ (s : State) (r : Response), s.phase = .wait → s.pending ≠ none → r.data.length ≤ 255 →
    eventStep (.cryptor s.abandoned r) s =
      .next { s with phase := .run, pending := none, work := { s.work with answer := some r } } ∧
    ∀ (n : Nat) (es : List Event) (t : State), runSteps n { resetTlvc s with events := es } = .next t →
      eventStep (.cryptor s.abandoned r) t = .next t) ∧
  ∀ s t : State, s.phase = .wait → FlagsAgree s → Machine.step s = .next t →
    (t.phase = .wait ∧ t.pending = s.pending ∧ t.status.busy = true ∧
      t = { s with
        ctrl := t.ctrl, status := { s.status with werr := t.status.werr }, bus := t.bus,
        work := { s.work with hdr := t.work.hdr }, events := s.events.tail }) ∨
    (∃ r es, s.events = .cryptor s.abandoned r :: es ∧
      t = { s with phase := .run, pending := none, work := { s.work with answer := some r }, events := es }) ∨
    ∃ es b, t = { resetTlvc s with events := es, bus := b } ∧
      (s.events = .reset :: es ∨
        ∃ v : Word, v.getLsbD 2 = true ∧ s.events = .host (.write (s.cfg.base + 0x004) .word v) :: es)

/-- The STATUS and CTRL words as the host reads them, field by field with the reserved bits 0 (10_state.md R35, R37), and the
interrupt output in terms of them, at every instant (R58). -/
def Obligations.FlagsReadInTheirPlacesAndDriveTheInterrupt : Prop :=
  ∀ s : State,
    (readData s 0x008 .word).toNat =
      s.status.busy.toNat + 2 * s.status.done.toNat + 4 * s.status.err.toNat + 8 * s.status.werr.toNat +
        2 ^ 8 * s.status.errcode.toNat + 2 ^ 16 * s.status.failStep.toNat ∧
    (readData s 0x004 .word).toNat = s.ctrl.ie.toNat + 2 * s.ctrl.enforceSeclen.toNat ∧
    (irq s = true ↔
      (readData s 0x004 .word).getLsbD 0 = true ∧
        ((readData s 0x008 .word).getLsbD 1 = true ∨ (readData s 0x008 .word).getLsbD 2 = true))
end

