-- ==== Sys2Proof/Laws/Memory.lean ====
section
/-! SUPPORT. What the memory operations read afterwards, and that each keeps the canonical form. -/

namespace Sys2Proof.Machine

open Sys2Proof

@[simp] theorem Memory.read_nil (a : Nat) : Memory.read [] a = 0 := rfl

theorem Memory.read_cons (x : Nat) (b : Byte) (m : Memory) (a : Nat) :
    Memory.read ((x, b) :: m) a = if x = a then b else Memory.read m a := rfl

theorem Memory.read_of_absent {m : Memory} {a : Nat} (h : ∀ c ∈ m, c.1 ≠ a) : Memory.read m a = 0 := by
  induction m with
  | nil => rfl
  | cons c m ih =>
    obtain ⟨x, b⟩ := c
    rw [Memory.read_cons, if_neg (h (x, b) (by simp)), ih (fun c hc => h c (by simp [hc]))]

theorem Memory.read_append (m₁ m₂ : Memory) (a : Nat) :
    Memory.read (m₁ ++ m₂) a = if ∃ c ∈ m₁, c.1 = a then Memory.read m₁ a else Memory.read m₂ a := by
  induction m₁ with
  | nil => simp
  | cons c m ih =>
    obtain ⟨x, b⟩ := c
    by_cases hx : x = a
    · simp [Memory.read_cons, hx]
    · simp only [List.cons_append, Memory.read_cons, hx, if_false, ih, List.mem_cons, exists_eq_or_imp, false_or]

theorem Memory.read_filter (m : Memory) (p : Nat → Bool) (a : Nat) :
    Memory.read (m.filter (fun c => p c.1)) a = if p a then Memory.read m a else 0 := by
  induction m with
  | nil => simp
  | cons c m ih =>
    obtain ⟨x, b⟩ := c
    by_cases hx : x = a
    · subst hx
      by_cases hp : p x <;> simp [hp, Memory.read_cons, ih]
    · by_cases hp : p x <;> simp [hp, Memory.read_cons, ih, hx]

theorem Memory.cells_cons_unlisted (lo : Nat) (bs : List Byte) :
    Memory.cells lo (unlistedByte :: bs) = Memory.cells (lo + 1) bs := if_pos rfl

theorem Memory.cells_cons_listed {b : Byte} (h : b ≠ unlistedByte) (lo : Nat) (bs : List Byte) :
    Memory.cells lo (b :: bs) = (lo, b) :: Memory.cells (lo + 1) bs := if_neg h

theorem Memory.cells_bounds {lo : Nat} {bs : List Byte} {c : Host.Cell} (h : c ∈ Memory.cells lo bs) :
    lo ≤ c.1 ∧ c.1 < lo + bs.length := by
  induction bs generalizing lo with
  | nil => simp [Memory.cells] at h
  | cons b bs ih =>
    simp only [Memory.cells] at h
    split at h
    · have := ih h; simp only [List.length_cons]; omega
    · rcases List.mem_cons.1 h with rfl | h
      · simp
      · have := ih h; simp only [List.length_cons]; omega

theorem Memory.read_cells (lo : Nat) (bs : List Byte) (a : Nat) :
    Memory.read (Memory.cells lo bs) a = if lo ≤ a then bs.getD (a - lo) 0 else 0 := by
  induction bs generalizing lo with
  | nil => simp [Memory.cells]
  | cons b bs ih =>
    by_cases ha : a = lo
    · subst ha
      by_cases hb : b = unlistedByte
      · rw [hb, Memory.cells_cons_unlisted, ih]; simp
      · rw [Memory.cells_cons_listed hb, Memory.read_cons]; simp
    · have hne : ¬ lo = a := fun h => ha h.symm
      have hcell : Memory.read (Memory.cells lo (b :: bs)) a = Memory.read (Memory.cells (lo + 1) bs) a := by
        by_cases hb : b = unlistedByte
        · rw [hb, Memory.cells_cons_unlisted]
        · rw [Memory.cells_cons_listed hb, Memory.read_cons, if_neg hne]
      rw [hcell, ih]
      by_cases hl : lo ≤ a
      · obtain ⟨k, rfl⟩ : ∃ k, a = lo + 1 + k := ⟨a - (lo + 1), by omega⟩
        simp only [Nat.le_add_right, if_true, hl]
        have h1 : lo + 1 + k - (lo + 1) = k := by omega
        have h2 : lo + 1 + k - lo = k + 1 := by omega
        simp [h1, h2]
      · have : ¬ lo + 1 ≤ a := by omega
        simp [hl, this]

/-- What a fill leaves: the new bytes inside the range, and every other byte as before. -/
theorem Memory.read_fill (m : Memory) (lo n : Nat) (bs : List Byte) (a : Nat) :
    Memory.read (Memory.fill m lo n bs) a =
      if lo ≤ a ∧ a < lo + n then bs.getD (a - lo) 0 else Memory.read m a := by
  have hlow : Memory.read (m.filter (fun c => c.1 < lo)) a = if a < lo then Memory.read m a else 0 := by
    have h := Memory.read_filter m (fun x => decide (x < lo)) a
    by_cases hl : a < lo <;> simpa [hl] using h
  have hhigh : Memory.read (m.filter (fun c => lo + n ≤ c.1)) a = if lo + n ≤ a then Memory.read m a else 0 := by
    have h := Memory.read_filter m (fun x => decide (lo + n ≤ x)) a
    by_cases hl : lo + n ≤ a <;> simpa [hl] using h
  unfold Memory.fill
  rw [Memory.read_append, Memory.read_append]
  by_cases ha : a < lo
  · have hc : ¬ ∃ c ∈ Memory.cells lo (bs.take n), c.1 = a := by
      rintro ⟨c, hc, rfl⟩; have := Memory.cells_bounds hc; omega
    have hh : Memory.read (m.filter (fun c => lo + n ≤ c.1)) a = 0 := by rw [hhigh, if_neg (by omega)]
    rw [if_neg (by omega : ¬ (lo ≤ a ∧ a < lo + n)), if_neg hc, hh, hlow, if_pos ha]
    split
    · rfl
    · rename_i hno
      exact (Memory.read_of_absent (fun c hc h => hno ⟨c, by simpa [h, ha] using hc, h⟩)).symm
  · have hl : ¬ ∃ c ∈ m.filter (fun c => c.1 < lo), c.1 = a := by
      rintro ⟨c, hc, rfl⟩; simp at hc; omega
    rw [if_neg hl]
    by_cases hr : a < lo + n
    · have hin : lo ≤ a ∧ a < lo + n := ⟨by omega, hr⟩
      rw [if_pos hin]
      have hget : (bs.take n).getD (a - lo) 0 = bs.getD (a - lo) 0 := by
        simp [List.getD_eq_getElem?_getD, (by omega : a - lo < n)]
      have hcell := Memory.read_cells lo (bs.take n) a
      rw [if_pos (by omega), hget] at hcell
      by_cases hc : ∃ c ∈ Memory.cells lo (bs.take n), c.1 = a
      · rw [if_pos hc, hcell]
      · rw [if_neg hc, hhigh, if_neg (by omega), ← hcell]
        exact (Memory.read_of_absent (fun c hc' h => hc ⟨c, hc', h⟩)).symm
    · have hc : ¬ ∃ c ∈ Memory.cells lo (bs.take n), c.1 = a := by
        rintro ⟨c, hc, rfl⟩
        have := Memory.cells_bounds hc
        simp only [List.length_take] at this
        omega
      rw [if_neg hc, hhigh, if_pos (by omega), if_neg (by omega)]

theorem Memory.read_store (m : Memory) (lo : Nat) (bs : List Byte) (a : Nat) :
    Memory.read (Memory.store m lo bs) a =
      if lo ≤ a ∧ a < lo + bs.length then bs.getD (a - lo) 0 else Memory.read m a :=
  Memory.read_fill m lo bs.length bs a

theorem Memory.cells_wf (lo : Nat) (bs : List Byte) : Memory.wf (Memory.cells lo bs) := by
  induction bs generalizing lo with
  | nil => simp [Memory.cells, Memory.wf]
  | cons b bs ih =>
    by_cases hb : b = unlistedByte
    · simpa [Memory.cells, hb] using ih (lo + 1)
    · obtain ⟨h1, h2⟩ := ih (lo + 1)
      simp only [Memory.cells, hb, if_false]
      refine ⟨List.pairwise_cons.2 ⟨fun c hc => ?_, h1⟩, ?_⟩
      · have := Memory.cells_bounds hc; show lo < c.1; omega
      · intro c hc
        rcases List.mem_cons.1 hc with rfl | hc
        · exact hb
        · exact h2 c hc

/-- Every cell of a fill is a cell of the memory before it outside the range, or a new cell inside it. -/
theorem Memory.mem_fill {m : Memory} {lo n : Nat} {bs : List Byte} {c : Host.Cell} (h : c ∈ Memory.fill m lo n bs) :
    c ∈ m ∨ lo ≤ c.1 ∧ c.1 < lo + n := by
  simp only [Memory.fill, List.mem_append, List.mem_filter] at h
  rcases h with h | h | h
  · exact .inl h.1
  · have := Memory.cells_bounds h
    simp only [List.length_take] at this
    exact .inr (by omega)
  · exact .inl h.1

/-- A fill keeps the canonical form. -/
theorem Memory.fill_wf {m : Memory} (h : Memory.wf m) (lo n : Nat) (bs : List Byte) : Memory.wf (Memory.fill m lo n bs) := by
  obtain ⟨hp, hz⟩ := h
  obtain ⟨hcp, hcz⟩ := Memory.cells_wf lo (bs.take n)
  have hb : ∀ c ∈ Memory.cells lo (bs.take n), lo ≤ c.1 ∧ c.1 < lo + n := fun c hc => by
    have := Memory.cells_bounds hc
    simp only [List.length_take] at this
    omega
  refine ⟨?_, ?_⟩
  · unfold Memory.fill
    refine List.pairwise_append.2 ⟨hp.filter _, List.pairwise_append.2 ⟨hcp, hp.filter _, ?_⟩, ?_⟩
    · intro c hc d hd
      have := hb c hc
      simp at hd
      omega
    · intro c hc d hd
      simp at hc
      rcases List.mem_append.1 hd with hd | hd
      · have := hb d hd; omega
      · simp at hd; omega
  · intro c hc
    simp only [Memory.fill, List.mem_append, List.mem_filter] at hc
    rcases hc with hc | hc | hc
    · exact hz c hc.1
    · exact hcz c hc
    · exact hz c hc.1

/-- A store keeps the canonical form. -/
theorem Memory.store_wf {m : Memory} (h : Memory.wf m) (lo : Nat) (bs : List Byte) : Memory.wf (Memory.store m lo bs) :=
  Memory.fill_wf h lo bs.length bs

/-- The memory of the reset state is in canonical form. -/
theorem reset_mem_wf : Memory.wf State.reset.mem := by
  show Memory.wf []
  simp [Memory.wf]

/-- Two memories in canonical form that read alike are equal. -/
theorem Memory.ext_of_wf {m₁ m₂ : Memory} (h₁ : Memory.wf m₁) (h₂ : Memory.wf m₂)
    (h : ∀ a, Memory.read m₁ a = Memory.read m₂ a) : m₁ = m₂ := by
  have absent : ∀ {x : Nat} {m : Memory} (_ : ∀ c ∈ m, x < c.1), Memory.read m x = 0 := fun hlt =>
    Memory.read_of_absent (fun c hc heq => absurd (hlt c hc) (by omega))
  induction m₁ generalizing m₂ with
  | nil =>
    cases m₂ with
    | nil => rfl
    | cons d m₂ =>
      obtain ⟨y, e⟩ := d
      have := h y
      simp only [Memory.read_nil, Memory.read_cons, if_true] at this
      exact absurd this.symm (h₂.2 (y, e) (by simp))
  | cons c m₁ ih =>
    obtain ⟨x, b⟩ := c
    have hp₁ := List.pairwise_cons.1 h₁.1
    have hb : b ≠ 0 := h₁.2 (x, b) (by simp)
    cases m₂ with
    | nil =>
      have := h x
      simp only [Memory.read_nil, Memory.read_cons, if_true] at this
      exact absurd this hb
    | cons d m₂ =>
      obtain ⟨y, e⟩ := d
      have hp₂ := List.pairwise_cons.1 h₂.1
      have he : e ≠ 0 := h₂.2 (y, e) (by simp)
      have hxy : x = y := by
        rcases Nat.lt_trichotomy x y with hlt | heq | hlt
        · have := h x
          rw [Memory.read_cons, if_pos rfl, absent (fun c hc => ?_)] at this
          · exact absurd this hb
          · rcases List.mem_cons.1 hc with rfl | hc
            · exact hlt
            · exact Nat.lt_trans hlt (hp₂.1 c hc)
        · exact heq
        · have := h y
          rw [Memory.read_cons (x := y), if_pos rfl, absent (fun c hc => ?_)] at this
          · exact absurd this.symm he
          · rcases List.mem_cons.1 hc with rfl | hc
            · exact hlt
            · exact Nat.lt_trans hlt (hp₁.1 c hc)
      subst hxy
      have hbe : b = e := by simpa [Memory.read_cons] using h x
      subst hbe
      have htail : m₁ = m₂ := by
        refine ih ⟨hp₁.2, fun c hc => h₁.2 c (by simp [hc])⟩ ⟨hp₂.2, fun c hc => h₂.2 c (by simp [hc])⟩ (fun a => ?_)
        by_cases ha : x = a
        · subst ha; rw [absent hp₁.1, absent hp₂.1]
        · simpa [Memory.read_cons, ha] using h a
      rw [htail]

@[simp] theorem Memory.bytes_length (m : Memory) (lo n : Nat) : (Memory.bytes m lo n).length = n := by
  simp [Memory.bytes]

/-- Byte `k` of a range that is read. -/
theorem Memory.bytes_getD (m : Memory) (lo n k : Nat) :
    (Memory.bytes m lo n).getD k 0 = if k < n then Memory.read m (lo + k) else 0 := by
  by_cases hk : k < n <;> simp [Memory.bytes, hk]

/-- A range reads alike from two memories that agree on it. -/
theorem Memory.bytes_congr {m₁ m₂ : Memory} {lo n : Nat}
    (h : ∀ k, k < n → Memory.read m₁ (lo + k) = Memory.read m₂ (lo + k)) : Memory.bytes m₁ lo n = Memory.bytes m₂ lo n := by
  simp only [Memory.bytes, List.map_inj_left, List.mem_range]
  exact h

/-- Reading back the bytes of a range that a fill wrote. -/
theorem Memory.bytes_fill (m : Memory) (lo n : Nat) (bs : List Byte) (h : bs.length ≤ n) :
    Memory.bytes (Memory.fill m lo n bs) lo bs.length = bs := by
  refine List.ext_getElem (by simp) (fun k h₁ h₂ => ?_)
  have hk : k < n := by simp at h₁; omega
  simp [Memory.bytes, Memory.read_fill, hk, h₂]

end Sys2Proof.Machine
end

