-- ==== Sys2Proof/Laws/State.lean ====
section
/-! SUPPORT. One lemma for each field of State under each named update of it, and the length of the open parameter. -/

namespace Sys2Proof.Machine

open Sys2Proof

/-- The open `NONCE_OFFSET` leaves a request room for the salt (log 20). -/
theorem openNonceOffset_length_le : Config.openNonceOffset.length ≤ nonceOffsetMax := by
  simpa [Config.openNonceOffset] using Nat.le_of_lt_succ Config.openNonceOffsetLength.isLt

/-! ### complete -/

@[simp] theorem complete_cfg (st : Status) (out : List Byte) (r0 r1 r2 r3 : Nat) (s : State) : (complete st out r0 r1 r2 r3 s).cfg = s.cfg := rfl
@[simp] theorem complete_arg0 (st : Status) (out : List Byte) (r0 r1 r2 r3 : Nat) (s : State) : (complete st out r0 r1 r2 r3 s).arg0 = s.arg0 := rfl
@[simp] theorem complete_arg1 (st : Status) (out : List Byte) (r0 r1 r2 r3 : Nat) (s : State) : (complete st out r0 r1 r2 r3 s).arg1 = s.arg1 := rfl
@[simp] theorem complete_arg2 (st : Status) (out : List Byte) (r0 r1 r2 r3 : Nat) (s : State) : (complete st out r0 r1 r2 r3 s).arg2 = s.arg2 := rfl
@[simp] theorem complete_arg3 (st : Status) (out : List Byte) (r0 r1 r2 r3 : Nat) (s : State) : (complete st out r0 r1 r2 r3 s).arg3 = s.arg3 := rfl
@[simp] theorem complete_res0 (st : Status) (out : List Byte) (r0 r1 r2 r3 : Nat) (s : State) : (complete st out r0 r1 r2 r3 s).res0 = wordOf r0 := rfl
@[simp] theorem complete_res1 (st : Status) (out : List Byte) (r0 r1 r2 r3 : Nat) (s : State) : (complete st out r0 r1 r2 r3 s).res1 = wordOf r1 := rfl
@[simp] theorem complete_res2 (st : Status) (out : List Byte) (r0 r1 r2 r3 : Nat) (s : State) : (complete st out r0 r1 r2 r3 s).res2 = wordOf r2 := rfl
@[simp] theorem complete_res3 (st : Status) (out : List Byte) (r0 r1 r2 r3 : Nat) (s : State) : (complete st out r0 r1 r2 r3 s).res3 = wordOf r3 := rfl
@[simp] theorem complete_ctrl (st : Status) (out : List Byte) (r0 r1 r2 r3 : Nat) (s : State) : (complete st out r0 r1 r2 r3 s).ctrl = s.ctrl := rfl
@[simp] theorem complete_status (st : Status) (out : List Byte) (r0 r1 r2 r3 : Nat) (s : State) : (complete st out r0 r1 r2 r3 s).status = st := rfl
@[simp] theorem complete_inLen (st : Status) (out : List Byte) (r0 r1 r2 r3 : Nat) (s : State) : (complete st out r0 r1 r2 r3 s).inLen = s.inLen := rfl
@[simp] theorem complete_outLen (st : Status) (out : List Byte) (r0 r1 r2 r3 : Nat) (s : State) : (complete st out r0 r1 r2 r3 s).outLen = BitVec.ofNat 13 out.length := rfl
@[simp] theorem complete_mem (st : Status) (out : List Byte) (r0 r1 r2 r3 : Nat) (s : State) : (complete st out r0 r1 r2 r3 s).mem = writeObuf s.mem out := rfl
@[simp] theorem complete_phase (st : Status) (out : List Byte) (r0 r1 r2 r3 : Nat) (s : State) : (complete st out r0 r1 r2 r3 s).phase = .idle := rfl
@[simp] theorem complete_latch (st : Status) (out : List Byte) (r0 r1 r2 r3 : Nat) (s : State) : (complete st out r0 r1 r2 r3 s).latch = Latch.empty := rfl
@[simp] theorem complete_pending (st : Status) (out : List Byte) (r0 r1 r2 r3 : Nat) (s : State) : (complete st out r0 r1 r2 r3 s).pending = none := rfl
@[simp] theorem complete_abandoned (st : Status) (out : List Byte) (r0 r1 r2 r3 : Nat) (s : State) : (complete st out r0 r1 r2 r3 s).abandoned = s.abandoned := rfl
@[simp] theorem complete_work (st : Status) (out : List Byte) (r0 r1 r2 r3 : Nat) (s : State) : (complete st out r0 r1 r2 r3 s).work = Work.empty := rfl
@[simp] theorem complete_events (st : Status) (out : List Byte) (r0 r1 r2 r3 : Nat) (s : State) : (complete st out r0 r1 r2 r3 s).events = s.events := rfl
@[simp] theorem complete_bus (st : Status) (out : List Byte) (r0 r1 r2 r3 : Nat) (s : State) : (complete st out r0 r1 r2 r3 s).bus = s.bus := rfl

/-! ### commitOk -/

@[simp] theorem commitOk_cfg (out : List Byte) (r0 r1 r2 r3 : Nat) (s : State) : (commitOk out r0 r1 r2 r3 s).cfg = s.cfg := rfl
@[simp] theorem commitOk_arg0 (out : List Byte) (r0 r1 r2 r3 : Nat) (s : State) : (commitOk out r0 r1 r2 r3 s).arg0 = s.arg0 := rfl
@[simp] theorem commitOk_arg1 (out : List Byte) (r0 r1 r2 r3 : Nat) (s : State) : (commitOk out r0 r1 r2 r3 s).arg1 = s.arg1 := rfl
@[simp] theorem commitOk_arg2 (out : List Byte) (r0 r1 r2 r3 : Nat) (s : State) : (commitOk out r0 r1 r2 r3 s).arg2 = s.arg2 := rfl
@[simp] theorem commitOk_arg3 (out : List Byte) (r0 r1 r2 r3 : Nat) (s : State) : (commitOk out r0 r1 r2 r3 s).arg3 = s.arg3 := rfl
@[simp] theorem commitOk_res0 (out : List Byte) (r0 r1 r2 r3 : Nat) (s : State) : (commitOk out r0 r1 r2 r3 s).res0 = wordOf r0 := rfl
@[simp] theorem commitOk_res1 (out : List Byte) (r0 r1 r2 r3 : Nat) (s : State) : (commitOk out r0 r1 r2 r3 s).res1 = wordOf r1 := rfl
@[simp] theorem commitOk_res2 (out : List Byte) (r0 r1 r2 r3 : Nat) (s : State) : (commitOk out r0 r1 r2 r3 s).res2 = wordOf r2 := rfl
@[simp] theorem commitOk_res3 (out : List Byte) (r0 r1 r2 r3 : Nat) (s : State) : (commitOk out r0 r1 r2 r3 s).res3 = wordOf r3 := rfl
@[simp] theorem commitOk_ctrl (out : List Byte) (r0 r1 r2 r3 : Nat) (s : State) : (commitOk out r0 r1 r2 r3 s).ctrl = s.ctrl := rfl
@[simp] theorem commitOk_status (out : List Byte) (r0 r1 r2 r3 : Nat) (s : State) : (commitOk out r0 r1 r2 r3 s).status = statusOk s.status := rfl
@[simp] theorem commitOk_inLen (out : List Byte) (r0 r1 r2 r3 : Nat) (s : State) : (commitOk out r0 r1 r2 r3 s).inLen = s.inLen := rfl
@[simp] theorem commitOk_outLen (out : List Byte) (r0 r1 r2 r3 : Nat) (s : State) : (commitOk out r0 r1 r2 r3 s).outLen = BitVec.ofNat 13 out.length := rfl
@[simp] theorem commitOk_mem (out : List Byte) (r0 r1 r2 r3 : Nat) (s : State) : (commitOk out r0 r1 r2 r3 s).mem = writeObuf s.mem out := rfl
@[simp] theorem commitOk_phase (out : List Byte) (r0 r1 r2 r3 : Nat) (s : State) : (commitOk out r0 r1 r2 r3 s).phase = .idle := rfl
@[simp] theorem commitOk_latch (out : List Byte) (r0 r1 r2 r3 : Nat) (s : State) : (commitOk out r0 r1 r2 r3 s).latch = Latch.empty := rfl
@[simp] theorem commitOk_pending (out : List Byte) (r0 r1 r2 r3 : Nat) (s : State) : (commitOk out r0 r1 r2 r3 s).pending = none := rfl
@[simp] theorem commitOk_abandoned (out : List Byte) (r0 r1 r2 r3 : Nat) (s : State) : (commitOk out r0 r1 r2 r3 s).abandoned = s.abandoned := rfl
@[simp] theorem commitOk_work (out : List Byte) (r0 r1 r2 r3 : Nat) (s : State) : (commitOk out r0 r1 r2 r3 s).work = Work.empty := rfl
@[simp] theorem commitOk_events (out : List Byte) (r0 r1 r2 r3 : Nat) (s : State) : (commitOk out r0 r1 r2 r3 s).events = s.events := rfl
@[simp] theorem commitOk_bus (out : List Byte) (r0 r1 r2 r3 : Nat) (s : State) : (commitOk out r0 r1 r2 r3 s).bus = s.bus := rfl

/-! ### commitFail -/

@[simp] theorem commitFail_cfg (code : ErrorCode) (step : Nat) (s : State) : (commitFail code step s).cfg = s.cfg := rfl
@[simp] theorem commitFail_arg0 (code : ErrorCode) (step : Nat) (s : State) : (commitFail code step s).arg0 = s.arg0 := rfl
@[simp] theorem commitFail_arg1 (code : ErrorCode) (step : Nat) (s : State) : (commitFail code step s).arg1 = s.arg1 := rfl
@[simp] theorem commitFail_arg2 (code : ErrorCode) (step : Nat) (s : State) : (commitFail code step s).arg2 = s.arg2 := rfl
@[simp] theorem commitFail_arg3 (code : ErrorCode) (step : Nat) (s : State) : (commitFail code step s).arg3 = s.arg3 := rfl
@[simp] theorem commitFail_res0 (code : ErrorCode) (step : Nat) (s : State) : (commitFail code step s).res0 = 0 := rfl
@[simp] theorem commitFail_res1 (code : ErrorCode) (step : Nat) (s : State) : (commitFail code step s).res1 = 0 := rfl
@[simp] theorem commitFail_res2 (code : ErrorCode) (step : Nat) (s : State) : (commitFail code step s).res2 = 0 := rfl
@[simp] theorem commitFail_res3 (code : ErrorCode) (step : Nat) (s : State) : (commitFail code step s).res3 = 0 := rfl
@[simp] theorem commitFail_ctrl (code : ErrorCode) (step : Nat) (s : State) : (commitFail code step s).ctrl = s.ctrl := rfl
@[simp] theorem commitFail_status (code : ErrorCode) (step : Nat) (s : State) : (commitFail code step s).status = statusFail code step s.status := rfl
@[simp] theorem commitFail_inLen (code : ErrorCode) (step : Nat) (s : State) : (commitFail code step s).inLen = s.inLen := rfl
@[simp] theorem commitFail_outLen (code : ErrorCode) (step : Nat) (s : State) : (commitFail code step s).outLen = 0 := rfl
@[simp] theorem commitFail_mem (code : ErrorCode) (step : Nat) (s : State) : (commitFail code step s).mem = writeObuf s.mem [] := rfl
@[simp] theorem commitFail_phase (code : ErrorCode) (step : Nat) (s : State) : (commitFail code step s).phase = .idle := rfl
@[simp] theorem commitFail_latch (code : ErrorCode) (step : Nat) (s : State) : (commitFail code step s).latch = Latch.empty := rfl
@[simp] theorem commitFail_pending (code : ErrorCode) (step : Nat) (s : State) : (commitFail code step s).pending = none := rfl
@[simp] theorem commitFail_abandoned (code : ErrorCode) (step : Nat) (s : State) : (commitFail code step s).abandoned = s.abandoned := rfl
@[simp] theorem commitFail_work (code : ErrorCode) (step : Nat) (s : State) : (commitFail code step s).work = Work.empty := rfl
@[simp] theorem commitFail_events (code : ErrorCode) (step : Nat) (s : State) : (commitFail code step s).events = s.events := rfl
@[simp] theorem commitFail_bus (code : ErrorCode) (step : Nat) (s : State) : (commitFail code step s).bus = s.bus := rfl

/-! ### issueRequest -/

@[simp] theorem issueRequest_cfg (r : Request) (w : Work) (s : State) : (issueRequest r w s).cfg = s.cfg := rfl
@[simp] theorem issueRequest_arg0 (r : Request) (w : Work) (s : State) : (issueRequest r w s).arg0 = s.arg0 := rfl
@[simp] theorem issueRequest_arg1 (r : Request) (w : Work) (s : State) : (issueRequest r w s).arg1 = s.arg1 := rfl
@[simp] theorem issueRequest_arg2 (r : Request) (w : Work) (s : State) : (issueRequest r w s).arg2 = s.arg2 := rfl
@[simp] theorem issueRequest_arg3 (r : Request) (w : Work) (s : State) : (issueRequest r w s).arg3 = s.arg3 := rfl
@[simp] theorem issueRequest_res0 (r : Request) (w : Work) (s : State) : (issueRequest r w s).res0 = s.res0 := rfl
@[simp] theorem issueRequest_res1 (r : Request) (w : Work) (s : State) : (issueRequest r w s).res1 = s.res1 := rfl
@[simp] theorem issueRequest_res2 (r : Request) (w : Work) (s : State) : (issueRequest r w s).res2 = s.res2 := rfl
@[simp] theorem issueRequest_res3 (r : Request) (w : Work) (s : State) : (issueRequest r w s).res3 = s.res3 := rfl
@[simp] theorem issueRequest_ctrl (r : Request) (w : Work) (s : State) : (issueRequest r w s).ctrl = s.ctrl := rfl
@[simp] theorem issueRequest_status (r : Request) (w : Work) (s : State) : (issueRequest r w s).status = s.status := rfl
@[simp] theorem issueRequest_inLen (r : Request) (w : Work) (s : State) : (issueRequest r w s).inLen = s.inLen := rfl
@[simp] theorem issueRequest_outLen (r : Request) (w : Work) (s : State) : (issueRequest r w s).outLen = s.outLen := rfl
@[simp] theorem issueRequest_mem (r : Request) (w : Work) (s : State) : (issueRequest r w s).mem = s.mem := rfl
@[simp] theorem issueRequest_phase (r : Request) (w : Work) (s : State) : (issueRequest r w s).phase = .wait := rfl
@[simp] theorem issueRequest_latch (r : Request) (w : Work) (s : State) : (issueRequest r w s).latch = s.latch := rfl
@[simp] theorem issueRequest_pending (r : Request) (w : Work) (s : State) : (issueRequest r w s).pending = some r := rfl
@[simp] theorem issueRequest_abandoned (r : Request) (w : Work) (s : State) : (issueRequest r w s).abandoned = s.abandoned := rfl
@[simp] theorem issueRequest_work (r : Request) (w : Work) (s : State) : (issueRequest r w s).work = { w with answer := none } := rfl
@[simp] theorem issueRequest_events (r : Request) (w : Work) (s : State) : (issueRequest r w s).events = s.events := rfl
@[simp] theorem issueRequest_bus (r : Request) (w : Work) (s : State) : (issueRequest r w s).bus = s.bus := rfl

/-! ### accept -/

@[simp] theorem accept_cfg (w : Word) (s : State) : (accept w s).cfg = s.cfg := rfl
@[simp] theorem accept_arg0 (w : Word) (s : State) : (accept w s).arg0 = s.arg0 := rfl
@[simp] theorem accept_arg1 (w : Word) (s : State) : (accept w s).arg1 = s.arg1 := rfl
@[simp] theorem accept_arg2 (w : Word) (s : State) : (accept w s).arg2 = s.arg2 := rfl
@[simp] theorem accept_arg3 (w : Word) (s : State) : (accept w s).arg3 = s.arg3 := rfl
@[simp] theorem accept_res0 (w : Word) (s : State) : (accept w s).res0 = 0 := rfl
@[simp] theorem accept_res1 (w : Word) (s : State) : (accept w s).res1 = 0 := rfl
@[simp] theorem accept_res2 (w : Word) (s : State) : (accept w s).res2 = 0 := rfl
@[simp] theorem accept_res3 (w : Word) (s : State) : (accept w s).res3 = 0 := rfl
@[simp] theorem accept_ctrl (w : Word) (s : State) : (accept w s).ctrl = s.ctrl := rfl
@[simp] theorem accept_status (w : Word) (s : State) : (accept w s).status = statusAccept s.status := rfl
@[simp] theorem accept_inLen (w : Word) (s : State) : (accept w s).inLen = s.inLen := rfl
@[simp] theorem accept_outLen (w : Word) (s : State) : (accept w s).outLen = 0 := rfl
@[simp] theorem accept_mem (w : Word) (s : State) : (accept w s).mem = s.mem := rfl
@[simp] theorem accept_phase (w : Word) (s : State) : (accept w s).phase = .run := rfl
@[simp] theorem accept_latch (w : Word) (s : State) : (accept w s).latch = snapshot w s := rfl
@[simp] theorem accept_pending (w : Word) (s : State) : (accept w s).pending = s.pending := rfl
@[simp] theorem accept_abandoned (w : Word) (s : State) : (accept w s).abandoned = s.abandoned := rfl
@[simp] theorem accept_work (w : Word) (s : State) : (accept w s).work = Work.empty := rfl
@[simp] theorem accept_events (w : Word) (s : State) : (accept w s).events = s.events := rfl
@[simp] theorem accept_bus (w : Word) (s : State) : (accept w s).bus = s.bus := rfl

/-! ### resetTlvc -/

@[simp] theorem resetTlvc_cfg (s : State) : (resetTlvc s).cfg = s.cfg := rfl
@[simp] theorem resetTlvc_arg0 (s : State) : (resetTlvc s).arg0 = 0 := rfl
@[simp] theorem resetTlvc_arg1 (s : State) : (resetTlvc s).arg1 = 0 := rfl
@[simp] theorem resetTlvc_arg2 (s : State) : (resetTlvc s).arg2 = 0 := rfl
@[simp] theorem resetTlvc_arg3 (s : State) : (resetTlvc s).arg3 = 0 := rfl
@[simp] theorem resetTlvc_res0 (s : State) : (resetTlvc s).res0 = 0 := rfl
@[simp] theorem resetTlvc_res1 (s : State) : (resetTlvc s).res1 = 0 := rfl
@[simp] theorem resetTlvc_res2 (s : State) : (resetTlvc s).res2 = 0 := rfl
@[simp] theorem resetTlvc_res3 (s : State) : (resetTlvc s).res3 = 0 := rfl
@[simp] theorem resetTlvc_ctrl (s : State) : (resetTlvc s).ctrl = { ie := false, enforceSeclen := true } := rfl
@[simp] theorem resetTlvc_status (s : State) : (resetTlvc s).status = { busy := false, done := false, err := false, werr := false, errcode := 0, failStep := 0 } := rfl
@[simp] theorem resetTlvc_inLen (s : State) : (resetTlvc s).inLen = 0 := rfl
@[simp] theorem resetTlvc_outLen (s : State) : (resetTlvc s).outLen = 0 := rfl
@[simp] theorem resetTlvc_mem (s : State) : (resetTlvc s).mem = [] := rfl
@[simp] theorem resetTlvc_phase (s : State) : (resetTlvc s).phase = .idle := rfl
@[simp] theorem resetTlvc_latch (s : State) : (resetTlvc s).latch = Latch.empty := rfl
@[simp] theorem resetTlvc_pending (s : State) : (resetTlvc s).pending = none := rfl
@[simp] theorem resetTlvc_abandoned (s : State) : (resetTlvc s).abandoned = s.abandoned + s.pending.isSome.toNat := rfl
@[simp] theorem resetTlvc_work (s : State) : (resetTlvc s).work = Work.empty := rfl
@[simp] theorem resetTlvc_events (s : State) : (resetTlvc s).events = s.events := rfl
@[simp] theorem resetTlvc_bus (s : State) : (resetTlvc s).bus = s.bus := rfl

/-! ### State.reset -/

@[simp] theorem reset_cfg : State.reset.cfg = Params.default := rfl
@[simp] theorem reset_arg0 : State.reset.arg0 = 0 := rfl
@[simp] theorem reset_arg1 : State.reset.arg1 = 0 := rfl
@[simp] theorem reset_arg2 : State.reset.arg2 = 0 := rfl
@[simp] theorem reset_arg3 : State.reset.arg3 = 0 := rfl
@[simp] theorem reset_res0 : State.reset.res0 = 0 := rfl
@[simp] theorem reset_res1 : State.reset.res1 = 0 := rfl
@[simp] theorem reset_res2 : State.reset.res2 = 0 := rfl
@[simp] theorem reset_res3 : State.reset.res3 = 0 := rfl
@[simp] theorem reset_ctrl : State.reset.ctrl = { ie := false, enforceSeclen := true } := rfl
@[simp] theorem reset_status : State.reset.status = { busy := false, done := false, err := false, werr := false, errcode := 0, failStep := 0 } := rfl
@[simp] theorem reset_inLen : State.reset.inLen = 0 := rfl
@[simp] theorem reset_outLen : State.reset.outLen = 0 := rfl
@[simp] theorem reset_mem : State.reset.mem = [] := rfl
@[simp] theorem reset_phase : State.reset.phase = .idle := rfl
@[simp] theorem reset_latch : State.reset.latch = Latch.empty := rfl
@[simp] theorem reset_pending : State.reset.pending = none := rfl
@[simp] theorem reset_abandoned : State.reset.abandoned = 0 := rfl
@[simp] theorem reset_work : State.reset.work = Work.empty := rfl
@[simp] theorem reset_events : State.reset.events = [] := rfl
@[simp] theorem reset_bus : State.reset.bus = none := rfl

/-! ### The flag updates -/

@[simp] theorem statusAccept_busy (f : Status) : (statusAccept f).busy = true := rfl
@[simp] theorem statusAccept_done (f : Status) : (statusAccept f).done = false := rfl
@[simp] theorem statusAccept_err (f : Status) : (statusAccept f).err = false := rfl
@[simp] theorem statusAccept_werr (f : Status) : (statusAccept f).werr = f.werr := rfl
@[simp] theorem statusAccept_errcode (f : Status) : (statusAccept f).errcode = 0 := rfl
@[simp] theorem statusAccept_failStep (f : Status) : (statusAccept f).failStep = 0 := rfl
@[simp] theorem statusOk_busy (f : Status) : (statusOk f).busy = false := rfl
@[simp] theorem statusOk_done (f : Status) : (statusOk f).done = true := rfl
@[simp] theorem statusOk_err (f : Status) : (statusOk f).err = f.err := rfl
@[simp] theorem statusOk_werr (f : Status) : (statusOk f).werr = f.werr := rfl
@[simp] theorem statusOk_errcode (f : Status) : (statusOk f).errcode = 0 := rfl
@[simp] theorem statusOk_failStep (f : Status) : (statusOk f).failStep = 0 := rfl
@[simp] theorem statusFail_busy (code : ErrorCode) (step : Nat) (f : Status) : (statusFail code step f).busy = false := rfl
@[simp] theorem statusFail_done (code : ErrorCode) (step : Nat) (f : Status) : (statusFail code step f).done = f.done := rfl
@[simp] theorem statusFail_err (code : ErrorCode) (step : Nat) (f : Status) : (statusFail code step f).err = true := rfl
@[simp] theorem statusFail_werr (code : ErrorCode) (step : Nat) (f : Status) : (statusFail code step f).werr = f.werr := rfl
@[simp] theorem statusFail_errcode (code : ErrorCode) (step : Nat) (f : Status) : (statusFail code step f).errcode = BitVec.ofNat 5 (errorNumber code) := rfl
@[simp] theorem statusFail_failStep (code : ErrorCode) (step : Nat) (f : Status) : (statusFail code step f).failStep = BitVec.ofNat 4 step := rfl
@[simp] theorem statusClear_busy (v : Word) (f : Status) : (statusClear v f).busy = f.busy := rfl
@[simp] theorem statusClear_done (v : Word) (f : Status) : (statusClear v f).done = (f.done && !v.getLsbD 1) := rfl
@[simp] theorem statusClear_err (v : Word) (f : Status) : (statusClear v f).err = (f.err && !v.getLsbD 2) := rfl
@[simp] theorem statusClear_werr (v : Word) (f : Status) : (statusClear v f).werr = (f.werr && !v.getLsbD 3) := rfl
@[simp] theorem statusClear_errcode (v : Word) (f : Status) : (statusClear v f).errcode = f.errcode := rfl
@[simp] theorem statusClear_failStep (v : Word) (f : Status) : (statusClear v f).failStep = f.failStep := rfl
@[simp] theorem statusLocked_busy (f : Status) : (statusLocked f).busy = f.busy := rfl
@[simp] theorem statusLocked_done (f : Status) : (statusLocked f).done = f.done := rfl
@[simp] theorem statusLocked_err (f : Status) : (statusLocked f).err = f.err := rfl
@[simp] theorem statusLocked_werr (f : Status) : (statusLocked f).werr = true := rfl
@[simp] theorem statusLocked_errcode (f : Status) : (statusLocked f).errcode = f.errcode := rfl
@[simp] theorem statusLocked_failStep (f : Status) : (statusLocked f).failStep = f.failStep := rfl

/-! ### The latch -/

@[simp] theorem snapshot_cmd (w : Word) (s : State) : (snapshot w s).cmd = w := rfl
@[simp] theorem snapshot_arg0 (w : Word) (s : State) : (snapshot w s).arg0 = s.arg0 := rfl
@[simp] theorem snapshot_arg1 (w : Word) (s : State) : (snapshot w s).arg1 = s.arg1 := rfl
@[simp] theorem snapshot_arg2 (w : Word) (s : State) : (snapshot w s).arg2 = s.arg2 := rfl
@[simp] theorem snapshot_arg3 (w : Word) (s : State) : (snapshot w s).arg3 = s.arg3 := rfl
@[simp] theorem snapshot_inLen (w : Word) (s : State) : (snapshot w s).inLen = s.inLen := rfl
@[simp] theorem snapshot_enf (w : Word) (s : State) : (snapshot w s).enf = s.ctrl.enforceSeclen := rfl

/-! ### The empty working storage -/

@[simp] theorem Work_empty_pos : Work.empty.pos = .start := rfl
@[simp] theorem Work_empty_answer : Work.empty.answer = none := rfl
@[simp] theorem Work_empty_cursor : Work.empty.cursor = 0 := rfl
@[simp] theorem Work_empty_nonce : Work.empty.nonce = [] := rfl
@[simp] theorem Work_empty_salt : Work.empty.salt = [] := rfl
@[simp] theorem Work_empty_lead : Work.empty.lead = [] := rfl
@[simp] theorem Work_empty_idh : Work.empty.idh = [] := rfl
@[simp] theorem Work_empty_idType : Work.empty.idType = 0 := rfl
@[simp] theorem Work_empty_plaintext : Work.empty.plaintext = [] := rfl
@[simp] theorem Work_empty_ciphertext : Work.empty.ciphertext = [] := rfl
@[simp] theorem Work_empty_tag : Work.empty.tag = [] := rfl
@[simp] theorem Work_empty_out : Work.empty.out = [] := rfl
@[simp] theorem Work_empty_hdr : Work.empty.hdr = .start := rfl

end Sys2Proof.Machine
end

