-- ==== Sys2Proof/Laws/Ops.lean ====
section
/-! SUPPORT. What each shared operation can do, said once: the commits, the request, one engine step, and the answer. -/

namespace Sys2Proof.Machine

open Sys2Proof Sys2Proof.Safety

theorem hostSideKept_refl (s : State) : HostSideKept s s := by simp [HostSideKept]

theorem complete_hostSideKept (st : Status) (out : List Byte) (r0 r1 r2 r3 : Nat) (s : State) :
    HostSideKept s (complete st out r0 r1 r2 r3 s) := by simp [HostSideKept]

theorem read_writeObuf (m : Memory) (out : List Byte) (a : Nat) :
    Memory.read (writeObuf m out) a =
      if obufOff ≤ a ∧ a < obufOff + obufBytes then out.getD (a - obufOff) 0 else Memory.read m a :=
  Memory.read_fill m obufOff obufBytes out a

theorem writeObuf_wf {m : Memory} (h : Memory.wf m) (out : List Byte) : Memory.wf (writeObuf m out) :=
  Memory.fill_wf h obufOff obufBytes out

theorem complete_obufHolds (st : Status) (out : List Byte) (r0 r1 r2 r3 : Nat) (s : State) :
    ObufHolds (complete st out r0 r1 r2 r3 s) out := by
  intro k hk
  rw [complete_mem, read_writeObuf, if_pos ⟨by omega, by omega⟩, Nat.add_sub_cancel_left]

theorem complete_memoryKept (st : Status) (out : List Byte) (r0 r1 r2 r3 : Nat) (s : State) :
    MemoryKeptOutsideObuf s (complete st out r0 r1 r2 r3 s) := by
  intro a ha
  rw [complete_mem, read_writeObuf, if_neg (by omega)]

/-- The `Ok` commit does what the spec says of it. -/
theorem commitOk_commits (out : List Byte) (r0 r1 r2 r3 : Nat) (s : State) :
    CommitsOk s (commitOk out r0 r1 r2 r3 s) out r0 r1 r2 r3 :=
  ⟨complete_obufHolds _ _ _ _ _ _ s, rfl, ⟨rfl, rfl, rfl, rfl⟩, rfl, rfl, rfl, complete_memoryKept _ _ _ _ _ _ s,
    complete_hostSideKept _ _ _ _ _ _ s⟩

/-- The `Fail` commit does what the spec says of it. -/
theorem commitFail_commits (code : ErrorCode) (step : Nat) (s : State) :
    CommitsFail s (commitFail code step s) code step :=
  ⟨complete_obufHolds _ _ _ _ _ _ s, rfl, ⟨rfl, rfl, rfl, rfl⟩, rfl, rfl, rfl, complete_memoryKept _ _ _ _ _ _ s,
    complete_hostSideKept _ _ _ _ _ _ s⟩

/-- The issue of a request does what the spec says of it. -/
theorem issueRequest_requests (r : Request) (w : Work) (s : State) : Requests s (issueRequest r w s) r := by
  simp [Requests, HostSideKept]

/-- One engine step of a command: a request, an `Ok` commit or a `Fail` commit. -/
theorem perform_cases (a : Action) (s : State) :
    (∃ r w, a = .ask r w ∧ perform a s = issueRequest r w s) ∨
    (∃ out r0 r1 r2 r3, a = .ok out r0 r1 r2 r3 ∧ perform a s = commitOk out r0 r1 r2 r3 s) ∨
    (∃ code step, a = .fail code step ∧ perform a s = commitFail code step s) := by
  cases a with
  | ask r w => exact .inl ⟨r, w, rfl, rfl⟩
  | ok out r0 r1 r2 r3 => exact .inr (.inl ⟨out, r0, r1, r2, r3, rfl, rfl⟩)
  | fail code step => exact .inr (.inr ⟨code, step, rfl, rfl⟩)

@[simp] theorem perform_ask (r : Request) (w : Work) (s : State) : perform (.ask r w) s = issueRequest r w s := rfl

@[simp] theorem perform_ok (out : List Byte) (r0 r1 r2 r3 : Nat) (s : State) :
    perform (.ok out r0 r1 r2 r3) s = commitOk out r0 r1 r2 r3 s := rfl

@[simp] theorem perform_fail (code : ErrorCode) (step : Nat) (s : State) :
    perform (.fail code step) s = commitFail code step s := rfl

theorem perform_hostSideKept (a : Action) (s : State) : HostSideKept s (perform a s) := by
  cases a <;> simp [HostSideKept]

/-- A step at a position answers a next state only where the command has one there. -/
theorem performAt_next {a : Option Action} {s t : State} (h : performAt a s = .next t) :
    ∃ b, a = some b ∧ t = perform b s := by
  cases a with
  | none => simp [performAt] at h
  | some b => exact ⟨b, rfl, by simpa [performAt] using h.symm⟩

theorem performAt_some (a : Action) (s : State) : performAt (some a) s = .next (perform a s) := rfl

theorem commonChecks_of_le {s : State} (h : inLen s ≤ ibufBytes) (a : Action) : commonChecks s a = a :=
  if_neg (by omega)

theorem commonChecks_of_gt {s : State} (h : ibufBytes < inLen s) (a : Action) :
    commonChecks s a = .fail .invalidArgument 0 := if_pos h

/-- What the header decoder's move can answer. -/
theorem moveHeaderUnit_next {u : Option HeaderUnit} {s t : State} (h : moveHeaderUnit u s = .next t) :
    ∃ v, u = some v ∧ OnlyHeaderUnit s t v := by
  cases u with
  | none => simp [moveHeaderUnit] at h
  | some v => exact ⟨v, rfl, by simpa [moveHeaderUnit, OnlyHeaderUnit] using h.symm⟩

/-- What exec can answer, said once: a header byte moves the header decoder, and a command takes one engine step. -/
theorem exec_next {i : Instr} {s t : State} (h : exec i s = .next t) :
    (∃ a, t = perform a s) ∨ ∃ u, OnlyHeaderUnit s t u := by
  have next_eq {a : Action} (h : Host.Outcome.next (perform a s) = (.next t : Host.Outcome State Fault Refusal)) :
      t = perform a s := by injection h with h; exact h.symm
  cases i with
  | hdrEnc => exact .inl ⟨_, next_eq h⟩
  | hdrDec => exact .inl ⟨_, next_eq h⟩
  | eiEnc => exact .inl ⟨_, next_eq h⟩
  | eiDec => exact .inl ⟨_, next_eq h⟩
  | scan => exact .inl ⟨_, next_eq h⟩
  | advBuild => obtain ⟨b, -, ht⟩ := performAt_next h; exact .inl ⟨b, ht⟩
  | advParse => obtain ⟨b, -, ht⟩ := performAt_next h; exact .inl ⟨b, ht⟩
  | illegalZero rsv => exact .inl ⟨_, next_eq h⟩
  | illegalHigh op rsv => exact .inl ⟨_, next_eq h⟩
  | illegalReserved op rsv => exact .inl ⟨_, next_eq h⟩
  | hdr1 length typ => obtain ⟨u, -, ht⟩ := moveHeaderUnit_next (u := some (unitHdr1 length typ)) h; exact .inr ⟨u, ht⟩
  | hdrm length => obtain ⟨u, -, ht⟩ := moveHeaderUnit_next (u := some (unitHdrm length)) h; exact .inr ⟨u, ht⟩
  | groupCont bits => obtain ⟨u, -, ht⟩ := moveHeaderUnit_next h; exact .inr ⟨u, ht⟩
  | groupFinal bits => obtain ⟨u, -, ht⟩ := moveHeaderUnit_next h; exact .inr ⟨u, ht⟩

/-- The Cryptor's step changes nothing, or gives the engine its answer. -/
theorem takeAnswer_cases (e : Nat) (r : Response) (s : State) :
    takeAnswer e r s = s ∨
    s.phase = .wait ∧ e = s.abandoned ∧
      takeAnswer e r s = { s with phase := .run, pending := none, work := { s.work with answer := some r } } := by
  by_cases h : s.phase = .wait ∧ e = s.abandoned
  · exact .inr ⟨h.1, h.2, if_pos h⟩
  · exact .inl (if_neg h)

theorem takeAnswer_of_wait {s : State} (h : s.phase = .wait) (r : Response) :
    takeAnswer s.abandoned r s = { s with phase := .run, pending := none, work := { s.work with answer := some r } } :=
  if_pos ⟨h, rfl⟩

theorem takeAnswer_of_not_wait {s : State} (h : s.phase ≠ .wait) (e : Nat) (r : Response) : takeAnswer e r s = s :=
  if_neg (fun hw => h hw.1)

end Sys2Proof.Machine
end

