-- ==== Sys2Proof/Laws/Bus.lean ====
section
/-! SUPPORT. What a host access can do, said once, and that it keeps the windows' canonical form. -/

namespace Sys2Proof.Machine

open Sys2Proof Sys2Proof.Safety

/-- Everything from `OBUF` on is `OBUF` (20_memory.md R82). -/
theorem regionOf_obuf {a : Nat} (h : 0x1000 ≤ a) : regionOf a = .obuf := by
  have past (b : Nat) (hb : b ≤ 0x1000) : ¬a < b := Nat.not_lt.2 (hb.trans h)
  simp only [regionOf, past, Nat.reduceLeDiff, if_false]

/-- A host access answers a next state exactly for an address in the window. -/
theorem hostAccess_next {a : HostAccess} {s t : State} (h : hostAccess a s = .next t) :
    ∃ off, offsetOf s.cfg (accessAddress a) = some off ∧ t = accessAt off a s := by
  unfold hostAccess at h
  split at h
  · rename_i off hoff
    exact ⟨off, hoff, by injection h with h; exact h.symm⟩
  · exact absurd h (by simp)

theorem offsetOf_base_add (c : Params) {off : Nat} (h : off < windowSize) : offsetOf c (c.base + off) = some off := by
  unfold offsetOf
  rw [if_pos ⟨by omega, by omega⟩, Nat.add_sub_cancel_left]

theorem offsetOf_lt {c : Params} {addr off : Nat} (h : offsetOf c addr = some off) : off < windowSize := by
  unfold offsetOf at h
  split at h
  · rename_i hr; simp only [Option.some.injEq] at h; omega
  · simp at h

/-- The busy lock: locked, or done. -/
theorem unlessBusy_cases (s s' : State) :
    s.status.busy = true ∧ unlessBusy s s' = { s with status := statusLocked s.status } ∨
    s.status.busy = false ∧ unlessBusy s s' = s' := by
  cases hb : s.status.busy
  · exact .inr ⟨rfl, by simp [unlessBusy, hb]⟩
  · exact .inl ⟨rfl, by simp [unlessBusy, hb]⟩

theorem widthBytes_pos (w : Width) : 0 < widthBytes w := by cases w <;> decide

theorem widthBytes_le (w : Width) : widthBytes w ≤ 4 := by cases w <;> decide

@[simp] theorem wordBytes_length (v : Word) : (wordBytes v).length = 4 := rfl

theorem writtenBytes_length (w : Width) (v : Word) : ((wordBytes v).take (widthBytes w)).length = widthBytes w := by
  have := widthBytes_le w
  simp; omega

/-- Every effect of a write to the register block, said once. -/
theorem writeRegister_cases (off : Nat) (v : Word) (s : State) :
    writeRegister off v s = s ∨
    writeRegister off v s = resetTlvc s ∨
    writeRegister off v s = { s with ctrl := ctrlOfWord v } ∨
    writeRegister off v s = { s with status := statusClear v s.status } ∨
    (s.status.busy = true ∧ writeRegister off v s = { s with status := statusLocked s.status }) ∨
    (s.status.busy = false ∧
      (writeRegister off v s = accept v s ∨ writeRegister off v s = { s with inLen := v.extractLsb' 0 10 } ∨
       writeRegister off v s = { s with arg0 := v } ∨ writeRegister off v s = { s with arg1 := v } ∨
       writeRegister off v s = { s with arg2 := v } ∨ writeRegister off v s = { s with arg3 := v })) := by
  have lock (s' : State) (h : writeRegister off v s = unlessBusy s s') :
      (s.status.busy = true ∧ writeRegister off v s = { s with status := statusLocked s.status }) ∨
      (s.status.busy = false ∧ writeRegister off v s = s') := by
    rcases unlessBusy_cases s s' with ⟨hb, hu⟩ | ⟨hb, hu⟩
    · exact .inl ⟨hb, h.trans hu⟩
    · exact .inr ⟨hb, h.trans hu⟩
  by_cases h4 : off = 0x004
  · cases hv : v.getLsbD 2 <;> simp only [writeRegister, h4, hv, if_true, Bool.false_eq_true, if_false, true_or, or_true]
  by_cases h8 : off = 0x008
  · simp only [writeRegister, h8, Nat.reduceEqDiff, if_true, if_false, true_or, or_true]
  by_cases hC : off = 0x00C
  · have := lock (accept v s) (by subst hC; rfl)
    tauto
  by_cases h10 : off = 0x010
  · have := lock { s with inLen := v.extractLsb' 0 10 } (by subst h10; rfl)
    tauto
  by_cases h20 : off = 0x020
  · have := lock { s with arg0 := v } (by subst h20; rfl)
    tauto
  by_cases h24 : off = 0x024
  · have := lock { s with arg1 := v } (by subst h24; rfl)
    tauto
  by_cases h28 : off = 0x028
  · have := lock { s with arg2 := v } (by subst h28; rfl)
    tauto
  by_cases h2C : off = 0x02C
  · have := lock { s with arg3 := v } (by subst h2C; rfl)
    tauto
  · exact .inl (by simp only [writeRegister, h4, h8, hC, h10, h20, h24, h28, h2C, if_false])

/-- Every effect of a write to a byte window, said once. -/
theorem writeWindow_cases (off : Nat) (w : Width) (v : Word) (s : State) :
    writeWindow off w v s = s ∨
    (s.status.busy = true ∧ writeWindow off w v s = { s with status := statusLocked s.status }) ∨
    (s.status.busy = false ∧
      (regionOf off = .key ∨ regionOf off = .idkey ∨ regionOf off = .salt ∨ regionOf off = .mktag ∨ regionOf off = .ibuf) ∧
      writeWindow off w v s =
        { s with mem := Memory.store s.mem off ((wordBytes v).take (widthBytes w)) }) := by
  have lock := unlessBusy_cases s { s with mem := Memory.store s.mem off ((wordBytes v).take (widthBytes w)) }
  unfold writeWindow
  cases regionOf off <;> simp only [reduceCtorEq, or_false, or_true, true_or] <;>
    first
    | exact .inl trivial
    | (rcases lock with ⟨hb, hu⟩ | ⟨hb, hu⟩
       · exact .inr (.inl ⟨hb, hu⟩)
       · exact .inr (.inr ⟨hb, trivial, hu⟩))

/-- Every effect of an allowed write, said once. -/
theorem writeData_cases (off : Nat) (w : Width) (v : Word) (s : State) :
    writeData off w v s = s ∨ writeData off w v s = resetTlvc s ∨ writeData off w v s = { s with ctrl := ctrlOfWord v } ∨
    writeData off w v s = { s with status := statusClear v s.status } ∨
    (s.status.busy = true ∧ writeData off w v s = { s with status := statusLocked s.status }) ∨
    (s.status.busy = false ∧
      (writeData off w v s = accept v s ∨ writeData off w v s = { s with inLen := v.extractLsb' 0 10 } ∨
       writeData off w v s = { s with arg0 := v } ∨ writeData off w v s = { s with arg1 := v } ∨
       writeData off w v s = { s with arg2 := v } ∨ writeData off w v s = { s with arg3 := v } ∨
       ((regionOf off = .key ∨ regionOf off = .idkey ∨ regionOf off = .salt ∨ regionOf off = .mktag ∨
            regionOf off = .ibuf) ∧
          writeData off w v s =
            { s with mem := Memory.store s.mem off ((wordBytes v).take (widthBytes w)) }))) := by
  unfold writeData
  split
  · have := writeRegister_cases off v s
    tauto
  · have := writeWindow_cases off w v s
    tauto

/-- What an access leaves, said once: the state but for the bus response, or the effect of an allowed write. -/
theorem accessAt_cases (off : Nat) (a : HostAccess) (s : State) :
    ∃ b, accessAt off a s = { s with bus := some b } ∨
      ∃ w v, accessAllowed off w = true ∧ accessAt off a s = { writeData off w v s with bus := some b } := by
  cases a with
  | read addr w =>
    by_cases h : accessAllowed off w = true
    · exact ⟨_, .inl (if_pos h)⟩
    · exact ⟨_, .inl (if_neg h)⟩
  | write addr w v =>
    by_cases h : accessAllowed off w = true
    · exact ⟨_, .inr ⟨w, v, h, if_pos h⟩⟩
    · exact ⟨_, .inl (if_neg h)⟩

/-- No access lowers the count of abandoned requests; only a soft reset changes it (20_memory.md R113). -/
theorem accessAt_abandoned_le (off : Nat) (a : HostAccess) (s : State) : s.abandoned ≤ (accessAt off a s).abandoned := by
  obtain ⟨b, h | ⟨w, v, -, h⟩⟩ := accessAt_cases off a s
  · rw [h]
  · rw [h]
    show s.abandoned ≤ (writeData off w v s).abandoned
    rcases writeData_cases off w v s with
      h | h | h | h | ⟨-, h⟩ | ⟨-, h | h | h | h | h | h | ⟨-, h⟩⟩ <;> rw [h] <;> simp

/-- An allowed access to a byte window does not leave the region of its first byte (20_memory.md R91). -/
theorem region_of_access {off : Nat} {w : Width} (h : accessAllowed off w = true) {k : Nat}
    (hk : k < widthBytes w) : regionOf (off + k) = regionOf off := by
  have hal : off % widthBytes w = 0 := by
    simp only [accessAllowed, Bool.and_eq_true, beq_iff_eq] at h
    exact h.2
  have hcases : widthBytes w = 1 ∨ widthBytes w = 2 ∨ widthBytes w = 4 := by cases w <;> simp [widthBytes]
  have hq : (off + k) / 16 = off / 16 := by rcases hcases with hw | hw | hw <;> rw [hw] at hal hk <;> omega
  have hb (n : Nat) : (off + k < 16 * n) = (off < 16 * n) := propext (by omega)
  have e1 := hb 0x10
  have e2 := hb 0x11
  have e3 := hb 0x12
  have e4 := hb 0x13
  have e5 := hb 0x14
  have e6 := hb 0x16
  have e7 := hb 0x40
  have e8 := hb 0x60
  have e9 := hb 0x100
  simp only [Nat.reduceMul] at e1 e2 e3 e4 e5 e6 e7 e8 e9
  simp only [regionOf, e1, e2, e3, e4, e5, e6, e7, e8, e9]

end Sys2Proof.Machine
end

