-- ==== Sys2Proof/Laws/Flags.lean ====
section
/-! SUPPORT. The bits of the `STATUS` and `CTRL` words (10_state.md R35, R37). -/

namespace Sys2Proof.Machine

open Sys2Proof

theorem append_toNat {m n : Nat} (x : BitVec m) (y : BitVec n) : (x ++ y).toNat = x.toNat * 2 ^ n + y.toNat := by
  rw [BitVec.toNat_append, ← Nat.shiftLeft_add_eq_or_of_lt y.isLt, Nat.shiftLeft_eq]

theorem word_bit (x : Word) (k : Nat) : x.getLsbD k = decide (x.toNat / 2 ^ k % 2 = 1) := by
  rw [← BitVec.testBit_toNat, Nat.testBit_eq_decide_div_mod_eq]

/-- `STATUS` as a number: where each of its fields stands. -/
theorem statusWord_toNat (f : Status) :
    (statusWord f).toNat = f.busy.toNat + 2 * f.done.toNat + 4 * f.err.toNat + 8 * f.werr.toNat +
      256 * f.errcode.toNat + 65536 * f.failStep.toNat := by
  simp only [statusWord, append_toNat, BitVec.toNat_ofBool]
  simp
  omega

/-- `CTRL` as a number: where each of its fields stands. -/
theorem ctrlWord_toNat (c : Ctrl) : (ctrlWord c).toNat = c.ie.toNat + 2 * c.enforceSeclen.toNat := by
  simp only [ctrlWord, append_toNat, BitVec.toNat_ofBool]
  simp
  omega

theorem statusWord_done (f : Status) : (statusWord f).getLsbD 1 = f.done := by
  rw [word_bit, statusWord_toNat]
  cases f.busy <;> cases f.done <;> cases f.err <;> cases f.werr <;> simp <;> omega

theorem statusWord_err (f : Status) : (statusWord f).getLsbD 2 = f.err := by
  rw [word_bit, statusWord_toNat]
  cases f.busy <;> cases f.done <;> cases f.err <;> cases f.werr <;> simp <;> omega

theorem ctrlWord_ie (c : Ctrl) : (ctrlWord c).getLsbD 0 = c.ie := by
  rw [word_bit, ctrlWord_toNat]
  cases c.ie <;> cases c.enforceSeclen <;> rfl

/-- A reset flips the abandon epoch exactly if a request was pending (20_memory.md R113; 70_reset_and_hazards.md R320). -/
theorem resetTlvc_epoch (s : State) : (resetTlvc s).epoch = (s.epoch ^^ s.pending.isSome) := by
  have e : (resetTlvc s).epoch = ((s.abandoned + s.pending.isSome.toNat) % 2 == 1) := rfl
  rw [e, State.epoch]
  cases s.pending.isSome <;> rcases Nat.mod_two_eq_zero_or_one s.abandoned with h | h <;> simp [h, Nat.add_mod]

end Sys2Proof.Machine
end

