-- ==== Sys2Proof/Laws/HeaderCodec.lean ====
section
/-! SUPPORT. The header decoder in numbers, its bounds, and the number of type groups. -/

namespace Sys2Proof.Machine

open Sys2Proof

theorem byte_bit7 (b : Byte) : b.getLsbD 7 = decide (128 ≤ b.toNat) := by
  have := b.isLt
  rw [← BitVec.testBit_toNat, Nat.testBit_eq_decide_div_mod_eq]
  rw [decide_eq_decide]
  omega

theorem byte_low7 (b : Byte) : (b.extractLsb' 0 7).toNat = b.toNat % 128 := by simp [BitVec.extractLsb'_toNat]

theorem byte_low4 (b : Byte) : (b.extractLsb' 0 4).toNat = b.toNat % 16 := by simp [BitVec.extractLsb'_toNat]

theorem byte_mid3 (b : Byte) : (b.extractLsb' 4 3).toNat = b.toNat / 16 % 8 := by
  simp [BitVec.extractLsb'_toNat, Nat.shiftRight_eq_div_pow]

@[simp] theorem runHeader_done (length typ n : Nat) (bs : List Byte) :
    runHeader (.done length typ n) bs = .done length typ n := by
  cases bs <;> rfl

@[simp] theorem runHeader_malformed (bs : List Byte) : runHeader .malformed bs = .malformed := by
  cases bs <;> rfl

@[simp] theorem runHeader_start_nil : runHeader .start [] = .malformed := rfl

@[simp] theorem runHeader_groups_nil (length typ g : Nat) : runHeader (.groups length typ g) [] = .malformed := rfl

theorem decodeHeaderStart_of_ge {b : Byte} (h : 128 ≤ b.toNat) : decodeHeaderStart b = .hdrm (b.extractLsb' 0 7) :=
  if_pos (by rw [byte_bit7]; exact decide_eq_true h)

theorem decodeHeaderStart_of_lt {b : Byte} (h : ¬ 128 ≤ b.toNat) :
    decodeHeaderStart b = .hdr1 (b.extractLsb' 4 3) (b.extractLsb' 0 4) :=
  if_neg (by rw [byte_bit7]; simpa using h)

theorem decodeHeaderGroup_of_ge {b : Byte} (h : 128 ≤ b.toNat) : decodeHeaderGroup b = .groupCont (b.extractLsb' 0 7) :=
  if_pos (by rw [byte_bit7]; exact decide_eq_true h)

theorem decodeHeaderGroup_of_lt {b : Byte} (h : ¬ 128 ≤ b.toNat) : decodeHeaderGroup b = .groupFinal (b.extractLsb' 0 7) :=
  if_neg (by rw [byte_bit7]; simpa using h)

/-- Byte 0 of a header (30_encoding.md R125-R127). -/
theorem runHeader_start_cons (b : Byte) (bs : List Byte) :
    runHeader .start (b :: bs) =
      if 128 ≤ b.toNat then runHeader (.groups (b.toNat % 128) 0 0) bs
      else .done (b.toNat / 16) (b.toNat % 16) 1 := by
  have hlt := b.isLt
  by_cases h : 128 ≤ b.toNat
  · simp only [runHeader, decodeHeaderByte, headerPosition, decodeHeaderStart_of_ge h, unitStep, unitHdrm, byte_low7,
      if_pos h]
  · have hd : b.toNat / 16 % 8 = b.toNat / 16 := by omega
    simp only [runHeader, decodeHeaderByte, headerPosition, decodeHeaderStart_of_lt h, unitStep, unitHdr1, byte_low4,
      byte_mid3, if_neg h, hd, runHeader_done]

/-- A type group (30_encoding.md R128, R129). -/
theorem runHeader_groups_cons (length typ g : Nat) (b : Byte) (bs : List Byte) :
    runHeader (.groups length typ g) (b :: bs) =
      if 128 ≤ b.toNat then
        if g + 1 = maxTypeGroups then .malformed
        else runHeader (.groups length (typ * 128 + b.toNat % 128) (g + 1)) bs
      else .done length (typ * 128 + b.toNat) (g + 2) := by
  by_cases h : 128 ≤ b.toNat
  · by_cases hg : g + 1 = maxTypeGroups
    · simp only [runHeader, decodeHeaderByte, headerPosition, decodeHeaderGroup_of_ge h, unitStep, unitGroupCont,
        if_pos h, if_pos hg, runHeader_malformed]
    · simp only [runHeader, decodeHeaderByte, headerPosition, decodeHeaderGroup_of_ge h, unitStep, unitGroupCont,
        byte_low7, if_pos h, if_neg hg]
  · have hm : b.toNat % 128 = b.toNat := by omega
    simp only [runHeader, decodeHeaderByte, headerPosition, decodeHeaderGroup_of_lt h, unitStep, unitGroupFinal,
      byte_low7, if_neg h, hm, runHeader_done]

/-- Where a run over type groups ends: within its bytes, within three groups, and below the type limit. -/
theorem runHeader_groups_bounds {length typ g : Nat} {bs : List Byte} {l t n : Nat}
    (h : runHeader (.groups length typ g) bs = .done l t n) (hg : g < 3) (ht : typ < 128 ^ g) :
    l = length ∧ t < typeLimit ∧ g + 2 ≤ n ∧ n ≤ 4 ∧ n ≤ g + 1 + bs.length := by
  induction bs generalizing typ g with
  | nil => simp at h
  | cons b bs ih =>
    have hlt := b.isLt
    rw [runHeader_groups_cons] at h
    split at h
    · split at h
      · simp at h
      · rename_i hg3
        have hg3 : g + 1 < 3 := by simp only [maxTypeGroups] at hg3; omega
        obtain ⟨h1, h2, h3, h4, h5⟩ := ih h hg3 (by rw [Nat.pow_succ]; omega)
        simp only [List.length_cons]
        exact ⟨h1, h2, by omega, h4, by omega⟩
    · simp only [HeaderUnit.done.injEq] at h
      obtain ⟨rfl, rfl, rfl⟩ := h
      simp only [List.length_cons, typeLimit, true_and]
      have : typ < 128 * 128 := by
        rcases (by omega : g = 0 ∨ g = 1 ∨ g = 2) with rfl | rfl | rfl <;> simp at ht <;> omega
      omega

/-- A header that is decoded lies within its bytes, and its fields within their limits (20_memory.md R100, 30_encoding.md
R129, R133). -/
theorem runHeader_start_bounds {bs : List Byte} {l t n : Nat} (h : runHeader .start bs = .done l t n) :
    l < lenLimit ∧ t < typeLimit ∧ 1 ≤ n ∧ n ≤ 4 ∧ n ≤ bs.length := by
  cases bs with
  | nil => simp at h
  | cons b bs =>
    have hlt := b.isLt
    rw [runHeader_start_cons] at h
    split at h
    · obtain ⟨h1, h2, h3, h4, h5⟩ := runHeader_groups_bounds h (by omega) (by simp)
      simp only [List.length_cons, lenLimit]
      exact ⟨by omega, h2, by omega, h4, by omega⟩
    · simp only [HeaderUnit.done.injEq] at h
      obtain ⟨rfl, rfl, rfl⟩ := h
      simp only [List.length_cons, lenLimit, typeLimit]
      omega

/-- Bytes past the end of a header do not matter. -/
theorem runHeader_append {u : HeaderUnit} {bs : List Byte} {l t n : Nat} (h : runHeader u bs = .done l t n) (cs : List Byte) :
    runHeader u (bs ++ cs) = .done l t n := by
  induction bs generalizing u with
  | nil =>
    cases u with
    | start => simp at h
    | groups length typ g => simp at h
    | done length typ n' => simpa using h
    | malformed => simp at h
  | cons b bs ih =>
    cases u with
    | start =>
      rw [List.cons_append, runHeader_start_cons]
      rw [runHeader_start_cons] at h
      split at h
      · rw [if_pos ‹_›]; exact ih h
      · rw [if_neg ‹_›]; exact h
    | groups length typ g =>
      rw [List.cons_append, runHeader_groups_cons]
      rw [runHeader_groups_cons] at h
      split at h
      · rw [if_pos ‹_›]
        split at h
        · simp at h
        · rw [if_neg ‹_›]; exact ih h
      · rw [if_neg ‹_›]; exact h
    | done length typ n' => simpa using h
    | malformed => simp at h

theorem hdrDecode_eq_some {buf : List Byte} {off fin : Nat} {h : Header} :
    hdrDecode buf off fin = some h ↔ runHeader .start (slice buf off fin) = .done h.length h.typ h.n := by
  unfold hdrDecode
  obtain ⟨ht, hl, hn⟩ := h
  split
  · rename_i l t n he
    simp only [he, Option.some.injEq, Header.mk.injEq, HeaderUnit.done.injEq]
    tauto
  · rename_i hne
    constructor
    · simp
    · intro he; exact absurd he (hne _ _ _)

theorem slice_length (s : List Byte) (i j : Nat) : (slice s i j).length = min j s.length - i := by
  simp [slice]

/-- A decoded header stays below `end` and within the input, and its fields within their limits. -/
theorem hdrDecode_bounds {buf : List Byte} {off fin : Nat} {h : Header} (hd : hdrDecode buf off fin = some h) :
    h.length < lenLimit ∧ h.typ < typeLimit ∧ 1 ≤ h.n ∧ h.n ≤ 4 ∧ off + h.n ≤ fin ∧ off + h.n ≤ buf.length := by
  have hb := runHeader_start_bounds (hdrDecode_eq_some.1 hd)
  rw [slice_length] at hb
  omega

/-- The number of type groups of each type below the limit (41_header_codec.md R180). -/
theorem groupCount_eq {typ : Nat} (h : typ < typeLimit) :
    groupCount typ = if typ < 128 then 1 else if typ < 16384 then 2 else 3 := by
  unfold groupCount bitlen
  by_cases h0 : typ = 0
  · simp [h0]
  · have lt (k : Nat) : typ.log2 < k ↔ typ < 2 ^ k := Nat.log2_lt h0
    have h7 := lt 7
    have h14 := lt 14
    have h21 := lt 21
    simp only [typeLimit] at h
    norm_num at h7 h14 h21
    rw [if_neg h0]
    split_ifs <;> omega

theorem byteOf_toNat {v : Nat} (h : v < 256) : (byteOf v).toNat = v := by
  simp [byteOf, Nat.mod_eq_of_lt h]

theorem hdrEncode_length_pos (typ length : Nat) : 0 < (hdrEncode typ length).length := by
  unfold hdrEncode; split <;> simp

/-- A header is at most four bytes long (30_encoding.md R128). -/
theorem hdrEncode_length_le {typ : Nat} (h : typ < typeLimit) (length : Nat) : (hdrEncode typ length).length ≤ 4 := by
  unfold hdrEncode
  split
  · simp
  · have := groupCount_eq h
    simp only [List.length_cons, List.length_map, List.length_range]
    split_ifs at this <;> omega

end Sys2Proof.Machine
end

