-- ==== Sys2Proof/Laws/Step.lean ====
section
/-! SUPPORT. What one step can do, said once: which agent moves, and what its move is. Runs of served commands, step by step. -/

namespace Sys2Proof.Machine

open Sys2Proof Sys2Proof.Safety

/-- The bytes of a command word give the word back (20_memory.md R86). -/
theorem bytesWord_extract (w : Word) :
    bytesWord (w.extractLsb' 0 8) (w.extractLsb' 8 8) (w.extractLsb' 16 8) (w.extractLsb' 24 8) = w := by
  have h1 : w.extractLsb' 24 8 ++ w.extractLsb' 16 8 = w.extractLsb' 16 16 := by
    rw [BitVec.extractLsb'_append_extractLsb'_eq_extractLsb' (by omega)]
  have h2 : w.extractLsb' 16 16 ++ w.extractLsb' 8 8 = w.extractLsb' 8 24 := by
    rw [BitVec.extractLsb'_append_extractLsb'_eq_extractLsb' (by omega)]
  have h3 : w.extractLsb' 8 24 ++ w.extractLsb' 0 8 = w.extractLsb' 0 32 := by
    rw [BitVec.extractLsb'_append_extractLsb'_eq_extractLsb' (by omega)]
  unfold bytesWord
  rw [h1]; erw [h2, h3]; simp

/-- The bytes of a command word decode as the word does. -/
theorem decode_wordBytes (w : Word) : decode .command (wordBytes w) = .ok (decodeCommand w) := by
  simp only [decode, wordBytes, bytesWord_extract]

theorem step_of_wf {s : State} (h : s.cfg.wf) : step s = nextStep s := if_pos h

theorem step_of_not_wf {s : State} (h : ¬s.cfg.wf) : step s = .refused .invalidConfiguration := if_neg h

theorem wf_of_step_next {s t : State} (h : step s = .next t) : s.cfg.wf ∧ nextStep s = .next t := by
  by_cases hw : s.cfg.wf
  · exact ⟨hw, by rwa [step_of_wf hw] at h⟩
  · rw [step_of_not_wf hw] at h; simp at h

/-- The engine's step: the command's step in phase `RUN`, and no change otherwise. -/
theorem engineStep_next {s t : State} (h : engineStep s = .next t) :
    s.phase = .run ∧ exec (fetchCommand s) s = .next t ∨ s.phase ≠ .run ∧ t = s := by
  unfold engineStep at h
  split at h
  · exact .inl ⟨‹_›, h⟩
  · exact .inr ⟨‹_›, by injection h with h; exact h.symm⟩

theorem engineStep_of_run {s : State} (h : s.phase = .run) : engineStep s = exec (fetchCommand s) s := if_pos h

theorem engineStep_of_not_run {s : State} (h : s.phase ≠ .run) : engineStep s = .next s := if_neg h

/-- The Cryptor's step: an answer within the port's limit, taken or discarded. -/
theorem cryptorStep_next {e : Nat} {r : Response} {s t : State} (h : cryptorStep e r s = .next t) :
    r.data.length ≤ cryRspMax ∧ t = takeAnswer e r s := by
  unfold cryptorStep at h
  split at h
  · simp at h
  · exact ⟨by omega, by injection h with h; exact h.symm⟩

theorem cryptorStep_of_le {r : Response} (h : r.data.length ≤ cryRspMax) (e : Nat) (s : State) :
    cryptorStep e r s = .next (takeAnswer e r s) := if_neg (by omega)

/-- A header byte is one of the four header instructions. -/
theorem fetchHeaderByte_cases (b : Byte) (s : State) :
    (∃ length typ, fetchHeaderByte b s = .hdr1 length typ) ∨ (∃ length, fetchHeaderByte b s = .hdrm length) ∨
    (∃ bits, fetchHeaderByte b s = .groupCont bits) ∨ (∃ bits, fetchHeaderByte b s = .groupFinal bits) := by
  unfold fetchHeaderByte decodeHeaderByte decodeHeaderGroup decodeHeaderStart
  split <;> split <;> simp

/-- A header byte's step changes the header decoder and nothing else. -/
theorem headerByte_next {b : Byte} {s t : State} (h : exec (fetchHeaderByte b s) s = .next t) :
    ∃ u, OnlyHeaderUnit s t u := by
  rcases fetchHeaderByte_cases b s with ⟨l, ty, he⟩ | ⟨l, he⟩ | ⟨bits, he⟩ | ⟨bits, he⟩ <;> rw [he] at h
  · obtain ⟨u, -, hu⟩ := moveHeaderUnit_next (u := some (unitHdr1 l ty)) h; exact ⟨u, hu⟩
  · obtain ⟨u, -, hu⟩ := moveHeaderUnit_next (u := some (unitHdrm l)) h; exact ⟨u, hu⟩
  · obtain ⟨u, -, hu⟩ := moveHeaderUnit_next h; exact ⟨u, hu⟩
  · obtain ⟨u, -, hu⟩ := moveHeaderUnit_next h; exact ⟨u, hu⟩

theorem decodeCommand_position (w : Word) : (decodeCommand w).position = .command := by
  unfold decodeCommand
  split_ifs <;> rfl

theorem fetchCommand_position (s : State) : (fetchCommand s).position = .command := decodeCommand_position s.latch.cmd

/-- What one step can do, said once, on the state `s'` without the event that brings it. -/
theorem step_next {s t : State} (h : step s = .next t) :
    s.cfg.wf ∧ ∃ s', s' = { s with events := s.events.tail } ∧
      ((∃ off a, offsetOf s'.cfg (accessAddress a) = some off ∧ t = accessAt off a s') ∨
       (s'.phase = .run ∧ exec (fetchCommand s') s' = .next t) ∨
       (t = s') ∨
       (∃ r, s'.phase = .wait ∧ r.data.length ≤ cryRspMax ∧
         t = { s' with phase := .run, pending := none, work := { s'.work with answer := some r } }) ∨
       (t = resetTlvc s') ∨
       (∃ u, OnlyHeaderUnit s' t u)) := by
  obtain ⟨hw, h⟩ := wf_of_step_next h
  refine ⟨hw, _, rfl, ?_⟩
  unfold nextStep at h
  split at h
  · rename_i he
    have hs : { s with events := s.events.tail } = s := by rw [he]; cases s; simp_all
    rw [hs]
    rcases engineStep_next h with ⟨hp, h⟩ | ⟨-, h⟩
    · exact .inr (.inl ⟨hp, h⟩)
    · exact .inr (.inr (.inl h))
  · rename_i e es he
    have hs : { s with events := s.events.tail } = { s with events := es } := by rw [he]; rfl
    rw [hs]
    cases e with
    | host a =>
      obtain ⟨off, ho, ht⟩ := hostAccess_next h
      exact .inl ⟨off, a, ho, ht⟩
    | engine =>
      rcases engineStep_next h with ⟨hp, h⟩ | ⟨-, h⟩
      · exact .inr (.inl ⟨hp, h⟩)
      · exact .inr (.inr (.inl h))
    | cryptor e r =>
      obtain ⟨hr, ht⟩ := cryptorStep_next h
      rcases takeAnswer_cases e r { s with events := es } with hc | ⟨hp, -, hc⟩
      · exact .inr (.inr (.inl (ht.trans hc)))
      · exact .inr (.inr (.inr (.inl ⟨r, hp, hr, ht.trans hc⟩)))
    | reset =>
      refine .inr (.inr (.inr (.inr (.inl ?_))))
      injection h with h
      exact h.symm
    | headerByte b => exact .inr (.inr (.inr (.inr (.inr (headerByte_next h)))))

/-- No step lowers the count of abandoned requests (20_memory.md R113). -/
theorem abandoned_le_of_step {s t : State} (h : step s = .next t) : s.abandoned ≤ t.abandoned := by
  obtain ⟨-, s', hs, h⟩ := step_next h
  have e : s'.abandoned = s.abandoned := by rw [hs]
  rw [← e]
  rcases h with ⟨off, a, -, rfl⟩ | ⟨-, h⟩ | rfl | ⟨r, -, -, rfl⟩ | rfl | ⟨u, rfl⟩
  · exact accessAt_abandoned_le off a s'
  · rcases exec_next h with ⟨a, rfl⟩ | ⟨u, rfl⟩
    · exact (perform_hostSideKept a s').2.2.2.2.2.2.2.1.ge
    · exact Nat.le_refl _
  · exact Nat.le_refl _
  · exact Nat.le_refl _
  · simp
  · exact Nat.le_refl _

/-- No run lowers the count of abandoned requests (20_memory.md R113). -/
theorem abandoned_le_of_runSteps {n : Nat} {s t : State} (h : runSteps n s = .next t) : s.abandoned ≤ t.abandoned := by
  induction n generalizing s with
  | zero => injection h with h; rw [h]
  | succ n ih =>
    simp only [runSteps] at h
    split at h
    · exact (abandoned_le_of_step ‹_›).trans (ih h)
    · simp at h
    · simp at h

/-- The runs of Safety are the host's runs. -/
theorem runSteps_eq_run (n : Nat) (s : State) : runSteps n s = Host.Core.run Sys2Proof.core n s := by
  induction n generalizing s with
  | zero => rfl
  | succ n ih =>
    have e : Sys2Proof.core.step s = Machine.step s := rfl
    cases h : Machine.step s with
    | next t => simp only [runSteps, Host.Core.run, e, h]; exact ih t
    | fault f => simp only [runSteps, Host.Core.run, e, h]; rfl
    | refused r => simp only [runSteps, Host.Core.run, e, h]; rfl

@[simp] theorem runSteps_zero (s : State) : runSteps 0 s = .next s := rfl

theorem runSteps_of_next {s t : State} (h : step s = .next t) (n : Nat) : runSteps (n + 1) s = runSteps n t := by
  simp only [runSteps, h]

/-- An engine event takes the engine's step. -/
theorem step_engine {s : State} (hw : s.cfg.wf) (es : List Event) :
    step { s with events := .engine :: es } = engineStep { s with events := es } :=
  step_of_wf (s := { s with events := .engine :: es }) hw

/-- A Cryptor event takes or discards the answer. -/
theorem step_cryptor {s : State} (hw : s.cfg.wf) {r : Response} (hr : r.data.length ≤ cryRspMax) (e : Nat) (es : List Event) :
    step { s with events := .cryptor e r :: es } = .next (takeAnswer e r { s with events := es }) :=
  (step_of_wf (s := { s with events := .cryptor e r :: es }) hw).trans (cryptorStep_of_le hr e _)

/-- A header byte event runs the header byte. -/
theorem step_headerByte {s : State} (hw : s.cfg.wf) (b : Byte) (es : List Event) :
    step { s with events := .headerByte b :: es } = exec (fetchHeaderByte b s) { s with events := es } :=
  step_of_wf (s := { s with events := .headerByte b :: es }) hw

end Sys2Proof.Machine
end

