-- ==== Sys2Proof/Laws/Frames.lean ====
section
/-! SUPPORT. What each part of the two frame commands can do, said once: what it asks of the Cryptor and keeps, and under which
checks. -/

namespace Sys2Proof.Machine

open Sys2Proof Sys2Proof.Safety

/-- A command's step is one engine step. -/
theorem exec_command {i : Instr} {s t : State} (hi : i.position = .command) (h : exec i s = .next t) :
    ∃ a, t = perform a s := by
  rcases exec_next h with h | ⟨u, hu⟩
  · exact h
  · cases i <;> simp only [Instr.position, reduceCtorEq] at hi
    all_goals first
      | (simp only [exec] at h; exact ⟨_, (by injection h with h; exact h.symm)⟩)
      | (obtain ⟨b, -, hb⟩ := performAt_next h; exact ⟨b, hb⟩)

/-- The step of a command other than the frame commands is a commit. -/
theorem exec_commit {i : Instr} {s t : State} (hi : i.position = .command) (hb : i ≠ .advBuild) (hp : i ≠ .advParse)
    (h : exec i s = .next t) : t.phase = .idle := by
  have key (a : Action) (ha : ∀ r w, a ≠ .ask r w) : (perform a s).phase = .idle := by
    cases a with
    | ask r w => exact absurd rfl (ha r w)
    | ok out r0 r1 r2 r3 => rfl
    | fail code k => rfl
  have check (a : Action) (ha : ∀ r w, a ≠ .ask r w) : ∀ r w, commonChecks s a ≠ .ask r w := by
    intro r w
    unfold commonChecks
    split
    · simp
    · exact ha r w
  have hdrEnc : ∀ r w, hdrEncAction s ≠ .ask r w := by intro r w; unfold hdrEncAction; simp only; split <;> simp
  have hdrDec : ∀ r w, hdrDecAction s ≠ .ask r w := by intro r w; unfold hdrDecAction; split <;> simp
  have eiEnc : ∀ r w, eiEncAction s ≠ .ask r w := by intro r w; unfold eiEncAction; split <;> simp
  have eiDec : ∀ r w, eiDecAction s ≠ .ask r w := by intro r w; unfold eiDecAction; split <;> simp
  have scan : ∀ r w, scanAction s ≠ .ask r w := by
    intro r w
    unfold scanAction
    split
    · simp
    · split
      · simp
      · split <;> simp
  cases i <;> simp only [Instr.position, reduceCtorEq, ne_eq, not_true_eq_false] at hi hb hp <;>
    simp only [exec, execHdrEnc, execHdrDec, execEiEnc, execEiDec, execScan, execIllegalZero, execIllegalHigh,
      execIllegalReserved, Host.Outcome.next.injEq] at h <;> subst h
  · exact key _ (check _ hdrEnc)
  · exact key _ (check _ hdrDec)
  · exact key _ (check _ eiEnc)
  · exact key _ (check _ eiDec)
  · exact key _ (check _ scan)
  · rfl
  · rfl
  · rfl

/-- A step that leaves the engine waiting issued a request. -/
theorem ask_of_wait {a : Action} {s t : State} (h : t = perform a s) (hw : t.phase = .wait) :
    ∃ r w, a = .ask r w ∧ t = issueRequest r w s := by
  subst h
  cases a <;> simp_all

theorem commonChecks_ask {s : State} {a : Action} {r : Request} {w : Work} (h : commonChecks s a = .ask r w) :
    inLen s ≤ ibufBytes ∧ a = .ask r w := by
  unfold commonChecks at h
  split at h
  · simp at h
  · exact ⟨by omega, h⟩

/-! ### ADV_BUILD -/

/-- Where the step of ADV_BUILD that asks stands. -/
theorem buildAction_ask {s : State} {r : Request} {w : Work} (h : buildAction s = some (.ask r w)) :
    (s.work.pos = .start ∧ inLen s ≤ ibufBytes ∧ buildStart s = .ask r w) ∨
    (∃ a, s.work.pos = .nonce ∧ s.work.answer = some a ∧ buildAfterNonce s a = .ask r w) ∨
    (∃ a, s.work.pos = .encrypt ∧ s.work.answer = some a ∧ buildAfterEncrypt s a = .ask r w) := by
  unfold buildAction at h
  split at h
  · rename_i hp
    simp only [Option.some.injEq] at h
    obtain ⟨h1, h2⟩ := commonChecks_ask h
    exact .inl ⟨hp, h1, h2⟩
  · exact .inr (.inl ⟨_, ‹_›, ‹_›, by simpa using h⟩)
  · exact .inr (.inr ⟨_, ‹_›, ‹_›, by simpa using h⟩)
  · simp only [Option.some.injEq, buildAfterSign] at h
    split at h <;> simp at h
  · simp at h

/-- The leading element of each salt length (44_adv_build.md R238). -/
theorem leadingElement_ok {c : Params} {salt lead : List Byte} (h : leadingElement c salt = .ok lead) :
    (salt.length = 2 ∧ lead = hdrEncode c.tSalt 2 ++ salt) ∨
    (salt.length = 16 ∧
      lead = hdrEncode c.tEi 17 ++ byteOf ((c.schemeMic <<< 3) &&& eiSchemeMask) :: salt) := by
  unfold leadingElement at h
  split at h
  · rename_i hs
    simp only [Except.ok.injEq] at h
    exact .inl ⟨hs, h.symm⟩
  · unfold eiEncode at h
    split at h
    · simp at h
    · rename_i he
      split at he
      · simp at he
      · rename_i hl
        simp only [Except.ok.injEq] at h he
        subst he
        exact .inr ⟨by simpa using hl, h.symm⟩

/-- What ADV_BUILD's first part asks and keeps (44_adv_build.md R237-R239). -/
theorem buildStart_ask {s : State} {r : Request} {w : Work} (h : buildStart s = .ask r w) :
    arg0 s = s.cfg.supportedVersion ∧ (arg1 s = 2 ∨ arg1 s = 16) ∧
    ∃ lead, leadingElement s.cfg (saltBytes s (arg1 s)) = .ok lead ∧
      r = nonceRequest s.cfg (arg1 s == saltLong) (saltBytes s (arg1 s)) ∧
      w = { s.work with pos := .nonce, salt := saltBytes s (arg1 s), lead := lead } := by
  unfold buildStart at h
  simp only at h
  split_ifs at h with h1 h2
  split at h
  · simp at h
  · rename_i lead hl
    simp only [Action.ask.injEq] at h
    exact ⟨by simpa using h1, by simp only [saltShort, saltLong] at h2; omega, lead, hl, h.1.symm, h.2.symm⟩

/-- What ADV_BUILD asks and keeps after its nonce (44_adv_build.md R239-R241). -/
theorem buildAfterNonce_ask {s : State} {a : Response} {r : Request} {w : Work} (h : buildAfterNonce s a = .ask r w) :
    nonceRefused a = false ∧ arg2 s ∈ s.cfg.identityTypes ∧ arg3 s ≤ inLen s ∧
    (∃ es, scanElements s.cfg (inputBytes s) (arg3 s) (inLen s) .extras = .ok es) ∧
    (buildPlaintext s.cfg (idkeyBytes s) (inputBytes s) (arg3 s)).length ≤ sectionMax ∧
    r = .encrypt (buildPlaintext s.cfg (idkeyBytes s) (inputBytes s) (arg3 s)) a.data (keyBytes s) ∧
    w = { s.work with
      pos := .encrypt
      nonce := a.data
      idType := arg2 s
      idh := hdrEncode (arg2 s) idLen
      cursor := arg3 s
      plaintext := buildPlaintext s.cfg (idkeyBytes s) (inputBytes s) (arg3 s) } := by
  unfold buildAfterNonce at h
  simp only at h
  split at h
  · simp at h
  rename_i h1
  split at h
  · simp at h
  rename_i h2
  split at h
  · simp at h
  rename_i h3
  split at h
  · simp at h
  split at h
  · simp at h
  rename_i h4
  simp only [Action.ask.injEq] at h
  exact ⟨by simpa using h1, by simpa using h2, by omega, ⟨_, ‹_›⟩, by omega, h.1.symm, h.2.symm⟩

/-- What ADV_BUILD asks and keeps after its ciphertext (44_adv_build.md R242-R244). -/
theorem buildAfterEncrypt_ask {s : State} {a : Response} {r : Request} {w : Work} (h : buildAfterEncrypt s a = .ask r w) :
    a.ok = true ∧ sectionLength s.cfg s.work.lead s.work.idh a.data ≤ sectionMax ∧
    r = .sign
      (authBytes s.cfg (headerByte s.cfg) (byteOf (sectionLength s.cfg s.work.lead s.work.idh a.data)) s.work.lead
        s.work.nonce s.work.idh a.data)
      (keyBytes s) ∧
    w = { s.work with
      pos := .sign
      ciphertext := a.data
      out := [headerByte s.cfg, byteOf (sectionLength s.cfg s.work.lead s.work.idh a.data)] ++ s.work.lead ++
        s.work.idh ++ a.data } := by
  unfold buildAfterEncrypt at h
  simp only at h
  split_ifs at h with h1 h2
  simp only [Action.ask.injEq] at h
  exact ⟨by simpa using h1, by omega, h.1.symm, h.2.symm⟩

/-! ### ADV_PARSE -/

/-- Where the step of ADV_PARSE that asks stands. -/
theorem parseAction_ask {s : State} {r : Request} {w : Work} (h : parseAction s = some (.ask r w)) :
    (s.work.pos = .start ∧ inLen s ≤ ibufBytes ∧ parseStart s = .ask r w) ∨
    (∃ a, s.work.pos = .nonce ∧ s.work.answer = some a ∧ parseAfterNonce s a = .ask r w) ∨
    (∃ a, s.work.pos = .decrypt ∧ s.work.answer = some a ∧ parseAfterDecrypt s a = .ask r w) ∨
    (∃ a, s.work.pos = .hash ∧ s.work.answer = some a ∧ parseAfterHash s a = .ask r w) := by
  unfold parseAction at h
  split at h
  · rename_i hp
    simp only [Option.some.injEq] at h
    obtain ⟨h1, h2⟩ := commonChecks_ask h
    exact .inl ⟨hp, h1, h2⟩
  · exact .inr (.inl ⟨_, ‹_›, ‹_›, by simpa using h⟩)
  · exact .inr (.inr (.inl ⟨_, ‹_›, ‹_›, by simpa using h⟩))
  · exact .inr (.inr (.inr ⟨_, ‹_›, ‹_›, by simpa using h⟩))
  · simp only [Option.some.injEq, parseAfterVerify] at h
    split at h
    · simp at h
    · split at h <;> simp at h
  · simp at h

/-- What ADV_PARSE's first part asks and keeps (45_adv_parse.md R262-R264). -/
theorem parseStart_ask {s : State} {r : Request} {w : Work} (h : parseStart s = .ask r w) :
    2 ≤ inLen s ∧ inLen s ≤ sectionMax + 2 ∧ versionOf (byteAt (inputBytes s) 0) = s.cfg.supportedVersion ∧
    ∃ hd l salt, hdrDecode (inputBytes s) 2 (inLen s) = some hd ∧ leadingLength s.cfg hd.typ = some l ∧ hd.length = l ∧
      2 + hd.n + hd.length ≤ inLen s ∧
      leadingSalt s.cfg hd.typ (slice (inputBytes s) (2 + hd.n) (2 + hd.n + hd.length)) = .ok salt ∧
      r = nonceRequest s.cfg (hd.typ != s.cfg.tSalt) salt ∧
      w = { s.work with
        pos := .nonce
        salt := salt
        lead := slice (inputBytes s) 2 (2 + hd.n + hd.length)
        cursor := 2 + hd.n + hd.length } := by
  unfold parseStart at h
  simp only at h
  split_ifs at h with h1 h2 h3 h4 h5
  unfold parseLead at h
  simp only at h
  split at h
  · simp at h
  rename_i hd hhd
  split at h
  · simp at h
  rename_i l hl
  split_ifs at h with h6 h7
  split at h
  · simp at h
  rename_i salt hsalt
  simp only [Action.ask.injEq] at h
  exact ⟨by omega, by omega, by simpa using h2, hd, l, salt, hhd, hl, by simpa using h6, by omega, hsalt, h.1.symm, h.2.symm⟩

/-- What ADV_PARSE asks and keeps after its nonce (45_adv_parse.md R264-R266). -/
theorem parseAfterNonce_ask {s : State} {a : Response} {r : Request} {w : Work} (h : parseAfterNonce s a = .ask r w) :
    nonceRefused a = false ∧
    ∃ hd, hdrDecode (inputBytes s) s.work.cursor (inLen s) = some hd ∧ hd.typ ∈ s.cfg.identityTypes ∧ hd.length = idLen ∧
      s.cfg.sigLen ≤ inLen s - (s.work.cursor + hd.n) ∧
      r = .decrypt (slice (inputBytes s) (s.work.cursor + hd.n) (inLen s - s.cfg.sigLen)) a.data (keyBytes s) ∧
      w = { s.work with
        pos := .decrypt
        nonce := a.data
        idType := hd.typ
        idh := slice (inputBytes s) s.work.cursor (s.work.cursor + hd.n)
        cursor := s.work.cursor + hd.n
        ciphertext := slice (inputBytes s) (s.work.cursor + hd.n) (inLen s - s.cfg.sigLen)
        tag := slice (inputBytes s) (inLen s - s.cfg.sigLen) (inLen s) } := by
  unfold parseAfterNonce at h
  simp only at h
  split at h
  · simp at h
  rename_i h1
  split at h
  · simp at h
  rename_i hd hhd
  split_ifs at h with h2 h3 h4
  simp only [Action.ask.injEq] at h
  exact ⟨by simpa using h1, hd, hhd, by simpa using h2, by simpa using h3, by omega, h.1.symm, h.2.symm⟩

/-- What ADV_PARSE asks and keeps after its plaintext (45_adv_parse.md R266, R267). -/
theorem parseAfterDecrypt_ask {s : State} {a : Response} {r : Request} {w : Work} (h : parseAfterDecrypt s a = .ask r w) :
    a.ok = true ∧ idLen ≤ a.data.length ∧ r = .hash (a.data.take idLen) (keyBytes s) ∧
    w = { s.work with pos := .hash, plaintext := a.data } := by
  unfold parseAfterDecrypt at h
  split_ifs at h with h1 h2
  simp only [Action.ask.injEq] at h
  exact ⟨by simpa using h1, by omega, h.1.symm, h.2.symm⟩

/-- What ADV_PARSE asks and keeps after the expected tag (45_adv_parse.md R267, R268). -/
theorem parseAfterHash_ask {s : State} {a : Response} {r : Request} {w : Work} (h : parseAfterHash s a = .ask r w) :
    a.ok = true ∧ a.data = mktagBytes s ∧ r = .verify (observedAuthBytes s) (keyBytes s) s.work.tag ∧
    w = { s.work with pos := .verify, out := s.work.plaintext.take idLen ++ s.work.salt } := by
  unfold parseAfterHash at h
  split_ifs at h with h1 h2
  simp only [Action.ask.injEq] at h
  refine ⟨?_, by simpa using h2, h.1.symm, h.2.symm⟩
  simp only [not_or, Bool.not_eq_true', Bool.not_eq_false] at h1
  simpa using h1.1

/-! ### The step a failure is reported under -/

/-- The step number that an action reports is one of the source's, or 0 (60_exceptions.md R293). -/
def FailsWithinNine : Action → Prop
  | .fail _ k => k ≤ 9
  | _ => True
theorem commonChecks_stepLe {s : State} {a : Action} (h : FailsWithinNine a) : FailsWithinNine (commonChecks s a) := by
  unfold commonChecks
  split
  · simp [FailsWithinNine]
  · exact h

theorem buildAction_stepLe {s : State} {a : Action} (h : buildAction s = some a) : FailsWithinNine a := by
  unfold buildAction at h
  split at h <;> simp only [Option.some.injEq, reduceCtorEq] at h <;> subst h
  · apply commonChecks_stepLe; unfold buildStart; simp only
    repeat' split
    all_goals simp [FailsWithinNine]
  · unfold buildAfterNonce; simp only
    repeat' split
    all_goals simp [FailsWithinNine]
  · unfold buildAfterEncrypt; simp only
    repeat' split
    all_goals simp [FailsWithinNine]
  · unfold buildAfterSign; simp only
    repeat' split
    all_goals simp [FailsWithinNine]

theorem parseAction_stepLe {s : State} {a : Action} (h : parseAction s = some a) : FailsWithinNine a := by
  unfold parseAction at h
  split at h <;> simp only [Option.some.injEq, reduceCtorEq] at h <;> subst h
  · apply commonChecks_stepLe; unfold parseStart parseLead; simp only
    repeat' split
    all_goals simp [FailsWithinNine]
  · unfold parseAfterNonce; simp only
    repeat' split
    all_goals simp [FailsWithinNine]
  · unfold parseAfterDecrypt; simp only
    repeat' split
    all_goals simp [FailsWithinNine]
  · unfold parseAfterHash; simp only
    repeat' split
    all_goals simp [FailsWithinNine]
  · unfold parseAfterVerify; simp only
    repeat' split
    all_goals simp [FailsWithinNine, innerFailStep]
    all_goals split <;> simp

theorem codecAction_stepLe {s : State} :
    FailsWithinNine (hdrEncAction s) ∧ FailsWithinNine (hdrDecAction s) ∧ FailsWithinNine (eiEncAction s) ∧
    FailsWithinNine (eiDecAction s) ∧ FailsWithinNine (scanAction s) := by
  refine ⟨?_, ?_, ?_, ?_, ?_⟩
  · unfold hdrEncAction; simp only
    repeat' split
    all_goals simp [FailsWithinNine]
  · unfold hdrDecAction
    repeat' split
    all_goals simp [FailsWithinNine]
  · unfold eiEncAction
    repeat' split
    all_goals simp [FailsWithinNine]
  · unfold eiDecAction
    repeat' split
    all_goals simp [FailsWithinNine]
  · unfold scanAction
    repeat' split
    all_goals simp [FailsWithinNine]

/-- A command's step is one engine step, and a failure is reported under step 9 at most. -/
theorem exec_command_stepLe {i : Instr} {s t : State} (hi : i.position = .command) (h : exec i s = .next t) :
    ∃ a, t = perform a s ∧ FailsWithinNine a := by
  obtain ⟨h1, h2, h3, h4, h5⟩ := @codecAction_stepLe s
  have key (a : Action) (ha : FailsWithinNine a)
      (h : (.next (perform a s) : Host.Outcome State Fault Refusal) = .next t) :
      ∃ a, t = perform a s ∧ FailsWithinNine a :=
    ⟨a, by injection h with h; exact h.symm, ha⟩
  cases i <;> simp only [Instr.position, reduceCtorEq] at hi
  · exact key _ (commonChecks_stepLe h1) h
  · exact key _ (commonChecks_stepLe h2) h
  · exact key _ (commonChecks_stepLe h3) h
  · exact key _ (commonChecks_stepLe h4) h
  · exact key _ (commonChecks_stepLe h5) h
  · obtain ⟨b, hb, ht⟩ := performAt_next h; exact ⟨b, ht, buildAction_stepLe hb⟩
  · obtain ⟨b, hb, ht⟩ := performAt_next h; exact ⟨b, ht, parseAction_stepLe hb⟩
  · exact key illegalAction (by simp [illegalAction, FailsWithinNine]) h
  · exact key illegalAction (by simp [illegalAction, FailsWithinNine]) h
  · exact key illegalAction (by simp [illegalAction, FailsWithinNine]) h

end Sys2Proof.Machine
end

