-- ==== Sys2Proof/Laws/PerInstr.lean ====
section
/-! SUPPORT. A statement about every instruction as syntax: how long its encoding is (30_encoding.md R123, R125). -/

namespace Sys2Proof.Laws.EncodeSize

open Sys2Proof

/-- A command word is 4 bytes (R123), a header byte is 1. -/
def Statement (i : Instr) : Prop :=
  (encode i).length = if i.position = .command then 4 else 1

theorem hdrEnc : Statement .hdrEnc := rfl
theorem hdrDec : Statement .hdrDec := rfl
theorem eiEnc : Statement .eiEnc := rfl
theorem eiDec : Statement .eiDec := rfl
theorem scan : Statement .scan := rfl
theorem advBuild : Statement .advBuild := rfl
theorem advParse : Statement .advParse := rfl
theorem illegalZero (rsv : BitVec 28) : Statement (.illegalZero rsv) := rfl
theorem illegalHigh (op : BitVec 3) (rsv : BitVec 28) : Statement (.illegalHigh op rsv) := rfl
theorem illegalReserved (op : BitVec 3) (rsv : BitVec 28) : Statement (.illegalReserved op rsv) := rfl
theorem hdr1 (length : BitVec 3) (typ : BitVec 4) : Statement (.hdr1 length typ) := rfl
theorem hdrm (length : BitVec 7) : Statement (.hdrm length) := rfl
theorem groupCont (bits : BitVec 7) : Statement (.groupCont bits) := rfl
theorem groupFinal (bits : BitVec 7) : Statement (.groupFinal bits) := rfl

end Sys2Proof.Laws.EncodeSize
end

