-- ==== Sys2Proof/Laws/Runs.lean ====
section
/-! SUPPORT. Runs of a command whose requests are answered in turn, one round at a time. -/

namespace Sys2Proof.Machine

open Sys2Proof Sys2Proof.Safety

/-- An idle engine lets the events of a served run pass: after an answer, or from an engine step on. -/
theorem idle_run (rs : List Response) (e : Nat) {s : State} (hw : s.cfg.wf) (hp : s.phase = .idle)
    (hr : ∀ r ∈ rs, r.data.length ≤ cryRspMax) :
    runSteps (servedEvents e rs).length { s with events := servedEvents e rs } = .next { s with events := [] } := by
  have turn (es : List Event) : step { s with events := .engine :: es } = .next { s with events := es } := by
    rw [step_engine hw]
    exact engineStep_of_not_run (s := { s with events := es }) (by simp [hp])
  induction rs with
  | nil => exact runSteps_of_next (turn []) 0
  | cons r rs ih =>
    refine (runSteps_of_next (turn (.cryptor e r :: servedEvents e rs)) _).trans ?_
    refine (runSteps_of_next (step_cryptor hw (hr r (by simp)) e (servedEvents e rs)) _).trans ?_
    rw [takeAnswer_of_not_wait (s := { s with events := servedEvents e rs }) (by simp [hp])]
    exact ih (fun r' h => hr r' (by simp [h]))

/-- What a round of a served run comes to. -/
def roundEnd (s : State) (e : Nat) : Machine.Action → List Response → Host.Outcome State Fault Refusal
  | .ask r w, [] => .next (issueRequest r w { s with events := [] })
  | .ask _ w, r' :: rs =>
    runSteps (servedEvents e rs).length
      { s with phase := .run, pending := none, work := { w with answer := some r' }, events := servedEvents e rs }
  | .ok out r0 r1 r2 r3, _ => .next (commitOk out r0 r1 r2 r3 { s with events := [] })
  | .fail code k, _ => .next (commitFail code k { s with events := [] })

/-- One round of a served run: the command's step, and the answer to its request. -/
theorem served_round {s : State} (hw : s.cfg.wf) (hr : s.phase = .run) {i : Instr} (hi : fetchCommand s = i)
    {a : Machine.Action} (ha : ∀ es, exec i { s with events := es } = .next (perform a { s with events := es }))
    (rs : List Response) (h255 : ∀ r ∈ rs, r.data.length ≤ cryRspMax) :
    runSteps (servedEvents s.abandoned rs).length { s with events := servedEvents s.abandoned rs } =
      roundEnd s s.abandoned a rs := by
  have turn (es : List Event) : step { s with events := .engine :: es } = .next (perform a { s with events := es }) := by
    rw [step_engine hw, engineStep_of_run (s := { s with events := es }) hr, ← ha es]
    exact congrArg (fun i => exec i { s with events := es }) hi
  cases rs with
  | nil => exact (runSteps_of_next (turn []) 0).trans (by cases a <;> rfl)
  | cons r rs =>
    refine (runSteps_of_next (turn (.cryptor s.abandoned r :: servedEvents s.abandoned rs)) _).trans ?_
    have answer (t : State) (ht : t.cfg.wf) :=
      runSteps_of_next (step_cryptor ht (h255 r (by simp)) s.abandoned (servedEvents s.abandoned rs))
        (servedEvents s.abandoned rs).length
    cases a with
    | ask rq w =>
      refine (answer (issueRequest rq w s) hw).trans ?_
      exact congrArg (runSteps _)
        (takeAnswer_of_wait (s := { issueRequest rq w s with events := servedEvents s.abandoned rs }) rfl r)
    | ok out r0 r1 r2 r3 =>
      refine (answer (commitOk out r0 r1 r2 r3 s) hw).trans ?_
      refine (congrArg (runSteps _)
        (takeAnswer_of_not_wait (s := { commitOk out r0 r1 r2 r3 s with events := servedEvents s.abandoned rs }) (by simp) _
          _)).trans ?_
      exact idle_run rs s.abandoned (s := commitOk out r0 r1 r2 r3 s) hw rfl (fun r' h => h255 r' (by simp [h]))
    | fail code k =>
      refine (answer (commitFail code k s) hw).trans ?_
      refine (congrArg (runSteps _)
        (takeAnswer_of_not_wait (s := { commitFail code k s with events := servedEvents s.abandoned rs }) (by simp) _
          _)).trans ?_
      exact idle_run rs s.abandoned (s := commitFail code k s) hw rfl (fun r' h => h255 r' (by simp [h]))

end Sys2Proof.Machine
end

