-- ==== Sys2Proof/Laws/Scanner.lean ====
section
/-! SUPPORT. The scanner's loop: enough rounds are as good as any number, and what one round finds. -/

namespace Sys2Proof.Machine

open Sys2Proof

theorem scanLoop_end (c : Params) (rs : RuleSet) (buf : List Byte) (fin rounds pos : Nat) (h : fin ≤ pos) :
    scanLoop c rs buf fin rounds pos = .ok [] := by
  cases rounds with
  | zero => rfl
  | succ n => simp only [scanLoop, if_neg (by omega : ¬pos < fin)]

/-- Any two numbers of rounds that are large enough give the same scan. -/
theorem scanLoop_rounds (c : Params) (rs : RuleSet) (buf : List Byte) (fin : Nat) (r₁ r₂ pos : Nat)
    (h₁ : fin - pos ≤ r₁) (h₂ : fin - pos ≤ r₂) : scanLoop c rs buf fin r₁ pos = scanLoop c rs buf fin r₂ pos := by
  induction r₁ generalizing r₂ pos with
  | zero => rw [scanLoop_end _ _ _ _ _ _ (by omega), scanLoop_end _ _ _ _ _ _ (by omega)]
  | succ n ih =>
    by_cases hp : pos < fin
    · obtain ⟨m, rfl⟩ : ∃ m, r₂ = m + 1 := ⟨r₂ - 1, by omega⟩
      simp only [scanLoop, if_pos hp]
      split
      · rfl
      · rename_i h hd
        have := (hdrDecode_bounds hd).2.2.1
        rw [ih m (pos + h.n + h.length) (by omega) (by omega)]
    · rw [scanLoop_end _ _ _ _ _ _ (by omega), scanLoop_end _ _ _ _ _ _ (by omega)]

/-- The errors a rule set raises. -/
theorem checkElement_codes {c : Params} {rs : RuleSet} {t l : Nat} {code : ErrorCode}
    (h : checkElement c rs t l = some code) :
    code = .structuralDuplicate ∨ code = .invalidActionLength ∧ rs = .inner ∨ code = .invalidElementType ∧ rs = .extras := by
  cases rs with
  | plain => simp [checkElement] at h
  | inner => simp only [checkElement] at h; split_ifs at h <;> simp_all
  | extras =>
    simp only [checkElement] at h
    split at h
    · simp_all
    · split at h <;> simp_all

/-- One round of a scan that succeeds. -/
theorem scanLoop_ok {c : Params} {rs : RuleSet} {buf : List Byte} {fin rounds pos : Nat} {es : List Entry}
    (h : scanLoop c rs buf fin (rounds + 1) pos = .ok es) :
    fin ≤ pos ∧ es = [] ∨
    pos < fin ∧ ∃ hd es', hdrDecode buf pos fin = some hd ∧ pos + hd.n + hd.length ≤ fin ∧
      checkElement c rs hd.typ hd.length = none ∧ scanLoop c rs buf fin rounds (pos + hd.n + hd.length) = .ok es' ∧
      es = { typ := hd.typ, length := hd.length, n := hd.n, voff := pos + hd.n } :: es' := by
  simp only [scanLoop] at h
  split at h
  · rename_i hp
    split at h
    · simp at h
    · rename_i hd hhd
      split at h
      · simp at h
      · rename_i hfit
        split at h
        · simp at h
        · rename_i hck
          split at h
          · simp at h
          · rename_i es' hes
            simp only [Except.ok.injEq] at h
            exact .inr ⟨hp, hd, es', hhd, by omega, hck, hes, h.symm⟩
  · simp only [Except.ok.injEq] at h
    exact .inl ⟨by omega, h.symm⟩

/-- Every entry of a scan lies in the stream, passes the rule set, and stands where its header is decoded. -/
theorem scanLoop_entries {c : Params} {rs : RuleSet} {buf : List Byte} {fin rounds pos : Nat} {es : List Entry}
    (h : scanLoop c rs buf fin rounds pos = .ok es) :
    ∀ e ∈ es, pos + e.n ≤ e.voff ∧ e.voff + e.length ≤ fin ∧ 1 ≤ e.n ∧ e.n ≤ 4 ∧ e.typ < typeLimit ∧ e.length < lenLimit ∧
      checkElement c rs e.typ e.length = none ∧
      hdrDecode buf (e.voff - e.n) fin = some { typ := e.typ, length := e.length, n := e.n } := by
  induction rounds generalizing pos es with
  | zero => simp only [scanLoop, Except.ok.injEq] at h; subst h; simp
  | succ rounds ih =>
    rcases scanLoop_ok h with ⟨-, rfl⟩ | ⟨hp, hd, es', hhd, hfit, hck, hes, rfl⟩
    · simp
    · intro e he
      have hb := hdrDecode_bounds hhd
      rcases List.mem_cons.1 he with rfl | he
      · simp only
        rw [Nat.add_sub_cancel]
        exact ⟨by omega, by omega, by omega, by omega, hb.2.1, hb.1, hck, hhd⟩
      · obtain ⟨h1, h2⟩ := ih hes e he
        exact ⟨by omega, h2⟩

/-- The elements of a scan fill the stream. -/
theorem scanLoop_sum {c : Params} {rs : RuleSet} {buf : List Byte} {fin rounds pos : Nat} {es : List Entry}
    (hr : fin - pos ≤ rounds) (hp : pos ≤ fin) (h : scanLoop c rs buf fin rounds pos = .ok es) :
    (es.map (fun e => e.n + e.length)).sum = fin - pos := by
  induction rounds generalizing pos es with
  | zero => simp only [scanLoop, Except.ok.injEq] at h; subst h; simp; omega
  | succ rounds ih =>
    rcases scanLoop_ok h with ⟨hf, rfl⟩ | ⟨-, hd, es', hhd, hfit, hck, hes, rfl⟩
    · simp; omega
    · have hb := hdrDecode_bounds hhd
      rw [List.map_cons, List.sum_cons, ih (by omega) (by omega) hes]
      simp only
      omega

/-- Each element takes at least one byte, so there are no more of them than bytes. -/
theorem scanLoop_length {c : Params} {rs : RuleSet} {buf : List Byte} {fin rounds pos : Nat} {es : List Entry}
    (hp : pos ≤ fin) (h : scanLoop c rs buf fin rounds pos = .ok es) : es.length ≤ fin - pos := by
  induction rounds generalizing pos es with
  | zero => simp only [scanLoop, Except.ok.injEq] at h; subst h; simp
  | succ rounds ih =>
    rcases scanLoop_ok h with ⟨-, rfl⟩ | ⟨hp, hd, es', hhd, hfit, hck, hes, rfl⟩
    · simp
    · have hb := hdrDecode_bounds hhd
      have := ih (by omega) hes
      rw [List.length_cons]
      omega

end Sys2Proof.Machine
end

