-- ==== Sys2Proof/Tests/Slice0.lean ====
section
/-! SUPPORT. Tests of the model: smoke tests of the well-formedness checks, words decoded bit by bit, one or two steps of each
instruction from the vectors of 95_test_vectors.md, and, for each statement with hypotheses, a state and operands that meet
them. -/

namespace Sys2Proof.Tests

open Sys2Proof Sys2Proof.Machine Sys2Proof.Safety

/-! ## Helpers -/

/-- The default parameters with values of the test's own for the two that are OPEN. -/
def params : Params := { Params.default with baseIndex := 0, nonceOffset := [5] }

/-- The machine after reset with the test's parameters. -/
def idle : State := { State.reset with cfg := params }

/-- A machine with `IBUF` and `IN_LEN` set, and a command word accepted with given `ARG0` to `ARG3`. -/
def accepted (w : Word) (a0 a1 a2 a3 : Word) (input : List Byte) : State :=
  accept w
    { idle with
      arg0 := a0, arg1 := a1, arg2 := a2, arg3 := a3
      inLen := BitVec.ofNat 10 input.length
      mem := Memory.store [] ibufOff input }

/-- A machine in the middle of a frame command: just past a request, with its answer. -/
def answered (w : Word) (work : Work) (r : Response) (input : List Byte) : State :=
  { accepted w 1 2 1 0 input with work := { work with answer := some r } }

/-- What a completed command shows: `STATUS`, `OBUF[0..OUT_LEN)` and the result registers. -/
def shown (o : Host.Outcome State Fault Refusal) : Option (Word × List Byte × List Word) :=
  match o with
  | .next t =>
    some (statusWord t.status, Memory.bytes t.mem obufOff t.outLen.toNat, [t.res0, t.res1, t.res2, t.res3])
  | .fault _ => none
  | .refused _ => none

/-- The request that a step leaves pending. -/
def asked (o : Host.Outcome State Fault Refusal) : Option Request :=
  match o with
  | .next t => t.pending
  | .fault _ => none
  | .refused _ => none

/-! ## Well-formedness -/

theorem test_wf_refuses_reserved_row_without_op : Instr.wf (.illegalReserved 0 1) = false := by decide
theorem test_wf_refuses_reserved_row_without_rsv : Instr.wf (.illegalReserved 1 0) = false := by decide
theorem test_wf_accepts_reserved_row : Instr.wf (.illegalReserved 7 1) = true := by decide
theorem test_params_wf : params.wf := by decide
theorem test_params_refuse_shared_type : ¬Params.wf { params with tAction := 16 } := by decide
theorem test_params_refuse_type_at_limit : ¬Params.wf { params with tAction := 2097152 } := by decide
theorem test_params_refuse_no_identity : ¬Params.wf { params with identityTypes := [] } := by decide
theorem test_params_refuse_equal_schemes : ¬Params.wf { params with schemeSignature := 0 } := by decide
theorem test_params_refuse_scheme_16 : ¬Params.wf { params with schemeSignature := 16 } := by decide
theorem test_params_refuse_version_8 : ¬Params.wf { params with supportedVersion := 8 } := by decide
theorem test_params_refuse_sig_65 : ¬Params.wf { params with sigLen := 65 } := by decide
theorem test_params_refuse_mktag_33 : ¬Params.wf { params with mktagLen := 33 } := by decide
theorem test_params_refuse_proto_3 : ¬Params.wf { params with protoConst := [1, 2, 3] } := by decide
theorem test_step_refuses_bad_configuration :
    step { idle with cfg := { params with sigLen := 0 } } = .refused .invalidConfiguration :=
  step_of_not_wf (by decide)

/-! ## Decoding: words written out from 30_encoding.md R121, R122 and R126-R128, least significant byte first -/

theorem test_decode_hdrEnc : decode .command [0b00000001#8, 0, 0, 0] = .ok .hdrEnc := by decide
theorem test_decode_hdrDec : decode .command [0b00000010#8, 0, 0, 0] = .ok .hdrDec := by decide
theorem test_decode_eiEnc : decode .command [0b00000011#8, 0, 0, 0] = .ok .eiEnc := by decide
theorem test_decode_eiDec : decode .command [0b00000100#8, 0, 0, 0] = .ok .eiDec := by decide
theorem test_decode_scan : decode .command [0b00000101#8, 0, 0, 0] = .ok .scan := by decide
theorem test_decode_advBuild : decode .command [0b00000110#8, 0, 0, 0] = .ok .advBuild := by decide
theorem test_decode_advParse : decode .command [0b00000111#8, 0, 0, 0] = .ok .advParse := by decide
theorem test_decode_illegalZero : decode .command [0b00010000#8, 0, 0, 0] = .ok (.illegalZero 1) := by decide
theorem test_decode_illegalHigh : decode .command [0b00001001#8, 0, 0, 0] = .ok (.illegalHigh 1 0) := by decide
theorem test_decode_illegalReserved :
    decode .command [0b00000111#8, 0, 0, 0b10000000#8] = .ok (.illegalReserved 7 0x8000000) := by decide
theorem test_decode_hdr1 : decode .headerStart [0b01010011#8] = .ok (.hdr1 5 3) := by decide
theorem test_decode_hdrm : decode .headerStart [0b10001010#8] = .ok (.hdrm 10) := by decide
theorem test_decode_groupCont : decode .headerGroup [0b10000001#8] = .ok (.groupCont 1) := by decide
theorem test_decode_groupFinal : decode .headerGroup [0b00010100#8] = .ok (.groupFinal 20) := by decide
theorem test_decode_refuses_three_bytes : decode .command [1, 0, 0] = .error .wrongLength := by decide
theorem test_table_word_header : decodeTableWord 8 0x53 = some (.hdr1 5 3) := by decide
theorem test_table_word_command : decodeTableWord 32 0x53 = some (.illegalReserved 3 5) := by decide
theorem test_table_word_op_only : decodeTableWord 8 0x9 = some (.illegalHigh 1 0) := by decide

/-! ## Instructions -/

/-- Vector HE14: type 16384, length 0 is `80 81 80 00`. -/
theorem test_hdrEnc_four_bytes :
    shown (exec .hdrEnc (accepted 1 16384 0 0 0 [])) = some (0x2, [0x80, 0x81, 0x80, 0x00], [4, 0x00808180, 0, 0]) := by
  decide
/-- Vector HE16. -/
theorem test_hdrEnc_type_too_large : shown (exec .hdrEnc (accepted 1 0x200000 0 0 0 [])) = some (0x0F04, [], [0, 0, 0, 0]) := by
  decide
/-- Vector HD11. -/
theorem test_hdrDec_longest :
    shown (exec .hdrDec (accepted 2 0 0 0 0 [0xFF, 0xFF, 0xFF, 0x7F])) = some (0x2, [], [2097151, 127, 4, 0]) := by
  decide
/-- Vector HD6. -/
theorem test_hdrDec_unfinished : shown (exec .hdrDec (accepted 2 0 0 0 0 [0x8A, 0x94])) = some (0x0104, [], [0, 0, 0, 0]) := by
  decide
/-- Vector EE6. -/
theorem test_eiEnc_masks_scheme :
    shown (exec .eiEnc (accepted 3 0x12 0 0 0 (List.replicate 16 0xAA))) =
      some (0x2, 0x10 :: List.replicate 16 0xAA, [0, 0, 0, 0]) := by decide
/-- Vector EE9. -/
theorem test_eiEnc_short_salt :
    shown (exec .eiEnc (accepted 3 1 0 0 0 (List.replicate 15 0xAA))) = some (0x0304, [], [0, 0, 0, 0]) := by decide
/-- Vector ED6: bits 7 and 2:0 of byte 0 are ignored. -/
theorem test_eiDec_ignores_bits :
    shown (exec .eiDec (accepted 4 0 0 0 0 (0x8F :: List.replicate 16 0x11))) =
      some (0x2, List.replicate 16 0x11, [1, 0, 0, 0]) := by decide
/-- Vector ED7. -/
theorem test_eiDec_bad_scheme :
    shown (exec .eiDec (accepted 4 0 0 0 0 (0x10 :: List.replicate 16 0x11))) = some (0x0504, [], [0, 0, 0, 0]) := by
  decide
/-- Vector SC1. -/
theorem test_scan_inner :
    shown (exec .scan (accepted 5 0 1 0 0 [0x16, 0x05, 0x57, 1, 2, 3, 4, 5])) =
      some (0x2, [6, 0, 0, 0, 1, 1, 1, 0, 7, 0, 0, 0, 5, 1, 3, 0], [2, 8, 0, 0]) := by decide
/-- Vector SC18: the first bad element wins. -/
theorem test_scan_first_failure_wins :
    shown (exec .scan (accepted 5 0 1 0 0 [0x26, 0x01, 0x02, 0x81])) = some (0x0B04, [], [0, 0, 0, 0]) := by decide
/-- Vector L1.3: the nonce request of a short salt has no offset. -/
theorem test_advBuild_asks_nonce : asked (exec .advBuild (accepted 6 1 2 1 0 [])) = some (.nonce [0, 0] none) := by
  decide
/-- Vector L1.3: the frame is committed with its tag. -/
theorem test_advBuild_commits :
    shown (exec .advBuild
      (answered 6
        { Work.empty with
          pos := .sign, lead := [0x20, 1, 2], idh := [0x90, 1], ciphertext := List.replicate 16 0,
          out := [0x20, 0x25, 0x20, 1, 2, 0x90, 1] ++ List.replicate 16 0 }
        { ok := true, data := List.replicate 16 0 } [])) =
      some (0x2, [0x20, 0x25, 0x20, 1, 2, 0x90, 1] ++ List.replicate 32 0, [37, 0, 0, 0]) := by decide
/-- Vector L1.3: the salt of the leading element. -/
theorem test_advParse_asks_nonce :
    asked (exec .advParse (accepted 7 0 0 0 0 ([0x20, 0x25, 0x20, 1, 2, 0x90, 1] ++ List.replicate 32 0))) =
      some (.nonce [1, 2] none) := by decide
/-- Step 9: an ACTION of length 2 is reported under step 9 (45_adv_parse.md R269). -/
theorem test_advParse_action_length :
    shown (exec .advParse
      (answered 7 { Work.empty with pos := .verify, plaintext := List.replicate 16 0 ++ [0x26, 1, 2] }
        { ok := true, data := [] } [0x20])) = some (0x90B04, [], [0, 0, 0, 0]) := by decide
/-- Vector LC1. -/
theorem test_illegalZero : shown (exec (.illegalZero 0) (accepted 0 0 0 0 0 [])) = some (0x1004, [], [0, 0, 0, 0]) := by
  decide
/-- Vector LC6: the command check comes before the check of IN_LEN. -/
theorem test_illegalHigh_before_length :
    shown (exec (.illegalHigh 1 0) { accepted 9 0 0 0 0 [] with inLen := 1023 }) = some (0x1004, [], [0, 0, 0, 0]) := by
  decide
/-- Vector LC4. -/
theorem test_illegalReserved :
    shown (exec (.illegalReserved 7 0x8000000) (accepted 0x80000007 0 0 0 0 [])) = some (0x1004, [], [0, 0, 0, 0]) := by
  decide
theorem test_hdr1_ends_header :
    exec (.hdr1 5 3) idle = .next { idle with work := { Work.empty with hdr := .done 5 3 1 } } := rfl
theorem test_hdrm_opens_header :
    exec (.hdrm 10) idle = .next { idle with work := { Work.empty with hdr := .groups 10 0 0 } } := rfl
theorem test_groupCont_third_group_is_refused :
    exec (.groupCont 127) { idle with work := { Work.empty with hdr := .groups 1 5 2 } } =
      .next { idle with work := { Work.empty with hdr := .malformed } } := rfl
theorem test_groupFinal_ends_header :
    exec (.groupFinal 20) { idle with work := { Work.empty with hdr := .groups 10 1 1 } } =
      .next { idle with work := { Work.empty with hdr := .done 10 148 3 } } := rfl

/-! ## Witnesses: for each statement with hypotheses, operands and a state that meet them -/

theorem test_witness_DecodeRecoversEncodedInstruction : Instr.wf (.illegalReserved 7 0xFFFFFFF) = true := by decide

theorem test_witness_HeaderInverseLaw :
    (15 < typeLimit ∧ 7 < lenLimit) ∧ (2097151 < typeLimit ∧ 127 < lenLimit) ∧
    hdrEncode 2097151 127 = hdrEncode 2097151 127 := by decide

theorem test_witness_DecodedHeaderDependsOnItsOwnBytes :
    hdrDecode [0x00, 0x85, 0x83, 0x00] 1 4 = some { typ := 384, length := 5, n := 3 } ∧ 1 + 3 ≤ 4 ∧
    ∀ i, 1 ≤ i → i < 1 + 3 → [0xFF, 0x85, 0x83, 0x00, 0x77][i]? = ([0x00, 0x85, 0x83, 0x00] : List Byte)[i]? := by
  refine ⟨by decide, by decide, fun i h1 h2 => ?_⟩
  rcases (by omega : i = 1 ∨ i = 2 ∨ i = 3) with rfl | rfl | rfl <;> rfl

theorem test_witness_CanonicalHeaderIsShortest :
    hdrDecode [0x80, 0x80, 0x05] 0 3 = some { typ := 5, length := 0, n := 3 } := by decide

theorem test_witness_HeaderDecoderReadsExactlyItsHeaders :
    idle.cfg.wf ∧ idle.work.hdr = .start ∧ 2097151 < typeLimit ∧ 127 < lenLimit ∧
    headerRead [0x73] 0 1 = some { typ := 3, length := 7, n := 1 } ∧
    headerRead [0x85, 0x03] 0 2 = some { typ := 3, length := 5, n := 2 } ∧
    headerRead [0x80, 0x80, 0x05] 0 3 = some { typ := 5, length := 0, n := 3 } ∧
    headerRead [0xFF, 0xFF, 0xFF, 0x7F] 0 4 = some { typ := 2097151, length := 127, n := 4 } ∧
    128 ≤ (0x80 : Byte).toNat ∧ 128 ≤ (0xFF : Byte).toNat := by decide

theorem test_witness_HeaderByteInstructionsComplete :
    { idle with work := { Work.empty with hdr := .groups 10 1 2 } }.work.hdr = .groups 10 1 2 ∧
    ∀ l t g, idle.work.hdr ≠ .groups l t g := by
  refine ⟨rfl, fun l t g h => ?_⟩
  cases h

theorem test_witness_EncryptionInfoInverseLaw : params.wf ∧ 15 < 16 ∧ (List.replicate 16 (0 : Byte)).length = 16 := by decide

theorem test_witness_ScannedElementsFillTheStream :
    0 ≤ 4 ∧ scanElements params [0x16, 0x05, 0x17, 0x01] 0 4 .inner =
      .ok [{ typ := 6, length := 1, n := 1, voff := 1 }, { typ := 7, length := 1, n := 1, voff := 3 }] := by decide

/-- A scan of two elements from `ARG0` = 1, with the rule set `INNER`. -/
def scanning : State := accepted 5 1 1 0 0 [0x00, 0x16, 0x05, 0x17, 0x01]

theorem test_witness_ScanTableEntryLayout :
    inLen scanning ≤ 512 ∧ scanning.latch.arg1.toNat < 2 ∧ scanning.latch.arg0.toNat ≤ inLen scanning ∧
    scanElements scanning.cfg (inputBytes scanning) scanning.latch.arg0.toNat (inLen scanning)
        (if scanning.latch.arg1 = 1 then .inner else .plain) =
      .ok [{ typ := 6, length := 1, n := 1, voff := 2 }, { typ := 7, length := 1, n := 1, voff := 4 }] ∧
    ∃ t, exec .scan scanning = .next t :=
  ⟨by decide, by decide, by decide, by decide, _, rfl⟩

theorem test_witness_IllegalCommandOutcome :
    ¬IsCommandWord 8 ∧ IsCommandWord 7 ∧ IsIllegal (.illegalZero 1) ∧ IsIllegal (.illegalHigh 7 0) ∧
    IsIllegal (.illegalReserved 1 1) := by
  refine ⟨by unfold IsCommandWord; decide, by unfold IsCommandWord; decide, .inl ⟨_, rfl⟩, .inr (.inl ⟨_, _, rfl⟩),
    .inr (.inr ⟨_, _, rfl⟩)⟩

/-- A command accepted with `IN_LEN` = 513. -/
def tooLong : State := accept 6 { idle with inLen := 513 }

theorem test_witness_CommonChecksComeFirst :
    tooLong.work.pos = .start ∧ ¬IsCommandWord 0 ∧ IsCommandWord 6 ∧ inLen tooLong > 512 := by
  refine ⟨rfl, by unfold IsCommandWord; decide, by unfold IsCommandWord; decide, by decide⟩

/-- ADV_BUILD accepted with a short salt, identity type 1 and one action. -/
def building : State := accepted 6 1 2 1 1 [0x33]

/-- ADV_PARSE accepted with the frame of vector L1.3. -/
def parsing : State := accepted 7 0 0 0 0 ([0x20, 0x25, 0x20, 1, 2, 0x90, 1] ++ List.replicate 32 0)

theorem test_witness_BuildRunCommitsItsPseudocode :
    Accepted building ∧ fetchCommand building = .advBuild ∧ ({ ok := true, data := [1, 2] } : Response).data.length ≤ 255 :=
  ⟨⟨by decide, rfl, rfl⟩, by decide, by decide⟩

theorem test_witness_ParseRunCommitsItsPseudocode :
    Accepted parsing ∧ fetchCommand parsing = .advParse ∧ ({ ok := true, data := [1, 2] } : Response).data.length ≤ 255 :=
  ⟨⟨by decide, rfl, rfl⟩, by decide, by decide⟩

/-- ADV_PARSE accepted with a frame that an encryption-info element with the given byte 0 leads. -/
def parsingExtended (b : Byte) : State :=
  accepted 7 0 0 0 0 ([0x20, 0x13, 0x91, 0x10, b] ++ List.replicate 16 7)

theorem test_witness_FrameCommandsAskForTheirNonce :
    (building.work.pos = .start ∧ inLen building ≤ 512 ∧ building.latch.arg0.toNat = building.cfg.supportedVersion ∧
      building.latch.arg1 = 2) ∧
    (accepted 6 1 16 1 0 []).latch.arg1 = 16 ∧
    (parsing.work.pos = .start ∧ 2 ≤ inLen parsing ∧ inLen parsing ≤ 257 ∧
      (byteAt (inputBytes parsing) 0).toNat / 32 = parsing.cfg.supportedVersion ∧
      (byteAt (inputBytes parsing) 1).toNat = inLen parsing - 2 ∧
      hdrDecode (inputBytes parsing) 2 (inLen parsing) = some { typ := params.tSalt, length := 2, n := 1 }) := by decide

/-- The clause of the encryption-info element, with the scheme byte of either valid scheme. -/
theorem test_witness_FrameCommandsAskForTheirNonce_extended : ∀ b ∈ [(0x00 : Byte), 0x08],
    (byteAt (inputBytes (parsingExtended b)) 1).toNat = inLen (parsingExtended b) - 2 ∧
    hdrDecode (inputBytes (parsingExtended b)) 2 (inLen (parsingExtended b)) =
      some { typ := params.tEi, length := 17, n := 2 } ∧
    2 + 2 + 17 ≤ inLen (parsingExtended b) ∧ params.tEi ≠ params.tSalt ∧
    ((byteAt (inputBytes (parsingExtended b)) (2 + 2)).toNat / 8 % 16 = params.schemeMic ∨
      (byteAt (inputBytes (parsingExtended b)) (2 + 2)).toNat / 8 % 16 = params.schemeSignature) := by decide

/-- ADV_BUILD at its last step, with a tag of `SIG_LEN` bytes. -/
def signed : State := answered 6 { Work.empty with pos := .sign } { ok := true, data := List.replicate 16 0 } []

theorem test_witness_BuildCompletesWithItsTag :
    signed.work.pos = .sign ∧ signed.work.answer = some { ok := true, data := List.replicate 16 0 } := by decide

/-- ADV_PARSE at its last step, with a plaintext whose inner elements are given. -/
def verified (ok : Bool) (elements : List Byte) : State :=
  answered 7 { Work.empty with pos := .verify, plaintext := List.replicate 16 0 ++ elements } { ok := ok, data := [] } [0x20]

theorem test_witness_ParseEndsWithItsVerification :
    ((verified false []).work.pos = .verify ∧ (verified false []).work.answer = some { ok := false, data := [] }) ∧
    (scanElements params (verified true [0x26, 1, 2]).work.plaintext 16 19 .inner = .error .invalidActionLength) ∧
    (scanElements params (verified true [0x80]).work.plaintext 16 17 .inner = .error .malformedHeader) ∧
    (scanElements params (verified true [0x16, 9]).work.plaintext 16 18 .inner =
      .ok [{ typ := 6, length := 1, n := 1, voff := 17 }]) := by decide

/-- A frame command just past a request, with an answer. -/
def past (w : Word) (p : Position) (r : Response) : State := answered w { Work.empty with pos := p } r []

theorem test_witness_NonceAnswerIsClassified :
    ((past 6 .nonce { ok := true, data := List.replicate 33 0 }).work.pos = .nonce) ∧
    (past 6 .nonce { ok := true, data := List.replicate 32 0 }).work.answer = some { ok := true, data := List.replicate 32 0 } ∧
    ∃ t, exec .advBuild { past 6 .nonce { ok := true, data := List.replicate 32 0 } with
      latch := { Latch.empty with arg2 := 1 } } = .next t ∧ t.phase = .wait :=
  ⟨by decide, by decide, _, rfl, by decide⟩

/-- ADV_PARSE with its nonce, before an identity header with exactly `SIG_LEN` bytes after it, the fewest that go on. -/
def headed : State :=
  answered 7 { Work.empty with pos := .nonce, cursor := 5 } { ok := true, data := [] }
    ([0x20, 0x15, 0x20, 1, 2, 0x90, 1] ++ List.replicate 16 0)

theorem test_witness_NonceAnswerIsClassified_parse :
    hdrDecode (inputBytes headed) headed.work.cursor (inLen headed) = some { typ := 1, length := 16, n := 2 } ∧
    1 ∈ headed.cfg.identityTypes ∧ headed.cfg.sigLen = inLen headed - (headed.work.cursor + 2) ∧
    ∃ t, exec .advParse headed = .next t ∧ t.phase = .wait := ⟨by decide, by decide, by decide, _, rfl, by decide⟩

theorem test_witness_EncryptAnswerIsClassified :
    (past 6 .encrypt { ok := true, data := [1] }).work.pos = .encrypt ∧
    (past 6 .encrypt { ok := true, data := [1] }).work.answer = some { ok := true, data := [1] } := by decide

theorem test_witness_DecryptAnswerIsClassified :
    (past 7 .decrypt { ok := true, data := List.replicate 16 0 }).work.pos = .decrypt ∧
    (past 7 .decrypt { ok := true, data := List.replicate 16 0 }).work.answer =
      some { ok := true, data := List.replicate 16 0 } := by decide

theorem test_witness_IdentityIsBoundBeforeTheTagIsVerified :
    (past 7 .hash { ok := true, data := List.replicate 32 0 }).work.pos = .hash ∧
    (past 7 .hash { ok := true, data := List.replicate 32 0 }).work.answer =
      some { ok := true, data := List.replicate 32 0 } := by decide

theorem test_witness_RequestsComeInTheirOrder :
    Instr.position .advParse = .command ∧
    ∃ t, exec .advParse parsing = .next t ∧ t.phase = .wait ∧ t.pending = some (.nonce [1, 2] none) :=
  ⟨rfl, _, rfl, by decide, by decide⟩

/-- A Cryptor that encrypts to the plaintext itself, and whose tags are the first bytes of the signed string and the key. -/
def honest : Cryptor
  | .nonce salt _ => { ok := true, data := salt.take 32 }
  | .encrypt p _ _ => { ok := true, data := p.take 255 }
  | .decrypt c _ _ => { ok := true, data := c }
  | .sign m k => { ok := true, data := (m ++ k ++ List.replicate 16 0).take 16 }
  | .verify m k t => { ok := decide (t = (m ++ k ++ List.replicate 16 0).take 16), data := [] }
  | .hash m k => { ok := true, data := (m ++ k ++ List.replicate 32 0).take 32 }

theorem honest_is_honest : HonestCryptor params honest := by
  refine ⟨fun p n k hp _ => ?_, fun m k t => ⟨?_, by simp [honest]⟩, fun m k => ⟨rfl, ?_⟩⟩
  · simp only [honest, List.take_of_length_le (show p.length ≤ 255 from hp)]
  · simp [honest]
  · simp [honest, params, Params.default]; omega

/-- A state of an outcome, where it has one. -/
def stateOf (o : Host.Outcome State Fault Refusal) : State :=
  match o with
  | .next t => t
  | .fault _ => State.reset
  | .refused _ => State.reset

/-- The operands of a build: one action and one data element of type 7. -/
def toBuild : State :=
  { idle with arg0 := 1, arg1 := 2, arg2 := 1, arg3 := 1, inLen := 3, mem := Memory.store [] ibufOff [0x33, 0x17, 0x44] }

/-- The machine with the frame that the build committed. -/
def built : State := stateOf (runWith honest 7 (accept 6 toBuild))

/-- The operands of a parse of that frame. -/
def toParse : State :=
  { idle with
    inLen := BitVec.ofNat 10 built.outLen.toNat
    mem := Memory.store (Memory.store [] ibufOff (Memory.bytes built.mem obufOff built.outLen.toNat)) mktagOff
      (honest (.hash (idkeyBytes toBuild) (keyBytes toBuild))).data }

theorem test_witness_BuildThenParseRoundTrip :
    HonestCryptor toBuild.cfg honest ∧ toBuild.cfg.wf ∧ toBuild.phase = .idle ∧ toBuild.pending = none ∧
    toParse.phase = .idle ∧ toParse.pending = none ∧ toParse.cfg = toBuild.cfg ∧
    runWith honest 7 (accept 6 toBuild) = .next built ∧ built.status.done = true ∧
    toParse.inLen.toNat = built.outLen.toNat ∧
    (∀ k, k < built.outLen.toNat → Memory.read toParse.mem (ibufOff + k) = Memory.read built.mem (obufOff + k)) ∧
    (∀ k, k < 16 → Memory.read toParse.mem (keyOff + k) = Memory.read toBuild.mem (keyOff + k)) ∧
    Memory.bytes toParse.mem mktagOff toBuild.cfg.mktagLen =
      (honest (.hash (idkeyBytes toBuild) (keyBytes toBuild))).data :=
  ⟨honest_is_honest, by decide, rfl, rfl, rfl, rfl, rfl, rfl, by decide, by decide, by decide, by decide, by decide⟩

theorem test_witness_AcceptanceLatchesAndClears : idle.status.busy = false := by decide

theorem test_witness_CommandStepIsARequestOrACommit :
    Instr.position .hdrEnc = .command ∧ ∃ t, exec .hdrEnc (accepted 1 3 5 0 0 []) = .next t := ⟨rfl, _, rfl⟩

theorem test_witness_FailedCommandShowsNothing :
    (∃ t, exec (.illegalZero 0) (accepted 0 0 0 0 0 []) = .next t ∧ (accepted 0 0 0 0 0 []).status.err = false ∧
      t.status.err = true) ∧
    accessAllowed 0x014 .word = true ∧ accessAllowed 0x03C .word = true ∧ accessAllowed 0x1FFF .byte = true ∧
    accessAllowed 0x1FFC .word = true :=
  ⟨⟨_, rfl, by decide, by decide⟩, by decide, by decide, by decide, by decide⟩

theorem test_witness_StepRunsTheDecodedInstruction :
    params.wf ∧ nextInstr (accepted 1 3 5 0 0 []) = some .hdrEnc ∧
    nextInstr { idle with events := [.headerByte 0x53] } = some (.hdr1 5 3) := by decide

theorem test_witness_PlacedTableWordIsRunNext :
    idle.cfg.wf ∧ decodeTableWord 32 5 = some .scan ∧ decodeTableWord 8 0x8A = some (.hdrm 10) := by decide

/-- ADV_BUILD accepted, with the engine's step to come: every invariant holds, and the step goes on. -/
def stepping : State := { building with events := [.engine] }

theorem test_witness_invariants :
    WindowsCanonical stepping ∧ FlagsAgree stepping ∧ OperandsHeld stepping ∧ EngineInPlace stepping ∧
    WithinLimits stepping ∧ OutputBounded stepping ∧ stepping.events.head? = some .engine ∧
    ∃ t, step stepping = .next t ∧ t.phase = .wait := by
  refine ⟨⟨by decide, by decide⟩, ?_, fun _ => ⟨rfl, rfl, rfl, rfl, rfl⟩, ⟨by decide, fun _ => .inl rfl⟩,
    ⟨by decide, by decide, ?_, by simp [stepping, building, accepted, idle], by decide⟩, ⟨by decide, by decide⟩, rfl, ?_⟩
  · simp [FlagsAgree, ResultsHold, stepping, building, accepted, idle]
  · simp [WorkWithinLimits, stepping, building, accepted, Work.empty, accept]
  · exact ⟨_, (step_of_wf (by decide)).trans rfl, by decide⟩

theorem test_witness_AnsweredCommandsEnd : Accepted building ∧ FlagsAgree building :=
  ⟨⟨by decide, rfl, rfl⟩, by simp [FlagsAgree, ResultsHold, building, accepted, idle]⟩

theorem test_witness_KeysAreNeverReadable :
    SameButKeys idle { idle with mem := [(0x100, 7), (0x11F, 9)] } ∧ idle ≠ { idle with mem := [(0x100, 7), (0x11F, 9)] } := by
  refine ⟨⟨fun a h1 h2 => ?_, rfl⟩, by decide⟩
  simp only [Memory.read]
  split_ifs with h3 h4
  · subst h3; simp [regionOf] at h1
  · subst h4; simp [regionOf] at h2
  · rfl

theorem test_witness_IdleHiddenStateIsUnobservable :
    idle.phase = .idle ∧ SameButHidden idle { idle with latch := { Latch.empty with arg0 := 5 }, work := { Work.empty with cursor := 3 } } :=
  ⟨rfl, rfl⟩

theorem test_witness_UnusedWindowBytesAreNeverRead :
    scanning.cfg.wf ∧ SameButUnused scanning scanning.mem ((0x45F, 1) :: scanning.mem) ∧
    Memory.read scanning.mem 0x45F ≠ Memory.read ((0x45F, 1) :: scanning.mem) 0x45F := by
  refine ⟨by decide, fun a h1 _ => ?_, by decide⟩
  rw [Memory.read_cons, if_neg]
  rintro rfl
  exact h1 (by decide)

theorem test_witness_DisallowedAccessHasNoEffect :
    (((0x0FC < 0x100 → Width.word = .word) ∧ 0x0FC % widthBytes .word = 0) ∧ ¬(0x100 < 0x100) ∧
      0x1FFF % widthBytes .byte = 0) ∧
    ¬((0x0FF < 0x100 → Width.byte = .word) ∧ 0x0FF % widthBytes .byte = 0) ∧
    ¬((0x102 < 0x100 → Width.word = .word) ∧ 0x102 % widthBytes .word = 0) := by decide

theorem test_witness_ReadsChangeNothingAndOutsideAddressesStop :
    (∃ t, hostAccess (.read 0 .word) idle = .next t) ∧ idle.cfg.base + 0x2000 ≤ 0x2000 ∧
    0x1FFF < { idle with cfg := { params with baseIndex := 1 } }.cfg.base :=
  ⟨⟨_, rfl⟩, by decide, by decide⟩

theorem test_witness_BusyLockIgnoresInputWrites :
    building.status.busy = true ∧
    (accessAllowed 0x00C .word = true ∧ accessAllowed 0x02C .word = true ∧ accessAllowed 0x100 .byte = true ∧
      accessAllowed 0x12F .byte = true ∧ accessAllowed 0x140 .half = true ∧ accessAllowed 0x15C .word = true ∧
      accessAllowed 0x400 .word = true ∧ accessAllowed 0x5FF .byte = true) ∧
    accessAllowed 0x004 .word = true ∧ (3 : Word).getLsbD 2 = false ∧ accessAllowed 0x008 .word = true := by decide

theorem test_witness_ResultsAreGatedWhileBusy :
    building.status.busy = true ∧ idle.status.busy = false ∧ accessAllowed 0x014 .word = true ∧
    accessAllowed 0x030 .word = true ∧ accessAllowed 0x03C .word = true ∧ accessAllowed 0x1000 .word = true ∧
    accessAllowed 0x1FFF .byte = true := by decide

theorem test_witness_WindowAccessIsLittleEndian :
    building.status.busy = true ∧ idle.status.busy = false ∧ (accessAllowed 0x12C .word = true ∧ regionOf 0x12C = .salt) ∧
    (accessAllowed 0x15E .half = true ∧ regionOf 0x15E = .mktag) ∧ (accessAllowed 0x5FF .byte = true ∧ regionOf 0x5FF = .ibuf) := by
  decide

theorem test_witness_KeyWindowsStoreAndReadZero :
    accessAllowed 0x100 .word = true ∧ accessAllowed 0x11F .byte = true ∧ idle.status.busy = false := by decide

theorem test_witness_OperandRegistersStoreWhatIsWritten : idle.status.busy = false := by decide

theorem test_witness_ReadOnlyAndReservedLocationsActAsStated :
    accessAllowed 0x000 .word = true ∧ accessAllowed 0x014 .word = true ∧ accessAllowed 0x018 .word = true ∧
    accessAllowed 0x00C .word = true ∧ accessAllowed 0x01C .word = true ∧ accessAllowed 0x040 .word = true ∧
    accessAllowed 0xFFF .byte = true ∧ accessAllowed 0x1000 .byte = true ∧ accessAllowed 0x030 .word = true ∧ accessAllowed 0x0FC .word = true ∧
    accessAllowed 0x130 .byte = true ∧ accessAllowed 0x13F .byte = true ∧ accessAllowed 0x160 .byte = true ∧
    accessAllowed 0x3FF .byte = true ∧ accessAllowed 0x600 .byte = true ∧ accessAllowed 0x1FFF .byte = true := by decide

theorem test_witness_ControlAndStatusWritesAct : (4 : Word).getLsbD 2 = true ∧ (3 : Word).getLsbD 2 = false := by decide

theorem test_witness_ResetLeavesTheResetCondition :
    (4 : Word).getLsbD 2 = true ∧ (∃ t, eventStep .reset building = .next t) ∧
    ∃ t, hostAccess (.write (building.cfg.base + 0x004) .word 4) building = .next t :=
  ⟨by decide, ⟨_, rfl⟩, _, rfl⟩

/-- ADV_BUILD waiting for its nonce. -/
def waiting : State := issueRequest (.nonce [1, 2] none) Work.empty building

theorem test_witness_AnswersAreTakenOrDiscarded :
    waiting.phase = .wait ∧ waiting.pending ≠ none ∧ ({ ok := true, data := [] } : Response).data.length ≤ 255 ∧
    runSteps 1 { resetTlvc waiting with events := [.engine] } = .next { resetTlvc waiting with events := [] } :=
  ⟨rfl, by decide, by decide, runSteps_of_next ((step_of_wf (by decide)).trans rfl) 0⟩

theorem test_witness_EngineStepNeverStops :
    (waiting.cfg.wf ∧ waiting.events = [] ∧ waiting.phase = .wait) ∧ EngineInPlace building ∧
    idle.cfg.wf ∧ idle.events = [] ∧ idle.phase = .idle :=
  ⟨by decide, ⟨by decide, fun _ => .inl rfl⟩, by decide⟩

/-- Each of the three outcomes of a step from WAIT comes about. -/
theorem test_witness_wait_ends_by_answer_or_reset_only :
    (waiting.phase = .wait ∧ FlagsAgree waiting ∧ step waiting = .next waiting) ∧
    step { waiting with events := [.cryptor 0 { ok := true, data := [7] }] } =
      .next { waiting with
        phase := .run, pending := none, work := { waiting.work with answer := some { ok := true, data := [7] } } } ∧
    step { waiting with events := [.reset] } = .next (resetTlvc waiting) :=
  ⟨⟨rfl, by simp [FlagsAgree, ResultsHold, waiting, issueRequest, building, accepted, idle], (step_of_wf (by decide)).trans rfl⟩,
    (step_of_wf (by decide)).trans rfl, (step_of_wf (by decide)).trans rfl⟩

/-- 20_memory.md R113: with a new request pending after two abandoned ones, the abandon epoch is what it was, and the answer to the
first is still discarded. -/
theorem test_answer_to_first_of_two_abandoned_requests :
    { waiting with abandoned := 2 }.epoch = waiting.epoch ∧
    eventStep (.cryptor waiting.abandoned { ok := true, data := [] }) { waiting with abandoned := 2 } =
      .next { waiting with abandoned := 2 } := ⟨by decide, rfl⟩

end Sys2Proof.Tests
end

section
/-! The registers `STATUS` and `CTRL` as the host reads them, and the interrupt output (10_state.md R35, R37, R58). -/

namespace Sys2Proof.Machine

open Sys2Proof

/-- A word read at 0x008 is `STATUS` (20_memory.md R88): neither the busy lock nor result gating concerns it. -/
@[simp] theorem readData_status (s : State) : readData s 0x008 .word = statusWord s.status := rfl

/-- A word read at 0x004 is `CTRL` (20_memory.md R88). -/
@[simp] theorem readData_ctrl (s : State) : readData s 0x004 .word = ctrlWord s.ctrl := rfl

theorem irq_iff (s : State) : irq s = true ↔ s.ctrl.ie = true ∧ (s.status.done = true ∨ s.status.err = true) := by
  rw [irq, Bool.and_eq_true, Bool.or_eq_true]

/-- Settles O60: the two reads are the words `statusWord` and `ctrlWord`, whose values give the field places, and whose bits
1 and 2, and 0, are the `DONE`, `ERR` and `IE` that `irq` is made of. -/
theorem flagsReadInTheirPlacesAndDriveTheInterrupt : Obligations.FlagsReadInTheirPlacesAndDriveTheInterrupt := by
  intro s
  rw [readData_status, readData_ctrl]
  refine ⟨statusWord_toNat s.status, ctrlWord_toNat s.ctrl, ?irq⟩
  case irq => rw [ctrlWord_ie, statusWord_done, statusWord_err, irq_iff]

end Sys2Proof.Machine
end

section
/-! Result gating (20_memory.md R92): what a read of a result register or of `OBUF` gives while a command runs, and otherwise. -/

namespace Sys2Proof.Machine

open Sys2Proof

theorem gated_of_busy {s : State} (h : s.status.busy = true) {n : Nat} (v : BitVec n) : gated s v = 0 := if_pos h

theorem gated_of_not_busy {s : State} (h : s.status.busy = false) {n : Nat} (v : BitVec n) : gated s v = v :=
  if_neg (by simp [h])

/-- `OUT_LEN` is read through the gate (R92), and so is each result register below. -/
@[simp] theorem readData_outLen (s : State) (w : Width) : readData s 0x014 w = gated s (s.outLen.setWidth 32) := rfl

@[simp] theorem readData_res0 (s : State) (w : Width) : readData s 0x030 w = gated s s.res0 := rfl

@[simp] theorem readData_res1 (s : State) (w : Width) : readData s 0x034 w = gated s s.res1 := rfl

@[simp] theorem readData_res2 (s : State) (w : Width) : readData s 0x038 w = gated s s.res2 := rfl

@[simp] theorem readData_res3 (s : State) (w : Width) : readData s 0x03C w = gated s s.res3 := rfl

/-- An allowed access to the register block is to a whole, aligned register (R83, R84). -/
theorem register_access_aligned {off : Nat} {w : Width} (h : accessAllowed off w = true) (hoff : off < 0x100) :
    w = .word ∧ off % 4 = 0 := by
  simp only [accessAllowed, Bool.and_eq_true, Bool.or_eq_true, decide_eq_true_eq, beq_iff_eq] at h
  obtain ⟨hfar | rfl, hal⟩ := h
  · omega
  · exact ⟨rfl, hal⟩

theorem readData_of_window {off : Nat} (h : 0x100 ≤ off) (s : State) (w : Width) :
    readData s off w = readWindowWord s off w := if_neg (by omega)

theorem readWindow_obuf {off : Nat} (h : 0x1000 ≤ off) (s : State) :
    readWindow s off = gated s (Memory.read s.mem off) := by
  rw [readWindow, regionOf_obuf h]

/-- A word made of four bytes has each of them at its place (R86). -/
theorem bytesWord_byte (b : Nat → Byte) {k : Nat} (hk : k < 4) :
    (bytesWord (b 0) (b 1) (b 2) (b 3)).extractLsb' (8 * k) 8 = b k := by
  unfold bytesWord
  match k, hk with
  | 0, _ => exact BitVec.extractLsb'_append_eq_right
  | 1, _ =>
    rw [BitVec.extractLsb'_append_eq_of_le (by decide)]
    exact BitVec.extractLsb'_append_eq_right
  | 2, _ =>
    rw [BitVec.extractLsb'_append_eq_of_le (by decide), BitVec.extractLsb'_append_eq_of_le (by decide)]
    exact BitVec.extractLsb'_append_eq_right
  | 3, _ =>
    rw [BitVec.extractLsb'_append_eq_of_le (by decide), BitVec.extractLsb'_append_eq_of_le (by decide)]
    exact BitVec.extractLsb'_append_eq_left

/-- Byte `k` of the data read is the window's byte `off + k` within the access, and 0 past it (R86). -/
theorem readWindowWord_byte (s : State) (off : Nat) (w : Width) {k : Nat} (hk : k < 4) :
    (readWindowWord s off w).extractLsb' (8 * k) 8 = if k < widthBytes w then readWindow s (off + k) else 0 :=
  bytesWord_byte (fun k => if k < widthBytes w then readWindow s (off + k) else 0) hk

/-- Where the window's bytes read 0, so does the word. -/
theorem readWindowWord_eq_zero {s : State} {off : Nat} (h : ∀ k, readWindow s (off + k) = 0) (w : Width) :
    readWindowWord s off w = 0 := by
  simp only [readWindowWord, h, ite_self]
  rfl

theorem readData_obuf_of_busy {s : State} (hb : s.status.busy = true) {off : Nat} (h : 0x1000 ≤ off) (w : Width) :
    readData s off w = 0 := by
  rw [readData_of_window (by omega)]
  exact readWindowWord_eq_zero (fun k => by rw [readWindow_obuf (by omega), gated_of_busy hb]) w

theorem readData_obuf_byte {s : State} (hb : s.status.busy = false) {off : Nat} (h : 0x1000 ≤ off) {w : Width} {k : Nat}
    (hk : k < widthBytes w) : (readData s off w).extractLsb' (8 * k) 8 = Memory.read s.mem (off + k) := by
  rw [readData_of_window (by omega), readWindowWord_byte s off w (hk.trans_le (widthBytes_le w)), if_pos hk,
    readWindow_obuf (by omega), gated_of_not_busy hb]

/-- Settles O52: every result is read through `gated`, the registers `OUT_LEN` and `RES0` to `RES3` as whole words and `OBUF`
byte by byte. -/
theorem resultsAreGatedWhileBusy : Obligations.ResultsAreGatedWhileBusy := by
  intro s off w ha
  refine ⟨fun hb hoff => ?busy, fun hb => ?stored⟩
  case busy =>
    rcases hoff with rfl | ⟨hlo, hhi⟩ | hobuf
    · rw [readData_outLen, gated_of_busy hb]
    · obtain ⟨-, hal⟩ := register_access_aligned ha (by omega)
      obtain rfl | rfl | rfl | rfl : off = 0x030 ∨ off = 0x034 ∨ off = 0x038 ∨ off = 0x03C := by omega
      · rw [readData_res0, gated_of_busy hb]
      · rw [readData_res1, gated_of_busy hb]
      · rw [readData_res2, gated_of_busy hb]
      · rw [readData_res3, gated_of_busy hb]
    · exact readData_obuf_of_busy hb hobuf w
  case stored =>
    refine ⟨?_, ?_, ?_, ?_, ?_, fun hobuf k hk => readData_obuf_byte hb hobuf hk⟩
    · rintro rfl; rw [readData_res0, gated_of_not_busy hb]
    · rintro rfl; rw [readData_res1, gated_of_not_busy hb]
    · rintro rfl; rw [readData_res2, gated_of_not_busy hb]
    · rintro rfl; rw [readData_res3, gated_of_not_busy hb]
    · rintro rfl
      rw [readData_outLen, gated_of_not_busy hb]
      exact BitVec.toNat_setWidth_of_le (by decide)

end Sys2Proof.Machine
end

section
/-! What the engine makes of a Cryptor's answer, part by part of the two frame commands (20_memory.md R107-R112): one equation for
each outcome of a part, and the obligations that they give. -/

namespace Sys2Proof.Machine

open Sys2Proof Sys2Proof.Safety

/-! ### The step at a position -/

theorem exec_advBuild_of {s : State} {a : Action} (h : buildAction s = some a) :
    exec .advBuild s = .next (perform a s) := by
  rw [exec, execAdvBuild, h, performAt_some]

theorem exec_advParse_of {s : State} {a : Action} (h : parseAction s = some a) :
    exec .advParse s = .next (perform a s) := by
  rw [exec, execAdvParse, h, performAt_some]

section
variable {s : State} {r : Response} (ha : s.work.answer = some r)
include ha

theorem exec_advBuild_nonce (hp : s.work.pos = .nonce) : exec .advBuild s = .next (perform (buildAfterNonce s r) s) :=
  exec_advBuild_of (by simp only [buildAction, hp, ha])

theorem exec_advBuild_encrypt (hp : s.work.pos = .encrypt) :
    exec .advBuild s = .next (perform (buildAfterEncrypt s r) s) :=
  exec_advBuild_of (by simp only [buildAction, hp, ha])

theorem exec_advBuild_sign (hp : s.work.pos = .sign) : exec .advBuild s = .next (perform (buildAfterSign s r) s) :=
  exec_advBuild_of (by simp only [buildAction, hp, ha])

theorem exec_advParse_nonce (hp : s.work.pos = .nonce) : exec .advParse s = .next (perform (parseAfterNonce s r) s) :=
  exec_advParse_of (by simp only [parseAction, hp, ha])

theorem exec_advParse_decrypt (hp : s.work.pos = .decrypt) :
    exec .advParse s = .next (perform (parseAfterDecrypt s r) s) :=
  exec_advParse_of (by simp only [parseAction, hp, ha])

theorem exec_advParse_hash (hp : s.work.pos = .hash) : exec .advParse s = .next (perform (parseAfterHash s r) s) :=
  exec_advParse_of (by simp only [parseAction, hp, ha])

theorem exec_advParse_verify (hp : s.work.pos = .verify) : exec .advParse s = .next (perform (parseAfterVerify s r) s) :=
  exec_advParse_of (by simp only [parseAction, hp, ha])

end

/-! ### The numbers of the frame -/

theorem headerByte_eq (c : Params) : headerByte c = BitVec.ofNat 8 (c.supportedVersion * 32) := by
  rw [headerByte, byteOf, Nat.shiftLeft_eq]

theorem versionOf_eq (b : Byte) : versionOf b = b.toNat / 32 := by
  have := b.isLt
  unfold versionOf bitField
  omega

theorem actionsOf_eq (c : Params) (es : List Entry) : actionsOf c es = es.filter (fun e => e.typ = c.tAction) := rfl

theorem dataOf_eq (c : Params) (es : List Entry) : dataOf c es = es.filter (fun e => e.typ ≠ c.tAction) :=
  List.filter_congr (fun _ _ => decide_not.symm)

/-! ### ADV_BUILD after SIGN -/

theorem buildAfterSign_tagged {s : State} {r : Response} (h : r.ok = true ∧ r.data.length = s.cfg.sigLen) :
    buildAfterSign s r =
      .ok (s.work.out ++ r.data) (sectionLength s.cfg s.work.lead s.work.idh s.work.ciphertext) 0 0 0 :=
  if_neg (by simp [h])

theorem buildAfterSign_refused {s : State} {r : Response} (h : ¬(r.ok = true ∧ r.data.length = s.cfg.sigLen)) :
    buildAfterSign s r = .fail .cryptorFailure 6 :=
  if_pos (by simpa [or_iff_not_imp_left] using h)

/-- Settles O24: the part after SIGN has the two outcomes of R110, and each is a commit. -/
theorem buildCompletesWithItsTag : Obligations.BuildCompletesWithItsTag := by
  intro s r hp ha
  refine ⟨_, exec_advBuild_sign ha hp, ?_⟩
  by_cases h : r.ok = true ∧ r.data.length = s.cfg.sigLen
  · rw [if_pos h, buildAfterSign_tagged h]
    exact commitOk_commits _ _ _ _ _ s
  · rw [if_neg h, buildAfterSign_refused h]
    exact commitFail_commits _ _ s

/-! ### ADV_BUILD after ENCRYPT -/

theorem buildAfterEncrypt_refused {s : State} {r : Response} (h : r.ok = false) :
    buildAfterEncrypt s r = .fail .cryptorFailure 4 := if_pos (by simp [h])

theorem buildAfterEncrypt_tooLarge {s : State} {r : Response} (h : r.ok = true)
    (hl : sectionMax < sectionLength s.cfg s.work.lead s.work.idh r.data) :
    buildAfterEncrypt s r = .fail .sectionTooLarge 5 :=
  (if_neg (by simp [h])).trans (if_pos hl)

theorem buildAfterEncrypt_asks {s : State} {r : Response} (h : r.ok = true)
    (hl : sectionLength s.cfg s.work.lead s.work.idh r.data ≤ sectionMax) :
    ∃ q w, buildAfterEncrypt s r = .ask q w :=
  ⟨_, _, (if_neg (by simp [h])).trans (if_neg (Nat.not_lt.2 hl))⟩

/-- Settles O27: the part after ENCRYPT has the three outcomes of R108, and what it asks and keeps is
`buildAfterEncrypt_ask`. -/
theorem encryptAnswerIsClassified : Obligations.EncryptAnswerIsClassified := by
  intro s r hp ha len head
  refine ⟨_, exec_advBuild_encrypt ha hp, ?_⟩
  split_ifs with hok hlen
  · rw [buildAfterEncrypt_refused hok]
    exact commitFail_commits _ _ s
  · rw [buildAfterEncrypt_tooLarge (by simpa using hok) hlen]
    exact commitFail_commits _ _ s
  · obtain ⟨q, w, hask⟩ := buildAfterEncrypt_asks (by simpa using hok) (Nat.le_of_not_lt hlen)
    obtain ⟨-, -, rfl, rfl⟩ := buildAfterEncrypt_ask hask
    have hhead : [headerByte s.cfg, byteOf (sectionLength s.cfg s.work.lead s.work.idh r.data)] ++ s.work.lead = head := by
      rw [headerByte_eq]; rfl
    rw [hask, perform_ask]
    refine ⟨?request, rfl, congrArg (· ++ s.work.idh ++ r.data) hhead⟩
    case request =>
      have hsigned : authBytes s.cfg (headerByte s.cfg) (byteOf (sectionLength s.cfg s.work.lead s.work.idh r.data))
          s.work.lead s.work.nonce s.work.idh r.data =
          s.cfg.protoConst ++ head ++ s.work.nonce ++ s.work.idh ++ r.data := by
        simp [authBytes, ← hhead]
      rw [← hsigned]
      exact issueRequest_requests _ _ s

/-! ### Both frame commands after NONCE -/

theorem nonceRefused_iff (r : Response) : nonceRefused r = true ↔ r.ok = false ∨ r.data.length > nonceMax := by
  simp [nonceRefused]

/-- `CommitsFail` tells the step of a failure: an engine step that fails under other steps only does not commit it. -/
theorem perform_not_commitsFail {a : Action} {k : Nat} (hk : k ≤ 9) (hf : ∀ code j, a = .fail code j → j ≤ 9 ∧ j ≠ k)
    (s : State) (code : ErrorCode) : ¬CommitsFail s (perform a s) code k := by
  rintro ⟨-, -, -, hstatus, hphase, -⟩
  cases a with
  | ask q w => simp at hphase
  | ok out r0 r1 r2 r3 =>
    have herr : (0 : BitVec 5) = BitVec.ofNat 5 (errorNumber code) := congrArg Status.errcode hstatus
    cases code <;> exact absurd herr (by decide)
  | fail code' j =>
    obtain ⟨hj, hne⟩ := hf code' j rfl
    have hstep : BitVec.ofNat 4 j = BitVec.ofNat 4 k := congrArg Status.failStep hstatus
    have := congrArg BitVec.toNat hstep
    simp only [BitVec.toNat_ofNat] at this
    omega

/-- A step leaves the engine waiting exactly if it asks. -/
theorem perform_wait_iff (a : Action) (s : State) : (perform a s).phase = .wait ↔ ∃ q w, a = .ask q w := by
  cases a <;> simp

theorem buildAfterNonce_refused {s : State} {r : Response} (h : nonceRefused r = true) :
    buildAfterNonce s r = .fail .cryptorFailure 2 := if_pos h

theorem parseAfterNonce_refused {s : State} {r : Response} (h : nonceRefused r = true) :
    parseAfterNonce s r = .fail .cryptorFailure 3 := if_pos h

/-- With a nonce that it takes, ADV_BUILD fails under step 3 or 4 if at all (44_adv_build.md R240, R241). -/
theorem buildAfterNonce_fail_step {s : State} {r : Response} (h : nonceRefused r = false) {code : ErrorCode} {k : Nat}
    (hf : buildAfterNonce s r = .fail code k) : k = 3 ∨ k = 4 := by
  simp only [buildAfterNonce, h, Bool.false_eq_true, if_false] at hf
  repeat' split at hf
  all_goals simp only [Action.fail.injEq, reduceCtorEq] at hf
  all_goals omega

/-- With a nonce that it takes, ADV_PARSE fails under step 4 or 5 if at all (45_adv_parse.md R265, R266). -/
theorem parseAfterNonce_fail_step {s : State} {r : Response} (h : nonceRefused r = false) {code : ErrorCode} {k : Nat}
    (hf : parseAfterNonce s r = .fail code k) : k = 4 ∨ k = 5 := by
  simp only [parseAfterNonce, h, Bool.false_eq_true, if_false] at hf
  repeat' split at hf
  all_goals simp only [Action.fail.injEq, reduceCtorEq] at hf
  all_goals omega

/-- ADV_BUILD goes on exactly past the checks of 44_adv_build.md R240 and R241. -/
theorem buildAfterNonce_asks_iff {s : State} {r : Response} (h : nonceRefused r = false) :
    (∃ q w, buildAfterNonce s r = .ask q w) ↔
      arg2 s ∈ s.cfg.identityTypes ∧ arg3 s ≤ inLen s ∧
      (∃ es, scanElements s.cfg (inputBytes s) (arg3 s) (inLen s) .extras = .ok es) ∧
      (buildPlaintext s.cfg (idkeyBytes s) (inputBytes s) (arg3 s)).length ≤ sectionMax := by
  constructor
  · rintro ⟨q, w, hask⟩
    obtain ⟨-, hid, hnA, hscan, hlen, -⟩ := buildAfterNonce_ask hask
    exact ⟨hid, hnA, hscan, hlen⟩
  · rintro ⟨hid, hnA, ⟨es, hes⟩, hlen⟩
    simp only [buildAfterNonce, h, List.contains_iff_mem.2 hid, hes, Nat.not_lt.2 hnA, Nat.not_lt.2 hlen, Bool.not_true,
      Bool.false_eq_true, if_false]
    exact ⟨_, _, rfl⟩

/-- ADV_PARSE goes on exactly past the checks of 45_adv_parse.md R265 and R266. -/
theorem parseAfterNonce_asks_iff {s : State} {r : Response} (h : nonceRefused r = false) :
    (∃ q w, parseAfterNonce s r = .ask q w) ↔
      ∃ hd, hdrDecode (inputBytes s) s.work.cursor (inLen s) = some hd ∧ hd.typ ∈ s.cfg.identityTypes ∧
        hd.length = idLen ∧ s.cfg.sigLen ≤ inLen s - (s.work.cursor + hd.n) := by
  constructor
  · rintro ⟨q, w, hask⟩
    obtain ⟨-, hd, hhd, hid, hl, hsig, -⟩ := parseAfterNonce_ask hask
    exact ⟨hd, hhd, hid, hl, hsig⟩
  · rintro ⟨hd, hhd, hid, hl, hsig⟩
    simp only [parseAfterNonce, h, hhd, List.contains_iff_mem.2 hid, hl, Nat.not_lt.2 hsig, ne_eq, not_true_eq_false,
      Bool.not_true, Bool.false_eq_true, if_false]
    exact ⟨_, _, rfl⟩

/-- Settles O26: a nonce is refused by both commands alike; with one that is taken, each command asks exactly past its checks,
asks and keeps what `buildAfterNonce_ask` and `parseAfterNonce_ask` say, and reports any failure under a later step. -/
theorem nonceAnswerIsClassified : Obligations.NonceAnswerIsClassified := by
  intro s r hp ha nA key pt
  have hbuild := exec_advBuild_nonce ha hp
  have hparse := exec_advParse_nonce ha hp
  refine ⟨fun hbad => ?refused, fun ⟨hok, hlen⟩ => ?taken⟩
  case refused =>
    have h := (nonceRefused_iff r).2 hbad
    rw [buildAfterNonce_refused h] at hbuild
    rw [parseAfterNonce_refused h] at hparse
    exact ⟨⟨_, hbuild, commitFail_commits _ _ s⟩, ⟨_, hparse, commitFail_commits _ _ s⟩⟩
  case taken =>
    have h : nonceRefused r = false := by simp [nonceRefused, hok, hlen]
    refine ⟨⟨_, hbuild, ?_, ?_, fun hw => ?_⟩, ⟨_, hparse, ?_, ?_, fun hd hhd hw => ?_⟩⟩
    · exact perform_not_commitsFail (by decide) (fun code k hf => by have := buildAfterNonce_fail_step h hf; omega) s _
    · exact (perform_wait_iff _ s).trans (buildAfterNonce_asks_iff h)
    · obtain ⟨q, w, hask⟩ := (perform_wait_iff _ s).1 hw
      obtain ⟨-, -, -, -, -, rfl, rfl⟩ := buildAfterNonce_ask hask
      rw [hask, perform_ask]
      exact ⟨issueRequest_requests _ _ s, rfl, rfl, rfl⟩
    · exact perform_not_commitsFail (by decide) (fun code k hf => by have := parseAfterNonce_fail_step h hf; omega) s _
    · exact (perform_wait_iff _ s).trans (parseAfterNonce_asks_iff h)
    · obtain ⟨q, w, hask⟩ := (perform_wait_iff _ s).1 hw
      obtain ⟨-, hd', hhd', -, -, -, rfl, rfl⟩ := parseAfterNonce_ask hask
      obtain rfl : hd' = hd := Option.some.inj (hhd'.symm.trans hhd)
      rw [hask, perform_ask]
      exact ⟨issueRequest_requests _ _ s, rfl, rfl, rfl, rfl, rfl⟩

/-! ### ADV_PARSE after DECRYPT -/

theorem parseAfterDecrypt_refused {s : State} {r : Response} (h : r.ok = false) :
    parseAfterDecrypt s r = .fail .decryptionFailure 5 := if_pos (by simp [h])

theorem parseAfterDecrypt_short {s : State} {r : Response} (h : r.ok = true) (hl : r.data.length < idLen) :
    parseAfterDecrypt s r = .fail .truncated 6 := (if_neg (by simp [h])).trans (if_pos hl)

theorem parseAfterDecrypt_asks {s : State} {r : Response} (h : r.ok = true) (hl : idLen ≤ r.data.length) :
    ∃ q w, parseAfterDecrypt s r = .ask q w := ⟨_, _, (if_neg (by simp [h])).trans (if_neg (Nat.not_lt.2 hl))⟩

/-- Settles O28: the part after DECRYPT has the three outcomes of R109, and what it asks and keeps is `parseAfterDecrypt_ask`. -/
theorem decryptAnswerIsClassified : Obligations.DecryptAnswerIsClassified := by
  intro s r hp ha
  refine ⟨_, exec_advParse_decrypt ha hp, ?_⟩
  split_ifs with hok hlen
  · rw [parseAfterDecrypt_refused hok]
    exact commitFail_commits _ _ s
  · rw [parseAfterDecrypt_short (by simpa using hok) hlen]
    exact commitFail_commits _ _ s
  · obtain ⟨q, w, hask⟩ := parseAfterDecrypt_asks (s := s) (by simpa using hok) (Nat.le_of_not_lt hlen)
    obtain ⟨-, -, rfl, rfl⟩ := parseAfterDecrypt_ask hask
    rw [hask, perform_ask]
    exact ⟨rfl, issueRequest_requests _ _ s⟩

/-! ### ADV_PARSE after HASH -/

theorem parseAfterHash_refused {s : State} {r : Response} (h : r.ok = false ∨ r.data.length ≠ s.cfg.mktagLen) :
    parseAfterHash s r = .fail .cryptorFailure 6 := if_pos (by simpa using h)

theorem parseAfterHash_mismatch {s : State} {r : Response} (h : ¬(r.ok = false ∨ r.data.length ≠ s.cfg.mktagLen))
    (hd : r.data ≠ mktagBytes s) : parseAfterHash s r = .fail .authenticationMismatch 6 :=
  (if_neg (by simpa using h)).trans (if_pos hd)

theorem parseAfterHash_asks {s : State} {r : Response} (h : ¬(r.ok = false ∨ r.data.length ≠ s.cfg.mktagLen))
    (hd : r.data = mktagBytes s) : ∃ q w, parseAfterHash s r = .ask q w :=
  ⟨_, _, (if_neg (by simpa using h)).trans (if_neg (not_not.2 hd))⟩

theorem observedAuthBytes_eq (s : State) :
    observedAuthBytes s = s.cfg.protoConst ++ [byteAt (inputBytes s) 0] ++ [byteAt (inputBytes s) 1] ++ s.work.lead ++
      s.work.nonce ++ s.work.idh ++ s.work.ciphertext := rfl

/-- Settles O29: the part after HASH has the three outcomes of R112, and what it asks is `parseAfterHash_ask`. -/
theorem identityIsBoundBeforeTheTagIsVerified : Obligations.IdentityIsBoundBeforeTheTagIsVerified := by
  intro s r hp ha
  refine ⟨_, exec_advParse_hash ha hp, ?_⟩
  split_ifs with hbad hdiff
  · rw [parseAfterHash_refused hbad]
    exact commitFail_commits _ _ s
  · rw [parseAfterHash_mismatch hbad hdiff]
    exact commitFail_commits _ _ s
  · obtain ⟨q, w, hask⟩ := parseAfterHash_asks hbad (not_not.1 hdiff)
    obtain ⟨-, -, rfl, rfl⟩ := parseAfterHash_ask hask
    rw [hask, perform_ask, observedAuthBytes_eq]
    exact issueRequest_requests _ _ s

/-! ### ADV_PARSE after VERIFY -/

section
variable {s : State} {r : Response}

theorem parseAfterVerify_refused (h : r.ok = false) : parseAfterVerify s r = .fail .authenticationMismatch 7 :=
  if_pos (by simp [h])

theorem parseAfterVerify_inner_fail (h : r.ok = true) {code : ErrorCode}
    (hs : scanElements s.cfg s.work.plaintext idLen s.work.plaintext.length .inner = .error code) :
    parseAfterVerify s r = .fail code (innerFailStep code) := by
  simp only [parseAfterVerify, h, hs, Bool.not_true, Bool.false_eq_true, if_false]

theorem parseAfterVerify_ok (h : r.ok = true) {es : List Entry}
    (hs : scanElements s.cfg s.work.plaintext idLen s.work.plaintext.length .inner = .ok es) :
    parseAfterVerify s r =
      .ok (s.work.out ++ advTail s.cfg s.work.plaintext es) (versionOf (byteAt (inputBytes s) 0)) s.work.idType
        (s.work.salt.length + (actionsOf s.cfg es).length * 256 + (dataOf s.cfg es).length * 65536)
        (dataLength s.cfg es) := by
  simp only [parseAfterVerify, h, hs, Bool.not_true, Bool.false_eq_true, if_false, Nat.shiftLeft_eq, Nat.reducePow]

end

/-- Settles O25: the part after VERIFY has the three outcomes of R111 and R269-R271, and each is a commit. -/
theorem parseEndsWithItsVerification : Obligations.ParseEndsWithItsVerification := by
  intro s r hp ha
  have hexec := exec_advParse_verify ha hp
  refine ⟨fun hok => ?refused, fun code hok hscan => ?inner, fun es hok hscan => ?result⟩
  case refused =>
    rw [parseAfterVerify_refused hok] at hexec
    exact ⟨_, hexec, commitFail_commits _ _ s⟩
  case inner =>
    rw [parseAfterVerify_inner_fail hok hscan] at hexec
    exact ⟨_, hexec, commitFail_commits _ _ s⟩
  case result =>
    rw [parseAfterVerify_ok hok hscan, versionOf_eq, advTail, dataLength, ← List.append_assoc, actionsOf_eq,
      dataOf_eq] at hexec
    exact ⟨_, hexec, commitOk_commits _ _ _ _ _ s⟩

end Sys2Proof.Machine
end

section
/-! The two common checks (40_lifecycle.md R162, R163): the decoder tells the seven command words from all others, an illegal
instruction fails whatever the operands, and every command begins with the length check. -/

namespace Sys2Proof.Machine

open Sys2Proof Sys2Proof.Safety

/-! ### The first check: the word -/

/-- The instructions of the seven command words (30_encoding.md R122). -/
def commandInstrs : List Instr := [.hdrEnc, .hdrDec, .eiEnc, .eiDec, .scan, .advBuild, .advParse]

theorem decodeCommand_mem_commandInstrs {w : Word} (h : IsCommandWord w) : decodeCommand w ∈ commandInstrs := by
  rcases h with rfl | rfl | rfl | rfl | rfl | rfl | rfl <;> decide

/-- Past the seven comparisons with a command word, the decoder has the three illegal rows left. -/
theorem decodeCommand_isIllegal {w : Word} (h : ¬IsCommandWord w) : IsIllegal (decodeCommand w) := by
  simp only [IsCommandWord, not_or] at h
  obtain ⟨h1, h2, h3, h4, h5, h6, h7⟩ := h
  rw [decodeCommand, if_neg h1, if_neg h2, if_neg h3, if_neg h4, if_neg h5, if_neg h6, if_neg h7]
  split_ifs
  · exact .inl ⟨_, rfl⟩
  · exact .inr (.inl ⟨_, _, rfl⟩)
  · exact .inr (.inr ⟨_, _, rfl⟩)

theorem not_isIllegal_of_mem_commandInstrs {i : Instr} (h : i ∈ commandInstrs) : ¬IsIllegal i := by
  rintro (⟨rsv, rfl⟩ | ⟨op, rsv, rfl⟩ | ⟨op, rsv, rfl⟩) <;> simp [commandInstrs] at h

/-- The three illegal rows have one meaning: no operand is looked at. -/
theorem exec_of_isIllegal {i : Instr} (h : IsIllegal i) (s : State) :
    exec i s = .next (commitFail .illegalCommand 0 s) := by
  obtain ⟨rsv, rfl⟩ | ⟨op, rsv, rfl⟩ | ⟨op, rsv, rfl⟩ := h <;> rfl

theorem exec_of_isIllegal_commitsFail {i : Instr} (h : IsIllegal i) (s : State) :
    ∃ t, exec i s = .next t ∧ CommitsFail s t .illegalCommand 0 :=
  ⟨_, exec_of_isIllegal h s, commitFail_commits _ _ s⟩

/-! ### The second check: the length -/

/-- At its start, every command makes the length check before its own pseudocode. The commands without requests have no other
position; the frame commands reach the check at this one only. -/
theorem exec_command_start {i : Instr} (hi : i ∈ commandInstrs) {s : State} (hp : s.work.pos = .start) :
    ∃ a, exec i s = .next (perform (commonChecks s a) s) := by
  simp only [commandInstrs, List.mem_cons, List.not_mem_nil, or_false] at hi
  obtain rfl | rfl | rfl | rfl | rfl | rfl | rfl := hi
  · exact ⟨hdrEncAction s, rfl⟩
  · exact ⟨hdrDecAction s, rfl⟩
  · exact ⟨eiEncAction s, rfl⟩
  · exact ⟨eiDecAction s, rfl⟩
  · exact ⟨scanAction s, rfl⟩
  · exact ⟨buildStart s, exec_advBuild_of (by simp only [buildAction, hp])⟩
  · exact ⟨parseStart s, exec_advParse_of (by simp only [parseAction, hp])⟩

/-- A command that starts with too long an input fails whatever its own pseudocode would do. -/
theorem exec_command_tooLong {i : Instr} (hi : i ∈ commandInstrs) {s : State} (hp : s.work.pos = .start)
    (hl : ibufBytes < inLen s) : exec i s = .next (commitFail .invalidArgument 0 s) := by
  obtain ⟨a, ha⟩ := exec_command_start hi hp
  rw [ha, commonChecks_of_gt hl, perform_fail]

/-! ### The obligations -/

/-- Settles O20: a word that is none of the seven has decoded to an illegal instruction, which looks at no length; each of the
seven makes the length check at its start. -/
theorem commonChecksComeFirst : Obligations.CommonChecksComeFirst := by
  intro s w hp
  refine ⟨fun hw => ?illegal, fun hw hl => ?tooLong⟩
  case illegal => exact exec_of_isIllegal_commitsFail (decodeCommand_isIllegal hw) s
  case tooLong =>
    exact ⟨_, exec_command_tooLong (decodeCommand_mem_commandInstrs hw) hp hl, commitFail_commits _ _ s⟩

/-- Settles O19: the decoder separates the two kinds of word, and the three illegal rows share one commit. -/
theorem illegalCommandOutcome : Obligations.IllegalCommandOutcome :=
  ⟨fun _ hw => decodeCommand_isIllegal hw,
    fun _ hw => not_isIllegal_of_mem_commandInstrs (decodeCommand_mem_commandInstrs hw),
    fun s _ hi => exec_of_isIllegal_commitsFail hi s⟩

end Sys2Proof.Machine
end

section
/-! The two header commands (41_header_codec.md R182, R183) on all operands: each outcome of their pseudocode, and the commit of
that outcome behind the length check (40_lifecycle.md R162). -/

namespace Sys2Proof.Machine

open Sys2Proof Sys2Proof.Safety

/-! ### Commands that complete in one step -/

/-- The engine step that completes with a given outcome. -/
def completion : Result → Action
  | .ok out r0 r1 r2 r3 => .ok out r0 r1 r2 r3
  | .fail code step => .fail code step

@[simp] theorem completion_ok (out : List Byte) (r0 r1 r2 r3 : Nat) :
    completion (.ok out r0 r1 r2 r3) = .ok out r0 r1 r2 r3 := rfl

@[simp] theorem completion_fail (code : ErrorCode) (step : Nat) : completion (.fail code step) = .fail code step := rfl

theorem perform_completion_commits (r : Result) (s : State) : Commits s (perform (completion r) s) r := by
  cases r with
  | ok out r0 r1 r2 r3 => exact commitOk_commits out r0 r1 r2 r3 s
  | fail code step => exact commitFail_commits code step s

/-- A command whose own pseudocode ends with `r` commits `r`, unless the length check fails it first (40_lifecycle.md R162). -/
theorem exec_checked_commits {i : Instr} {s : State} {r : Result}
    (h : exec i s = .next (perform (commonChecks s (completion r)) s)) :
    ∃ t, exec i s = .next t ∧ Commits s t (if inLen s > ibufBytes then .fail .invalidArgument 0 else r) := by
  refine ⟨_, h, ?_⟩
  by_cases hl : inLen s > ibufBytes
  · rw [if_pos hl, commonChecks_of_gt hl]
    exact commitFail_commits _ _ s
  · rw [if_neg hl, commonChecks_of_le (Nat.le_of_not_lt hl)]
    exact perform_completion_commits r s

/-! ### HDR_ENC -/

theorem exec_hdrEnc (s : State) : exec .hdrEnc s = .next (perform (commonChecks s (hdrEncAction s)) s) := rfl

theorem hdrEncAction_refused {s : State} (h : arg1 s ≥ lenLimit ∨ arg0 s ≥ typeLimit) :
    hdrEncAction s = .fail .invalidArgument 0 := if_pos h

theorem hdrEncAction_encodes {s : State} (h : ¬(arg1 s ≥ lenLimit ∨ arg0 s ≥ typeLimit)) :
    hdrEncAction s =
      .ok (hdrEncode (arg0 s) (arg1 s)) (hdrEncode (arg0 s) (arg1 s)).length
        (packLittleEndian (hdrEncode (arg0 s) (arg1 s))) 0 0 := if_neg h

/-- Settles O9: the encoder's two outcomes, on either side of the limits of R182, behind the length check. -/
theorem hdrEncOutcome : Obligations.HdrEncOutcome := by
  intro s
  by_cases h : s.latch.arg1.toNat ≥ 128 ∨ s.latch.arg0.toNat ≥ 2 ^ 21
  · rw [if_pos h]
    exact exec_checked_commits (by rw [exec_hdrEnc, hdrEncAction_refused h, completion_fail])
  · rw [if_neg h]
    exact exec_checked_commits (by rw [exec_hdrEnc, hdrEncAction_encodes h]; rfl)

/-! ### HDR_DEC -/

theorem exec_hdrDec (s : State) : exec .hdrDec s = .next (perform (commonChecks s (hdrDecAction s)) s) := rfl

theorem hdrDecAction_malformed {s : State} (h : hdrDecode (inputBytes s) (arg0 s) (inLen s) = none) :
    hdrDecAction s = .fail .malformedHeader 0 := by
  rw [hdrDecAction, h]

theorem hdrDecAction_decodes {s : State} {h : Header} (hd : hdrDecode (inputBytes s) (arg0 s) (inLen s) = some h) :
    hdrDecAction s = .ok [] h.typ h.length h.n 0 := by
  rw [hdrDecAction, hd]

/-- Settles O10: the decoder's two outcomes, by what `hdr_decode` gives for the input at ARG0, behind the length check. -/
theorem hdrDecOutcome : Obligations.HdrDecOutcome := by
  intro s
  cases hd : hdrDecode (Memory.bytes s.mem 0x400 s.latch.inLen.toNat) s.latch.arg0.toNat s.latch.inLen.toNat with
  | none => exact exec_checked_commits (by rw [exec_hdrDec, hdrDecAction_malformed hd, completion_fail])
  | some h => exact exec_checked_commits (by rw [exec_hdrDec, hdrDecAction_decodes hd, completion_ok])

end Sys2Proof.Machine
end

section
/-! The encryption-info element (42_encryption_info.md R200, R201): what `ei_encode` and `ei_decode` answer, case by case, and the
two commands over them (R202, R203) on all operands. -/

namespace Sys2Proof.Machine

open Sys2Proof Sys2Proof.Safety

/-! ### The scheme byte -/

/-- The mask keeps bits 6:3, the low four bits of the shifted scheme. -/
theorem shiftLeft_and_eiSchemeMask (scheme : Nat) : scheme <<< 3 &&& eiSchemeMask = scheme % 16 * 8 :=
  calc scheme <<< 3 &&& eiSchemeMask
    _ = (scheme &&& 2 ^ 4 - 1) <<< 3 := (Nat.shiftLeft_and_distrib (a := scheme) (b := 15)).symm
    _ = scheme % 16 * 8 := by rw [Nat.and_two_pow_sub_one_eq_mod, Nat.shiftLeft_eq]

theorem eiScheme_eq (b : Byte) : eiScheme b = b.toNat / 8 % 16 := rfl

/-- Byte 0 of a range that is not empty. -/
theorem byteAt_bytes_zero (m : Memory) (lo : Nat) {n : Nat} (h : 0 < n) :
    byteAt (Memory.bytes m lo n) 0 = Memory.read m lo := by
  rw [byteAt, Memory.bytes_getD, if_pos h, Nat.add_zero]

/-- A slice up to the end of a string only drops. -/
theorem slice_of_length_le {s : List Byte} {j : Nat} (h : s.length ≤ j) (i : Nat) : slice s i j = s.drop i := by
  rw [slice, List.take_of_length_le h]

/-! ### ei_encode and ei_decode -/

theorem eiEncode_refused {salt : List Byte} (h : salt.length ≠ saltLong) (scheme : Nat) :
    eiEncode scheme salt = .error .invalidSaltLength := if_pos h

theorem eiEncode_encodes {salt : List Byte} (h : salt.length = saltLong) (scheme : Nat) :
    eiEncode scheme salt = .ok (BitVec.ofNat 8 (scheme % 16 * 8) :: salt) := by
  rw [eiEncode, if_neg (not_not.2 h), shiftLeft_and_eiSchemeMask, byteOf]

section
variable {c : Params} {bytes : List Byte}

theorem eiDecode_wrongLength (h : bytes.length ≠ eiLen) : eiDecode c bytes = .error .invalidSaltLength := if_pos h

theorem eiDecode_unknownScheme (h : bytes.length = eiLen)
    (hs : eiScheme (byteAt bytes 0) ≠ c.schemeMic ∧ eiScheme (byteAt bytes 0) ≠ c.schemeSignature) :
    eiDecode c bytes = .error .invalidEncryptionScheme := (if_neg (not_not.2 h)).trans (if_pos hs)

theorem eiDecode_decodes (h : bytes.length = eiLen)
    (hs : ¬(eiScheme (byteAt bytes 0) ≠ c.schemeMic ∧ eiScheme (byteAt bytes 0) ≠ c.schemeSignature)) :
    eiDecode c bytes = .ok (eiScheme (byteAt bytes 0), bytes.drop 1) := by
  rw [← slice_of_length_le h.le]
  exact (if_neg (not_not.2 h)).trans (if_neg hs)

end

/-! ### EI_ENC -/

theorem inputBytes_length (s : State) : (inputBytes s).length = inLen s := Memory.bytes_length _ _ _

theorem exec_eiEnc (s : State) : exec .eiEnc s = .next (perform (commonChecks s (eiEncAction s)) s) := rfl

theorem eiEncAction_refused {s : State} (h : inLen s ≠ saltLong) : eiEncAction s = .fail .invalidSaltLength 0 := by
  rw [eiEncAction, eiEncode_refused ((inputBytes_length s).trans_ne h)]

theorem eiEncAction_encodes {s : State} (h : inLen s = saltLong) :
    eiEncAction s = .ok (BitVec.ofNat 8 (arg0 s % 16 * 8) :: inputBytes s) 0 0 0 0 := by
  rw [eiEncAction, eiEncode_encodes ((inputBytes_length s).trans h)]

/-- Settles O11: the encoder's two outcomes, by the salt's length, behind the length check. -/
theorem eiEncOutcome : Obligations.EiEncOutcome := by
  intro s
  by_cases h : s.latch.inLen.toNat = 16
  · rw [if_neg (not_not.2 h)]
    exact exec_checked_commits (by rw [exec_eiEnc, eiEncAction_encodes h]; rfl)
  · rw [if_pos h]
    exact exec_checked_commits (by rw [exec_eiEnc, eiEncAction_refused h, completion_fail])

/-! ### EI_DEC -/

/-- The scheme that EI_DEC reads: bits 6:3 of `IBUF[0]`. -/
theorem eiScheme_inputBytes {s : State} (h : inLen s = eiLen) :
    eiScheme (byteAt (inputBytes s) 0) = (Memory.read s.mem ibufOff).toNat / 8 % 16 := by
  rw [inputBytes, byteAt_bytes_zero s.mem ibufOff (by rw [h]; decide), eiScheme_eq]

theorem exec_eiDec (s : State) : exec .eiDec s = .next (perform (commonChecks s (eiDecAction s)) s) := rfl

theorem eiDecAction_wrongLength {s : State} (h : inLen s ≠ eiLen) : eiDecAction s = .fail .invalidSaltLength 0 := by
  rw [eiDecAction, eiDecode_wrongLength ((inputBytes_length s).trans_ne h)]

section
variable {s : State} {scheme : Nat}

theorem eiDecAction_unknownScheme (h : inLen s = eiLen) (hb : eiScheme (byteAt (inputBytes s) 0) = scheme)
    (hs : scheme ≠ s.cfg.schemeMic ∧ scheme ≠ s.cfg.schemeSignature) :
    eiDecAction s = .fail .invalidEncryptionScheme 0 := by
  subst hb
  rw [eiDecAction, eiDecode_unknownScheme ((inputBytes_length s).trans h) hs]

theorem eiDecAction_decodes (h : inLen s = eiLen) (hb : eiScheme (byteAt (inputBytes s) 0) = scheme)
    (hs : ¬(scheme ≠ s.cfg.schemeMic ∧ scheme ≠ s.cfg.schemeSignature)) :
    eiDecAction s = .ok ((inputBytes s).drop 1) scheme 0 0 0 := by
  subst hb
  rw [eiDecAction, eiDecode_decodes ((inputBytes_length s).trans h) hs]

end

/-- Settles O12: the decoder's three outcomes, by the length and then the scheme, behind the length check. -/
theorem eiDecOutcome : Obligations.EiDecOutcome := by
  intro s
  by_cases hlen : s.latch.inLen.toNat = 17
  · rw [if_neg (not_not.2 hlen)]
    have hb := eiScheme_inputBytes hlen
    by_cases hs : (Memory.read s.mem 0x400).toNat / 8 % 16 ≠ s.cfg.schemeMic ∧
        (Memory.read s.mem 0x400).toNat / 8 % 16 ≠ s.cfg.schemeSignature
    · simp only [if_pos hs]
      exact exec_checked_commits (by rw [exec_eiDec, eiDecAction_unknownScheme hlen hb hs, completion_fail])
    · simp only [if_neg hs]
      exact exec_checked_commits (by rw [exec_eiDec, eiDecAction_decodes hlen hb hs]; rfl)
  · rw [if_pos hlen]
    exact exec_checked_commits (by rw [exec_eiDec, eiDecAction_wrongLength hlen, completion_fail])

end Sys2Proof.Machine
end

section
/-! The scanner (43_scanner.md): `scan_elements` as the loop of R215 without the model's bound on its rounds, SCAN on all operands
(R220), and where the fields of its table stand in `OBUF` (R221). -/

namespace Sys2Proof.Machine

open Sys2Proof Sys2Proof.Safety

/-! ### scan_elements, one element at a time -/

section
variable {c : Params} {rs : RuleSet} {buf : List Byte} {pos fin : Nat} {h : Header}

theorem scanElements_end (hp : ¬pos < fin) : scanElements c buf pos fin rs = .ok [] :=
  scanLoop_end c rs buf fin _ pos (Nat.le_of_not_lt hp)

/-- Before the end there is a round left, and the header of that round takes a byte, so the rounds that are left after it are
enough for a scan of their own. -/
theorem scanElements_step (hp : pos < fin) (hd : hdrDecode buf pos fin = some h) :
    scanElements c buf pos fin rs =
      if pos + h.n + h.length > fin then .error .truncated
      else
        match checkElement c rs h.typ h.length with
        | some code => .error code
        | none =>
          (scanElements c buf (pos + h.n + h.length) fin rs).map
            (fun es => { typ := h.typ, length := h.length, n := h.n, voff := pos + h.n } :: es) := by
  obtain ⟨-, -, hn, -, -, -⟩ := hdrDecode_bounds hd
  obtain ⟨rounds, hr⟩ : ∃ rounds, fin - pos = rounds + 1 := ⟨fin - pos - 1, by omega⟩
  have hrest : scanLoop c rs buf fin rounds (pos + h.n + h.length) = scanElements c buf (pos + h.n + h.length) fin rs :=
    scanLoop_rounds c rs buf fin _ _ _ (by omega) le_rfl
  rw [scanElements, hr, scanLoop, if_pos hp, hd]
  simp only [hrest]
  cases checkElement c rs h.typ h.length with
  | some code => rfl
  | none => cases scanElements c buf (pos + h.n + h.length) fin rs <;> rfl

theorem scanElements_malformed (hp : pos < fin) (hd : hdrDecode buf pos fin = none) :
    scanElements c buf pos fin rs = .error .malformedHeader := by
  obtain ⟨rounds, hr⟩ : ∃ rounds, fin - pos = rounds + 1 := ⟨fin - pos - 1, by omega⟩
  rw [scanElements, hr, scanLoop, if_pos hp, hd]

end

/-- Settles O15: past the end there is nothing to scan; before it the header does not decode, or it does and gives one round. -/
theorem scannerFollowsItsLoop : Obligations.ScannerFollowsItsLoop := by
  intro c rs buf pos fin
  by_cases hp : pos < fin
  · rw [if_pos hp]
    cases hd : hdrDecode buf pos fin with
    | none => exact scanElements_malformed hp hd
    | some h => exact scanElements_step hp hd
  · rw [if_neg hp]
    exact scanElements_end hp

/-! ### SCAN -/

/-- Bits 31:1 of `ARG1` are zero in the two legal values only. -/
theorem selector_reserved_iff (v : Word) : bitField v.toNat 1 31 ≠ 0 ↔ v.toNat ≥ 2 := by
  have := v.isLt
  unfold bitField
  omega

/-- Of the two legal values of `ARG1`, 1 is the one with bit 0 set. -/
theorem selector_bit_iff {v : Word} (hv : ¬v.toNat ≥ 2) : bitField v.toNat 0 1 = 1 ↔ v = 1 := by
  have hone : v = 1 ↔ v.toNat = 1 := BitVec.toNat_inj.symm
  rw [hone]
  unfold bitField
  omega

/-- What SCAN completes with, for an input of `n` bytes and what `scan_elements` gave (R220). -/
def scanCompletion (n : Nat) : Except ErrorCode (List Entry) → Result
  | .error code => .fail code 0
  | .ok es => .ok (es.flatMap entryBytes) es.length n 0 0

theorem exec_scan (s : State) : exec .scan s = .next (perform (commonChecks s (scanAction s)) s) := rfl

theorem scanAction_badSelector {s : State} (h1 : s.latch.arg1.toNat ≥ 2) : scanAction s = .fail .invalidArgument 0 :=
  if_pos ((selector_reserved_iff _).2 h1)

section
variable {s : State} (h1 : ¬s.latch.arg1.toNat ≥ 2)
include h1

theorem scanAction_pastInput (h0 : arg0 s > inLen s) : scanAction s = .fail .invalidArgument 0 :=
  (if_neg (mt (selector_reserved_iff _).1 h1)).trans (if_pos h0)

/-- With legal operands SCAN answers what `scan_elements` gives for the rule set that `ARG1` names. -/
theorem exec_scan_of_legal (h0 : ¬arg0 s > inLen s) {r : Except ErrorCode (List Entry)}
    (hr : scanElements s.cfg (inputBytes s) (arg0 s) (inLen s) (if s.latch.arg1 = 1 then .inner else .plain) = r) :
    exec .scan s = .next (perform (commonChecks s (completion (scanCompletion (inLen s) r))) s) := by
  simp only [← selector_bit_iff h1] at hr
  rw [exec_scan, scanAction, arg1, if_neg (mt (selector_reserved_iff _).1 h1), if_neg h0, hr]
  cases r <;> rfl

end

/-- Settles O17: the two checks of R220 in their order, and then the scan's two outcomes, behind the length check. -/
theorem scanOutcome : Obligations.ScanOutcome := by
  intro s
  by_cases h1 : s.latch.arg1.toNat ≥ 2
  · rw [if_pos h1]
    exact exec_checked_commits (by rw [exec_scan, scanAction_badSelector h1, completion_fail])
  rw [if_neg h1]
  by_cases h0 : s.latch.arg0.toNat > s.latch.inLen.toNat
  · rw [if_pos h0]
    exact exec_checked_commits (by rw [exec_scan, scanAction_pastInput h1 h0, completion_fail])
  rw [if_neg h0]
  cases hr : scanElements s.cfg (Memory.bytes s.mem 0x400 s.latch.inLen.toNat) s.latch.arg0.toNat s.latch.inLen.toNat
      (if s.latch.arg1 = 1 then .inner else .plain) with
  | error code => exact exec_checked_commits (exec_scan_of_legal h1 h0 hr)
  | ok es => exact exec_checked_commits (exec_scan_of_legal h1 h0 hr)

/-! ### The table -/

/-- A number that fits in `n` bytes is read back from them (R221). -/
theorem packLittleEndian_littleEndian {n v : Nat} (hv : v < 256 ^ n) : packLittleEndian (littleEndian n v) = v := by
  induction n generalizing v with
  | zero => exact (Nat.lt_one_iff.1 hv).symm
  | succ n ih =>
    have hrest : v / 256 < 256 ^ n := Nat.div_lt_of_lt_mul (by rwa [Nat.pow_succ, Nat.mul_comm] at hv)
    rw [littleEndian, packLittleEndian, ih hrest, byteOf_toNat (Nat.mod_lt v (by decide)), Nat.mod_add_div]

theorem entryBytes_length (e : Entry) : (entryBytes e).length = 8 := rfl

/-- In a string of pieces of one length, piece `k` stands at `k` times that length. -/
theorem getD_flatMap_of_length {α : Type} {f : α → List Byte} {w : Nat} (hf : ∀ a, (f a).length = w) {l : List α}
    {k j : Nat} {a : α} (hk : l[k]? = some a) (hj : j < w) : (l.flatMap f).getD (w * k + j) 0 = (f a).getD j 0 := by
  induction l generalizing k with
  | nil => simp at hk
  | cons x xs ih =>
    rw [List.flatMap_cons]
    cases k with
    | zero =>
      obtain rfl : x = a := by simpa using hk
      rw [Nat.mul_zero, Nat.zero_add, List.getD_append _ _ _ _ (by rw [hf]; exact hj)]
    | succ k =>
      have hpast : w * (k + 1) + j - (f x).length = w * k + j := by rw [hf, Nat.mul_succ]; omega
      rw [List.getD_append_right _ _ _ _ (by rw [hf, Nat.mul_succ]; omega), hpast]
      exact ih (by simpa using hk)

/-- The limits of each entry of a scan: those of its header, and that its value lies in the stream. -/
theorem scanElements_entry_bounds {c : Params} {buf : List Byte} {start fin : Nat} {rs : RuleSet} {es : List Entry}
    (hr : scanElements c buf start fin rs = .ok es) {e : Entry} (he : e ∈ es) :
    e.typ < 2 ^ 21 ∧ e.length ≤ 127 ∧ 1 ≤ e.n ∧ e.n ≤ 4 ∧ e.voff ≤ fin := by
  obtain ⟨-, hfit, hn1, hn4, htyp, hlen, -, -⟩ := scanLoop_entries hr e he
  exact ⟨htyp, Nat.le_of_lt_succ hlen, hn1, hn4, by omega⟩

/-- With legal operands, a scan that succeeds puts its table, and nothing but zeros after it, into `OBUF`. -/
theorem exec_scan_obufHolds {s t : State} {es : List Entry} (hl : inLen s ≤ ibufBytes) (h1 : ¬s.latch.arg1.toNat ≥ 2)
    (h0 : ¬arg0 s > inLen s)
    (hr : scanElements s.cfg (inputBytes s) (arg0 s) (inLen s) (if s.latch.arg1 = 1 then .inner else .plain) = .ok es)
    (ht : exec .scan s = .next t) : ObufHolds t (es.flatMap entryBytes) := by
  rw [exec_scan_of_legal h1 h0 hr, commonChecks_of_le hl] at ht
  injection ht with ht
  subst ht
  exact complete_obufHolds _ _ _ _ _ _ s

/-- The eight bytes of an entry within its limits give its fields back (R221). -/
theorem entryBytes_fields {e : Entry} (htyp : e.typ < 2 ^ 21) (hlen : e.length ≤ 127) (hn : e.n ≤ 4) (hv : e.voff ≤ 512)
    {b : Nat → Nat} (hb : ∀ j, j < 8 → b j = ((entryBytes e).getD j 0).toNat) :
    b 0 + 256 * b 1 + 65536 * b 2 + 16777216 * b 3 = e.typ ∧ b 4 = e.length ∧ b 5 = e.n ∧ b 6 + 256 * b 7 = e.voff := by
  have typ_eq : b 0 + 256 * (b 1 + 256 * (b 2 + 256 * b 3)) = e.typ := by
    rw [hb 0 (by decide), hb 1 (by decide), hb 2 (by decide), hb 3 (by decide)]
    exact packLittleEndian_littleEndian (n := 4) (by omega)
  have length_eq : b 4 = e.length := (hb 4 (by decide)).trans (byteOf_toNat (by omega))
  have n_eq : b 5 = e.n := (hb 5 (by decide)).trans (byteOf_toNat (by omega))
  have voff_eq : b 6 + 256 * b 7 = e.voff := by
    rw [hb 6 (by decide), hb 7 (by decide)]
    exact packLittleEndian_littleEndian (n := 2) (by omega)
  exact ⟨by omega, length_eq, n_eq, voff_eq⟩

/-- Settles O18: a stream of at most 512 bytes has at most 512 elements, so the whole table fits in `OBUF`; entry `k` of it stands
at `8 * k`, and its fields are within what their bytes can hold. -/
theorem scanTableEntryLayout : Obligations.ScanTableEntryLayout := by
  intro s t es k e hl h1 h0 hr ht hk b
  have hobuf := exec_scan_obufHolds hl (Nat.not_le_of_lt h1) (Nat.not_lt_of_le h0) hr ht
  obtain ⟨htyp, hlen, hn1, hn4, hvoff⟩ := scanElements_entry_bounds hr (List.mem_of_getElem? hk)
  have hcount : es.length ≤ 512 := by have := scanLoop_length h0 hr; omega
  have hbyte (j : Nat) (hj : j < 8) : b j = ((entryBytes e).getD j 0).toNat := by
    have hk_lt : k < es.length := (List.getElem?_eq_some_iff.1 hk).1
    have hread := hobuf (8 * k + j) (by simp only [obufBytes]; omega)
    rw [← Nat.add_assoc, getD_flatMap_of_length entryBytes_length hk hj] at hread
    exact congrArg BitVec.toNat hread
  obtain ⟨typ_eq, length_eq, n_eq, voff_eq⟩ := entryBytes_fields htyp hlen hn4 (hvoff.trans hl) hbyte
  exact ⟨typ_eq, htyp, length_eq, n_eq, voff_eq, hlen, hn1, hn4⟩

end Sys2Proof.Machine
end

section
/-! The encodings (30_encoding.md R121-R128): a command word as its fields `RSV` and `OP`, and that decoder and encoder undo each
other. -/

namespace Sys2Proof.Machine

open Sys2Proof Sys2Proof.Safety

/-! ### The fields of a command word -/

@[simp] theorem word_op (rsv : BitVec 28) (op : BitVec 4) : (rsv ++ op : Word).extractLsb' 0 4 = op :=
  BitVec.extractLsb'_append_eq_right

@[simp] theorem word_rsv (rsv : BitVec 28) (op : BitVec 4) : (rsv ++ op : Word).extractLsb' 4 28 = rsv :=
  BitVec.extractLsb'_append_eq_left

/-- A word is its `RSV` field above its `OP` field. -/
theorem word_eq_fields (w : Word) : w.extractLsb' 4 28 ++ w.extractLsb' 0 4 = w := by
  refine BitVec.eq_of_toNat_eq ?_
  rw [append_toNat, BitVec.extractLsb'_toNat, BitVec.extractLsb'_toNat, Nat.shiftRight_eq_div_pow,
    Nat.shiftRight_eq_div_pow]
  have := w.isLt
  omega

theorem op_eq_fields (op : BitVec 4) : BitVec.ofBool (op.getLsbD 3) ++ op.extractLsb' 0 3 = op := by
  decide +revert

theorem op_high (op : BitVec 4) : op.getLsbD 3 = false ↔ op.toNat < 8 := by
  decide +revert

/-- The command words are those with `RSV` = 0 and `OP` = 1 to 7 (R122). -/
theorem isCommandWord_fields (rsv : BitVec 28) (op : BitVec 4) :
    IsCommandWord (rsv ++ op) ↔ rsv = 0 ∧ op ≠ 0 ∧ op.getLsbD 3 = false := by
  have number : IsCommandWord (rsv ++ op) ↔ 1 ≤ rsv.toNat * 16 + op.toNat ∧ rsv.toNat * 16 + op.toNat ≤ 7 := by
    simp only [IsCommandWord, ← BitVec.toNat_inj, append_toNat]
    simp
    omega
  rw [number, op_high, ← BitVec.toNat_inj, ne_eq, ← BitVec.toNat_inj]
  simp
  omega

/-- A word that is no command word falls in one of the three illegal rows by its `OP` (40_lifecycle.md R163). -/
theorem decodeCommand_fields {rsv : BitVec 28} {op : BitVec 4} (h : ¬IsCommandWord (rsv ++ op)) :
    decodeCommand (rsv ++ op) =
      if op = 0 then .illegalZero rsv
      else if op.getLsbD 3 then .illegalHigh (op.extractLsb' 0 3) rsv
      else .illegalReserved (op.extractLsb' 0 3) rsv := by
  have bit : (rsv ++ op : Word).getLsbD 3 = op.getLsbD 3 := by rw [BitVec.getLsbD_append]; rfl
  have low : (rsv ++ op : Word).extractLsb' 0 3 = op.extractLsb' 0 3 := by
    refine BitVec.eq_of_toNat_eq ?_
    rw [BitVec.extractLsb'_toNat, BitVec.extractLsb'_toNat, append_toNat]
    omega
  simp only [IsCommandWord, not_or] at h
  obtain ⟨h1, h2, h3, h4, h5, h6, h7⟩ := h
  rw [decodeCommand, if_neg h1, if_neg h2, if_neg h3, if_neg h4, if_neg h5, if_neg h6, if_neg h7, bit, low, word_op,
    word_rsv]

theorem command_of_not_illegal {op : BitVec 4} (h0 : op ≠ 0) (h3 : op.getLsbD 3 = false) : op.extractLsb' 0 3 ≠ 0 := by
  decide +revert

/-! ### Decoding an encoded instruction -/

theorem decode_headerStart (b : Byte) : decode .headerStart [b] = .ok (decodeHeaderStart b) := rfl

theorem decode_headerGroup (b : Byte) : decode .headerGroup [b] = .ok (decodeHeaderGroup b) := rfl

theorem decodeHeaderStart_hdr1 (length : BitVec 3) (typ : BitVec 4) :
    decodeHeaderStart (0#1 ++ (length ++ typ)) = .hdr1 length typ := by
  decide +revert

theorem decodeHeaderStart_hdrm (length : BitVec 7) : decodeHeaderStart (1#1 ++ length) = .hdrm length := by
  decide +revert

theorem decodeHeaderGroup_cont (bits : BitVec 7) : decodeHeaderGroup (1#1 ++ bits) = .groupCont bits := by
  decide +revert

theorem decodeHeaderGroup_final (bits : BitVec 7) : decodeHeaderGroup (0#1 ++ bits) = .groupFinal bits := by
  decide +revert

theorem decodeCommand_illegalZero (rsv : BitVec 28) : decodeCommand (rsv ++ (0 : BitVec 4)) = .illegalZero rsv := by
  rw [decodeCommand_fields (by simp [isCommandWord_fields]), if_pos rfl]

theorem decodeCommand_illegalHigh (op : BitVec 3) (rsv : BitVec 28) :
    decodeCommand (rsv ++ (1#1 ++ op)) = .illegalHigh op rsv := by
  have fields : (1#1 ++ op : BitVec 4) ≠ 0 ∧ (1#1 ++ op : BitVec 4).getLsbD 3 = true ∧
      (1#1 ++ op : BitVec 4).extractLsb' 0 3 = op := by decide +revert
  obtain ⟨hne, hbit, hlow⟩ := fields
  rw [decodeCommand_fields (by simp [isCommandWord_fields, hbit]), if_neg hne, if_pos hbit, hlow]

theorem decodeCommand_illegalReserved {op : BitVec 3} {rsv : BitVec 28} (hop : op ≠ 0) (hrsv : rsv ≠ 0) :
    decodeCommand (rsv ++ (0#1 ++ op)) = .illegalReserved op rsv := by
  have fields : (0#1 ++ op : BitVec 4) ≠ 0 ∧ (0#1 ++ op : BitVec 4).getLsbD 3 = false ∧
      (0#1 ++ op : BitVec 4).extractLsb' 0 3 = op := by decide +revert
  obtain ⟨hne, hbit, hlow⟩ := fields
  rw [decodeCommand_fields (fun h => hrsv ((isCommandWord_fields _ _).1 h).1), if_neg hne, hbit, if_neg (by decide), hlow]

/-- Settles O1: each row's encoding is decoded by the row's own rule; the reserved row needs both its fields to be other than 0. -/
theorem decodeRecoversEncodedInstruction : Obligations.DecodeRecoversEncodedInstruction := by
  intro i hi
  cases i with
  | hdrEnc | hdrDec | eiEnc | eiDec | scan | advBuild | advParse => exact decode_wordBytes _
  | illegalZero rsv => exact (decode_wordBytes _).trans (congrArg _ (decodeCommand_illegalZero rsv))
  | illegalHigh op rsv => exact (decode_wordBytes _).trans (congrArg _ (decodeCommand_illegalHigh op rsv))
  | illegalReserved op rsv =>
    simp only [Instr.wf, Bool.and_eq_true, bne_iff_ne] at hi
    obtain ⟨hop, hrsv⟩ := hi
    exact (decode_wordBytes _).trans (congrArg _ (decodeCommand_illegalReserved hop hrsv))
  | hdr1 length typ => exact (decode_headerStart _).trans (congrArg _ (decodeHeaderStart_hdr1 length typ))
  | hdrm length => exact (decode_headerStart _).trans (congrArg _ (decodeHeaderStart_hdrm length))
  | groupCont bits => exact (decode_headerGroup _).trans (congrArg _ (decodeHeaderGroup_cont bits))
  | groupFinal bits => exact (decode_headerGroup _).trans (congrArg _ (decodeHeaderGroup_final bits))

/-! ### Encoding a decoded word -/

theorem encode_decodeCommand_of_command {w : Word} (h : IsCommandWord w) :
    (decodeCommand w).wf = true ∧ encode (decodeCommand w) = wordBytes w := by
  rcases h with rfl | rfl | rfl | rfl | rfl | rfl | rfl <;> exact ⟨rfl, rfl⟩

/-- An illegal word is encoded back from its two fields; in the reserved row neither is 0, or the word would be a command or of the
first row. -/
theorem encode_decodeCommand_of_illegal {rsv : BitVec 28} {op : BitVec 4} (h : ¬IsCommandWord (rsv ++ op)) :
    (decodeCommand (rsv ++ op)).wf = true ∧ encode (decodeCommand (rsv ++ op)) = wordBytes (rsv ++ op) := by
  have hop := op_eq_fields op
  rw [decodeCommand_fields h]
  split_ifs with h0 h3
  · exact ⟨rfl, by rw [encode, h0]⟩
  · rw [h3] at hop
    exact ⟨rfl, congrArg (fun op => wordBytes (rsv ++ op)) hop⟩
  · rw [Bool.not_eq_true] at h3
    have hrsv : rsv ≠ 0 := fun hz => h ((isCommandWord_fields rsv op).2 ⟨hz, h0, h3⟩)
    rw [h3] at hop
    exact ⟨by simp only [Instr.wf, Bool.and_eq_true, bne_iff_ne]; exact ⟨command_of_not_illegal h0 h3, hrsv⟩,
      congrArg (fun op => wordBytes (rsv ++ op)) hop⟩

/-- Settles O2: the seven command words one by one, and every other word by its fields. -/
theorem encodeRecoversDecodedCommandWord : Obligations.EncodeRecoversDecodedCommandWord := by
  intro w
  suffices h : (decodeCommand w).wf = true ∧ encode (decodeCommand w) = wordBytes w from
    ⟨h.1, decodeCommand_position w, h.2⟩
  by_cases hw : IsCommandWord w
  · exact encode_decodeCommand_of_command hw
  · rw [← word_eq_fields w] at hw ⊢
    exact encode_decodeCommand_of_illegal hw

/-- Settles O3: each word is compared as the decoder compares it. -/
theorem sampleWordsDecodeAsTheSpecSays : Obligations.SampleWordsDecodeAsTheSpecSays := by
  refine ⟨rfl, rfl, rfl, rfl, rfl, rfl, rfl, ?_, ?_, ?_, ?_, ?_, ?_, ?_⟩ <;> decide

end Sys2Proof.Machine
end

section
/-! The header codec (41_header_codec.md): the canonical header written out, that decoding inverts it, that a header depends on its
own bytes alone, R181's loop, and header bytes run one by one. -/

namespace Sys2Proof.Machine

open Sys2Proof Sys2Proof.Safety

/-! ### The canonical header written out (R180) -/

theorem hdrEncode_single {typ length : Nat} (h : typ < 16 ∧ length < 8) :
    hdrEncode typ length = [byteOf (length * 16 + typ)] := if_pos h

theorem hdrEncode_one_group {typ length : Nat} (h : ¬(typ < 16 ∧ length < 8)) (ht : typ < 128) :
    hdrEncode typ length = [byteOf (128 + length), byteOf typ] := by
  have hg : groupCount typ = 1 := by
    rw [groupCount_eq (by simp only [typeLimit]; omega), if_pos ht]
  rw [hdrEncode, if_neg h, hg]
  simp [groupByte, Nat.mod_eq_of_lt ht]

theorem hdrEncode_two_groups {typ length : Nat} (hlo : 128 ≤ typ) (hhi : typ < 16384) :
    hdrEncode typ length = [byteOf (128 + length), byteOf (128 + typ / 128), byteOf (typ % 128)] := by
  have hg : groupCount typ = 2 := by
    rw [groupCount_eq (by simp only [typeLimit]; omega), if_neg (by omega), if_pos hhi]
  have htop : typ / 128 % 128 = typ / 128 := by omega
  rw [hdrEncode, if_neg (by omega), hg]
  simp [groupByte, List.range_succ, htop]

theorem hdrEncode_three_groups {typ length : Nat} (hlo : 16384 ≤ typ) (hhi : typ < typeLimit) :
    hdrEncode typ length =
      [byteOf (128 + length), byteOf (128 + typ / 16384), byteOf (128 + typ / 128 % 128), byteOf (typ % 128)] := by
  have hg : groupCount typ = 3 := by
    rw [groupCount_eq hhi, if_neg (by omega), if_neg (by omega)]
  have htop : typ / 16384 % 128 = typ / 16384 := by simp only [typeLimit] at hhi; omega
  rw [hdrEncode, if_neg (by omega), hg]
  simp [groupByte, List.range_succ, htop]

/-- How long the canonical header of a pair is (R180, 30_encoding.md R131). -/
theorem hdrEncode_length {typ : Nat} (ht : typ < typeLimit) (length : Nat) :
    (hdrEncode typ length).length =
      if typ < 16 ∧ length < 8 then 1 else if typ < 128 then 2 else if typ < 16384 then 3 else 4 := by
  have hg := groupCount_eq ht
  unfold hdrEncode
  split
  · rfl
  · rw [List.length_cons, List.length_map, List.length_range, hg]
    split_ifs <;> rfl

theorem hdrEncode_length_eq_one_iff {typ : Nat} (ht : typ < typeLimit) (length : Nat) :
    (hdrEncode typ length).length = 1 ↔ typ < 16 ∧ length < 8 := by
  rw [hdrEncode_length ht]
  split_ifs <;> simp_all

/-! ### Decoding inverts encoding (R184) -/

/-- The decoder's run over a canonical header, group by group. -/
theorem runHeader_hdrEncode {typ length : Nat} (ht : typ < typeLimit) (hl : length < lenLimit) :
    runHeader .start (hdrEncode typ length) = .done length typ (hdrEncode typ length).length := by
  have ht' : typ < 2097152 := ht
  have hl' : length < 128 := hl
  have first : (byteOf (128 + length)).toNat = 128 + length := byteOf_toNat (by omega)
  have last : (byteOf (typ % 128)).toNat = typ % 128 := byteOf_toNat (by omega)
  by_cases hs : typ < 16 ∧ length < 8
  · have single : (byteOf (length * 16 + typ)).toNat = length * 16 + typ := byteOf_toNat (by omega)
    rw [hdrEncode_single hs, runHeader_start_cons, single, if_neg (by omega)]
    congr 1 <;> omega
  by_cases h1 : typ < 128
  · have group : (byteOf typ).toNat = typ := byteOf_toNat (by omega)
    rw [hdrEncode_one_group hs h1, runHeader_start_cons, first, if_pos (by omega), runHeader_groups_cons, group,
      if_neg (by omega)]
    congr 1 <;> omega
  by_cases h2 : typ < 16384
  · have group : (byteOf (128 + typ / 128)).toNat = 128 + typ / 128 := byteOf_toNat (by omega)
    rw [hdrEncode_two_groups (by omega) h2, runHeader_start_cons, first, if_pos (by omega), runHeader_groups_cons, group,
      if_pos (by omega), if_neg (by decide), runHeader_groups_cons, last, if_neg (by omega)]
    congr 1 <;> omega
  · have group : (byteOf (128 + typ / 16384)).toNat = 128 + typ / 16384 := byteOf_toNat (by omega)
    have group' : (byteOf (128 + typ / 128 % 128)).toNat = 128 + typ / 128 % 128 := byteOf_toNat (by omega)
    rw [hdrEncode_three_groups (by omega) ht, runHeader_start_cons, first, if_pos (by omega), runHeader_groups_cons, group,
      if_pos (by omega), if_neg (by decide), runHeader_groups_cons, group', if_pos (by omega), if_neg (by decide),
      runHeader_groups_cons, last, if_neg (by omega)]
    congr 1 <;> omega

theorem slice_zero_of_length_le {s : List Byte} {j : Nat} (h : s.length ≤ j) : slice s 0 j = s :=
  (slice_of_length_le h 0).trans List.drop_zero

/-- Whatever follows a canonical header, decoding gives back its pair and its length. -/
theorem hdrDecode_hdrEncode_append {typ length : Nat} (ht : typ < typeLimit) (hl : length < lenLimit) (s : List Byte) :
    hdrDecode (hdrEncode typ length ++ s) 0 ((hdrEncode typ length).length + s.length) =
      some { typ := typ, length := length, n := (hdrEncode typ length).length } := by
  rw [hdrDecode_eq_some, slice_zero_of_length_le (by rw [List.length_append])]
  exact runHeader_append (runHeader_hdrEncode ht hl) s

theorem hdrDecode_hdrEncode {typ length : Nat} (ht : typ < typeLimit) (hl : length < lenLimit) :
    hdrDecode (hdrEncode typ length) 0 (hdrEncode typ length).length =
      some { typ := typ, length := length, n := (hdrEncode typ length).length } := by
  simpa using hdrDecode_hdrEncode_append ht hl []

/-- Settles O4: the inverse law gives the injectivity of encoding; `53` and `85 03` are two headers of one pair. -/
theorem headerInverseLaw : Obligations.HeaderInverseLaw := by
  refine ⟨fun typ length ht hl => ⟨hdrDecode_hdrEncode ht hl, hdrEncode_length_eq_one_iff ht length,
    hdrDecode_hdrEncode_append ht hl⟩, fun typ length typ' length' ht hl ht' hl' heq => ?injective, ?not_injective⟩
  case injective =>
    have h := hdrDecode_hdrEncode ht hl
    rw [heq, hdrDecode_hdrEncode ht' hl'] at h
    simp only [Option.some.injEq, Header.mk.injEq] at h
    obtain ⟨htyp, hlength, -⟩ := h
    exact ⟨htyp.symm, hlength.symm⟩
  case not_injective =>
    exact ⟨[0x53], [0x85, 0x03], { typ := 3, length := 5, n := 1 }, { typ := 3, length := 5, n := 2 },
      by decide, by decide, by decide, rfl, rfl, rfl, rfl⟩

/-! ### A header depends on its own bytes alone -/

/-- A run over type groups ends within the bytes that its byte count says. -/
theorem runHeader_groups_take {length typ g l t n : Nat} {bs : List Byte}
    (h : runHeader (.groups length typ g) bs = .done l t n) :
    g + 1 < n ∧ runHeader (.groups length typ g) (bs.take (n - (g + 1))) = .done l t n := by
  induction bs generalizing typ g with
  | nil => simp at h
  | cons b bs ih =>
    rw [runHeader_groups_cons] at h
    split_ifs at h with hb hg
    · obtain ⟨hn, hrun⟩ := ih h
      have hcount : n - (g + 1) = n - (g + 1 + 1) + 1 := by omega
      refine ⟨by omega, ?_⟩
      rw [hcount, List.take_succ_cons, runHeader_groups_cons, if_pos hb, if_neg hg]
      exact hrun
    · simp only [HeaderUnit.done.injEq] at h
      obtain ⟨rfl, rfl, rfl⟩ := h
      have hcount : g + 2 - (g + 1) = 0 + 1 := by omega
      refine ⟨by omega, ?_⟩
      rw [hcount, List.take_succ_cons, runHeader_groups_cons, if_neg hb]

/-- A header's run ends within the bytes that its byte count says. -/
theorem runHeader_start_take {l t n : Nat} {bs : List Byte} (h : runHeader .start bs = .done l t n) :
    runHeader .start (bs.take n) = .done l t n := by
  cases bs with
  | nil => simp at h
  | cons b bs =>
    rw [runHeader_start_cons] at h
    split_ifs at h with hb
    · obtain ⟨hn, hrun⟩ := runHeader_groups_take h
      have hcount : n = n - (0 + 1) + 1 := by omega
      rw [hcount, List.take_succ_cons, runHeader_start_cons, if_pos hb, hrun, ← hcount]
    · simp only [HeaderUnit.done.injEq] at h
      obtain ⟨rfl, rfl, rfl⟩ := h
      rw [List.take_succ_cons, runHeader_start_cons, if_neg hb]

theorem slice_getElem? (s : List Byte) (i j k : Nat) :
    (slice s i j)[k]? = if i + k < j then s[i + k]? else none := by
  rw [slice, List.getElem?_drop, List.getElem?_take]

theorem slice_take {s : List Byte} {i j n : Nat} (h : i + n ≤ j) : (slice s i j).take n = slice s i (i + n) := by
  refine List.ext_getElem? fun k => ?_
  simp only [List.getElem?_take, slice_getElem?]
  by_cases hk : k < n
  · rw [if_pos hk, if_pos (by omega), if_pos (by omega)]
  · rw [if_neg hk, if_neg (by omega)]

/-- Two strings that agree on a header's bytes have the same header there, wherever the end is set behind it. -/
theorem hdrDecode_congr {buf buf' : List Byte} {off fin fin' : Nat} {h : Header} (hd : hdrDecode buf off fin = some h)
    (hfin : off + h.n ≤ fin') (hsame : ∀ i, off ≤ i → i < off + h.n → buf'[i]? = buf[i]?) :
    hdrDecode buf' off fin' = some h := by
  obtain ⟨-, -, -, -, hfit, -⟩ := hdrDecode_bounds hd
  have own : (slice buf' off fin').take h.n = (slice buf off fin).take h.n := by
    rw [slice_take hfin, slice_take hfit]
    refine List.ext_getElem? fun k => ?_
    simp only [slice_getElem?]
    split_ifs with hk
    · exact hsame _ (by omega) hk
    · rfl
  have hrun := runHeader_start_take (hdrDecode_eq_some.1 hd)
  rw [← own] at hrun
  rw [hdrDecode_eq_some, ← List.take_append_drop h.n (slice buf' off fin')]
  exact runHeader_append hrun _

/-- Settles O5: the bounds of a decoded header, and that its own bytes fix it. -/
theorem decodedHeaderDependsOnItsOwnBytes : Obligations.DecodedHeaderDependsOnItsOwnBytes := by
  intro buf off fin h hd
  obtain ⟨hlen, htyp, hn1, hn4, hfin, hbuf⟩ := hdrDecode_bounds hd
  exact ⟨hn1, hn4, hfin, hbuf, htyp, hlen, fun buf' fin' => hdrDecode_congr hd⟩

/-! ### The canonical header is the shortest -/

/-- A run over type groups gathers seven type bits for each byte after byte 0. -/
theorem runHeader_groups_typ_lt {length typ g l t n : Nat} {bs : List Byte}
    (h : runHeader (.groups length typ g) bs = .done l t n) (htyp : typ < 128 ^ g) : t < 128 ^ (n - 1) := by
  induction bs generalizing typ g with
  | nil => simp at h
  | cons b bs ih =>
    have hb := b.isLt
    rw [runHeader_groups_cons] at h
    split_ifs at h with hge hg
    · exact ih h (by rw [Nat.pow_succ]; omega)
    · simp only [HeaderUnit.done.injEq] at h
      obtain ⟨rfl, rfl, rfl⟩ := h
      rw [Nat.add_sub_assoc (by decide), Nat.pow_succ]
      omega

/-- What a header's byte count says of its fields. -/
theorem hdrDecode_fields_lt {buf : List Byte} {off fin : Nat} {h : Header} (hd : hdrDecode buf off fin = some h) :
    h.n = 1 ∧ h.typ < 16 ∧ h.length < 8 ∨ 2 ≤ h.n ∧ h.typ < 128 ^ (h.n - 1) := by
  have hrun := hdrDecode_eq_some.1 hd
  cases hs : slice buf off fin with
  | nil => simp [hs] at hrun
  | cons b bs =>
    have hb := b.isLt
    rw [hs, runHeader_start_cons] at hrun
    split_ifs at hrun with hge
    · obtain ⟨hn, -⟩ := runHeader_groups_take hrun
      exact .inr ⟨hn, runHeader_groups_typ_lt hrun (by simp)⟩
    · simp only [HeaderUnit.done.injEq] at hrun
      obtain ⟨hl, ht, hn⟩ := hrun
      exact .inl ⟨hn.symm, by omega, by omega⟩

/-- Settles O6: a header of `n` bytes holds no more type bits than the canonical one of `n` bytes. -/
theorem canonicalHeaderIsShortest : Obligations.CanonicalHeaderIsShortest := by
  intro buf off fin h hd
  obtain ⟨-, htyp, -, hn4, -, -⟩ := hdrDecode_bounds hd
  rw [hdrEncode_length htyp]
  rcases hdrDecode_fields_lt hd with ⟨hn, hsmall⟩ | ⟨hn2, hbits⟩
  · rw [if_pos hsmall, hn]
  · have hcases : h.n = 2 ∨ h.n = 3 ∨ h.n = 4 := by omega
    rcases hcases with hn | hn | hn <;> rw [hn] at hbits ⊢ <;> simp only [Nat.reduceSub, Nat.reducePow] at hbits <;>
      split_ifs <;> omega

/-! ### The loop of R181 -/

/-- The loop of R181 over the bytes that remain is the decoder's run over them. -/
theorem hdrDecode_eq_headerRead (buf : List Byte) (off fin : Nat) : hdrDecode buf off fin = headerRead buf off fin := by
  have byte (k : Nat) : (if off + k < fin then buf[off + k]? else none) = (slice buf off fin)[k]? :=
    (slice_getElem? buf off fin k).symm
  unfold hdrDecode headerRead
  simp only [byte]
  rcases slice buf off fin with _ | ⟨b0, bs⟩
  · rfl
  rw [runHeader_start_cons]
  by_cases h0 : 128 ≤ b0.toNat
  case neg => simp [h0, Nat.lt_of_not_le h0]
  have e0 : b0.toNat % 128 = b0.toNat - 128 := by have := b0.isLt; omega
  rcases bs with _ | ⟨b1, bs⟩
  · simp [h0, Nat.not_lt.2 h0]
  rw [if_pos h0, runHeader_groups_cons]
  by_cases h1 : 128 ≤ b1.toNat
  case neg => simp [h1, Nat.not_lt.2 h0, Nat.lt_of_not_le h1, e0]
  have e1 : b1.toNat % 128 = b1.toNat - 128 := by have := b1.isLt; omega
  rcases bs with _ | ⟨b2, bs⟩
  · simp [h1, Nat.not_lt.2 h0, Nat.not_lt.2 h1]
  rw [if_pos h1, if_neg (by decide), runHeader_groups_cons]
  by_cases h2 : 128 ≤ b2.toNat
  case neg =>
    simp [h2, Nat.not_lt.2 h0, Nat.not_lt.2 h1, Nat.lt_of_not_le h2, e0, e1]
    omega
  have e2 : b2.toNat % 128 = b2.toNat - 128 := by have := b2.isLt; omega
  rcases bs with _ | ⟨b3, bs⟩
  · simp [h2, Nat.not_lt.2 h0, Nat.not_lt.2 h1, Nat.not_lt.2 h2]
  rw [if_pos h2, if_neg (by decide), runHeader_groups_cons]
  by_cases h3 : 128 ≤ b3.toNat
  · simp [h3, Nat.not_lt.2 h0, Nat.not_lt.2 h1, Nat.not_lt.2 h2, Nat.not_lt.2 h3]
  · simp [h3, Nat.not_lt.2 h0, Nat.not_lt.2 h1, Nat.not_lt.2 h2, Nat.lt_of_not_le h3, e0, e1, e2]
    omega

/-! ### Header bytes one by one (log 11) -/

/-- A header byte moves the header decoder as `unitStep` says. -/
theorem exec_headerByte (b : Byte) (s : State) :
    exec (fetchHeaderByte b s) s = moveHeaderUnit (unitStep (fetchHeaderByte b s) s.work.hdr) s := by
  rcases fetchHeaderByte_cases b s with ⟨l, t, h⟩ | ⟨l, h⟩ | ⟨bits, h⟩ | ⟨bits, h⟩ <;> rw [h] <;> rfl

/-- A state whose header decoder stands at `u` and whose events are header bytes. -/
def feeding (s : State) (u : HeaderUnit) (bs : List Byte) : State :=
  { s with work := { s.work with hdr := u }, events := bs.map .headerByte }

theorem step_feeding {s : State} (hw : s.cfg.wf) {u v : HeaderUnit} {b : Byte}
    (hu : unitStep (decodeHeaderByte u b) u = some v) (bs : List Byte) :
    step (feeding s u (b :: bs)) = .next (feeding s v bs) := by
  refine (step_headerByte (s := { s with work := { s.work with hdr := u } }) hw b (bs.map .headerByte)).trans ?_
  refine (exec_headerByte b (feeding s u bs)).trans ?_
  have : unitStep (fetchHeaderByte b (feeding s u bs)) (feeding s u bs).work.hdr = some v := hu
  rw [this]
  rfl

theorem unitStep_start (b : Byte) :
    unitStep (decodeHeaderByte .start b) .start =
      some (if 128 ≤ b.toNat then .groups (b.toNat % 128) 0 0 else .done (b.toNat / 16) (b.toNat % 16) 1) := by
  have hb := b.isLt
  split_ifs with h
  · simp only [decodeHeaderByte, headerPosition, decodeHeaderStart_of_ge h, unitStep, unitHdrm, byte_low7]
  · simp only [decodeHeaderByte, headerPosition, decodeHeaderStart_of_lt h, unitStep, unitHdr1, byte_low4, byte_mid3,
      Nat.mod_eq_of_lt (by omega : b.toNat / 16 < 8)]

theorem unitStep_groups (length typ g : Nat) (b : Byte) :
    unitStep (decodeHeaderByte (.groups length typ g) b) (.groups length typ g) =
      some (if 128 ≤ b.toNat then
          if g + 1 = maxTypeGroups then .malformed else .groups length (typ * 128 + b.toNat % 128) (g + 1)
        else .done length (typ * 128 + b.toNat) (g + 2)) := by
  have hb := b.isLt
  split_ifs with h hg
  · rw [decodeHeaderByte, headerPosition, decodeHeaderGroup_of_ge h, unitStep, unitGroupCont, if_pos hg]
  · rw [decodeHeaderByte, headerPosition, decodeHeaderGroup_of_ge h, unitStep, unitGroupCont, if_neg hg, byte_low7]
  · rw [decodeHeaderByte, headerPosition, decodeHeaderGroup_of_lt h, unitStep, unitGroupFinal, byte_low7,
      Nat.mod_eq_of_lt (by omega)]

/-- The type groups of a whole header, given one by one, take the header decoder where its run over them ends. -/
theorem runSteps_feeding_groups {s : State} (hw : s.cfg.wf) {length typ g l t n : Nat} {bs : List Byte}
    (h : runHeader (.groups length typ g) bs = .done l t n) (hn : n = g + 1 + bs.length) :
    runSteps bs.length (feeding s (.groups length typ g) bs) = .next (feeding s (.done l t n) []) := by
  induction bs generalizing typ g with
  | nil => simp at h
  | cons b bs ih =>
    have hstep := step_feeding (s := s) hw (unitStep_groups length typ g b) bs
    rw [List.length_cons] at hn ⊢
    rw [runSteps_of_next hstep]
    rw [runHeader_groups_cons] at h
    split_ifs at h ⊢ with hb hg
    · exact ih h (by omega)
    · simp only [HeaderUnit.done.injEq] at h
      obtain ⟨rfl, rfl, rfl⟩ := h
      obtain rfl : bs = [] := List.eq_nil_of_length_eq_zero (by omega)
      rfl

/-- The bytes of a whole header, given one by one, take the header decoder to its end. -/
theorem runSteps_feeding_header {s : State} (hw : s.cfg.wf) {l t n : Nat} {bs : List Byte}
    (h : runHeader .start bs = .done l t n) (hn : n = bs.length) :
    runSteps bs.length (feeding s .start bs) = .next (feeding s (.done l t n) []) := by
  cases bs with
  | nil => simp at h
  | cons b bs =>
    have hstep := step_feeding (s := s) hw (unitStep_start b) bs
    rw [List.length_cons] at hn ⊢
    rw [runSteps_of_next hstep]
    rw [runHeader_start_cons] at h
    split_ifs at h ⊢ with hb
    · exact runSteps_feeding_groups hw h (by omega)
    · simp only [HeaderUnit.done.injEq] at h
      obtain ⟨rfl, rfl, rfl⟩ := h
      obtain rfl : bs = [] := List.eq_nil_of_length_eq_zero (by omega)
      rfl

/-- Four bytes of 128 or more are refused at the third group (30_encoding.md R143). -/
theorem runSteps_feeding_malformed {s : State} (hw : s.cfg.wf) {b0 b1 b2 b3 : Byte} (h0 : 128 ≤ b0.toNat)
    (h1 : 128 ≤ b1.toNat) (h2 : 128 ≤ b2.toNat) (h3 : 128 ≤ b3.toNat) :
    runSteps 4 (feeding s .start [b0, b1, b2, b3]) = .next (feeding s .malformed []) := by
  have first := (unitStep_start b0).trans (congrArg some (if_pos h0))
  have cont {length typ g : Nat} {b : Byte} (hb : 128 ≤ b.toNat) :=
    (unitStep_groups length typ g b).trans (congrArg some (if_pos hb))
  rw [runSteps_of_next (step_feeding hw first _), runSteps_of_next (step_feeding hw (cont h1) _),
    if_neg (by decide), runSteps_of_next (step_feeding hw (cont h2) _), if_neg (by decide),
    runSteps_of_next (step_feeding hw (cont h3) _), if_pos rfl, runSteps_zero]

theorem feeding_of_start {s : State} (h : s.work.hdr = .start) (bs : List Byte) :
    { s with events := bs.map .headerByte } = feeding s .start bs := by
  rw [feeding, ← h]

/-- Settles O7: the decoder's run is R181's loop, and header-byte events make that run. -/
theorem headerDecoderReadsExactlyItsHeaders : Obligations.HeaderDecoderReadsExactlyItsHeaders := by
  refine ⟨hdrDecode_eq_headerRead, by decide, fun s hw hs => ?machine⟩
  have whole (bytes : List Byte) (h : Header) (hr : headerRead bytes 0 bytes.length = some h) (hn : h.n = bytes.length) :
      runSteps bytes.length { s with events := bytes.map .headerByte } =
        .next { s with events := [], work := { s.work with hdr := .done h.length h.typ h.n } } := by
    rw [← hdrDecode_eq_headerRead, hdrDecode_eq_some, slice_zero_of_length_le le_rfl] at hr
    rw [feeding_of_start hs]
    exact runSteps_feeding_header hw hr hn
  refine ⟨fun typ length ht hl => ?canonical, whole, fun b0 b1 b2 b3 h0 h1 h2 h3 => ?malformed⟩
  case canonical =>
    exact whole _ _ ((hdrDecode_eq_headerRead _ _ _).symm.trans (hdrDecode_hdrEncode ht hl)) rfl
  case malformed =>
    rw [feeding_of_start hs]
    exact runSteps_feeding_malformed hw h0 h1 h2 h3

/-- Settles O8: each kind of header byte has its effect, and a type group has one inside a multi-byte header only. -/
theorem headerByteInstructionsComplete : Obligations.HeaderByteInstructionsComplete := by
  intro s
  refine ⟨fun length typ => rfl, fun length => rfl, fun bits l t g h => ?cont, fun bits l t g h => ?final,
    fun bits h => ⟨?cont_outside, ?final_outside⟩⟩
  case cont => simp only [exec, execGroupCont, h, unitGroupCont, moveHeaderUnit]
  case final => simp only [exec, execGroupFinal, h, unitGroupFinal, moveHeaderUnit]
  case cont_outside =>
    have stuck : unitGroupCont bits s.work.hdr = none := by
      unfold unitGroupCont; split
      · exact absurd ‹_› (h _ _ _)
      · rfl
    simp only [exec, execGroupCont, stuck, moveHeaderUnit]
  case final_outside =>
    have stuck : unitGroupFinal bits s.work.hdr = none := by
      unfold unitGroupFinal; split
      · exact absurd ‹_› (h _ _ _)
      · rfl
    simp only [exec, execGroupFinal, stuck, moveHeaderUnit]

end Sys2Proof.Machine
end

section
/-! The inverse law of the encryption-info element (42_encryption_info.md R204), the three rule sets (43_scanner.md R217-R219), and
how the elements of a scan lie in the stream (R215). -/

namespace Sys2Proof.Machine

open Sys2Proof Sys2Proof.Safety

/-! ### The encryption-info element -/

/-- The scheme that `ei_encode` writes is the scheme that `ei_decode` reads, for the schemes that four bits hold. -/
theorem eiScheme_encoded {scheme : Nat} (h : scheme < 16) : eiScheme (BitVec.ofNat 8 (scheme % 16 * 8)) = scheme := by
  rw [eiScheme_eq, BitVec.toNat_ofNat]
  omega

/-- Settles O13: the encoded bytes have the length that the decoder asks for, and its scheme check is what decides. -/
theorem encryptionInfoInverseLaw : Obligations.EncryptionInfoInverseLaw := by
  intro c scheme salt _ hscheme hsalt
  refine ⟨_, eiEncode_encodes hsalt scheme, by rw [List.length_cons, hsalt], ?_⟩
  have hlen : (BitVec.ofNat 8 (scheme % 16 * 8) :: salt).length = eiLen := by rw [List.length_cons, hsalt]
  have hread : eiScheme (byteAt (BitVec.ofNat 8 (scheme % 16 * 8) :: salt) 0) = scheme := eiScheme_encoded hscheme
  split_ifs with hs
  · rw [eiDecode_decodes hlen (by rw [hread]; tauto), hread]
    rfl
  · exact eiDecode_unknownScheme hlen (by rw [hread]; tauto)

/-! ### The rule sets -/

theorem isHeadType_iff (c : Params) (t : Nat) :
    isHeadType c t = true ↔ t = c.tSalt ∨ t = c.tEi ∨ t ∈ c.identityTypes := by
  simp [isHeadType, or_assoc]

/-- Settles O14: the head types come first in both rule sets that refuse anything. -/
theorem ruleSetsRefuseAsStated : Obligations.RuleSetsRefuseAsStated := by
  intro c t l
  refine ⟨rfl, ?_, ?_⟩ <;> simp only [checkElement, isHeadType_iff]

/-! ### The elements of a scan -/

/-- Each element's value stands after the elements before it and its own header (R215). -/
theorem scanLoop_voff {c : Params} {rs : RuleSet} {buf : List Byte} {fin rounds pos k : Nat} {es : List Entry} {e : Entry}
    (h : scanLoop c rs buf fin rounds pos = .ok es) (hk : es[k]? = some e) :
    e.voff = pos + ((es.take k).map (fun e => e.n + e.length)).sum + e.n := by
  induction rounds generalizing pos es k with
  | zero => simp only [scanLoop, Except.ok.injEq] at h; subst h; simp at hk
  | succ rounds ih =>
    rcases scanLoop_ok h with ⟨-, rfl⟩ | ⟨-, hd, es', -, -, -, hes, rfl⟩
    · simp at hk
    · cases k with
      | zero =>
        simp only [List.getElem?_cons_zero, Option.some.injEq] at hk
        subst hk
        simp
      | succ k =>
        have := ih hes hk
        rw [List.take_succ_cons, List.map_cons, List.sum_cons]
        simp only at this ⊢
        omega

/-- Settles O16: the sum and the place of each element by induction over the loop, and the rest from what one round checks. -/
theorem scannedElementsFillTheStream : Obligations.ScannedElementsFillTheStream := by
  intro c rs buf start fin es hle h
  refine ⟨scanLoop_sum le_rfl hle h, fun k e hk => ?_⟩
  obtain ⟨-, hfit, -, -, -, -, hcheck, hd⟩ := scanLoop_entries h e (List.mem_of_getElem? hk)
  exact ⟨scanLoop_voff h hk, hd, hfit, hcheck⟩

end Sys2Proof.Machine
end

section
/-! The host window (20_memory.md R80-R93): which accesses are allowed, and what each read and write of each part of the map does. -/

namespace Sys2Proof.Machine

open Sys2Proof Sys2Proof.Safety

/-! ### Accesses by window offset -/

/-- The response to a write that is allowed (20_memory.md R85; log 2). -/
def okayWrite : BusResponse := { error := false, data := 0 }

theorem accessAllowed_iff (off : Nat) (w : Width) :
    accessAllowed off w = true ↔ (off < 0x100 → w = .word) ∧ off % widthBytes w = 0 := by
  simp only [accessAllowed, Bool.and_eq_true, Bool.or_eq_true, decide_eq_true_eq, beq_iff_eq, or_iff_not_imp_left,
    Nat.not_le]

theorem hostAccess_of_offset {a : HostAccess} {s : State} {off : Nat} (ha : accessAddress a = s.cfg.base + off)
    (hoff : off < windowSize) : hostAccess a s = .next (accessAt off a s) := by
  rw [hostAccess, ha, offsetOf_base_add s.cfg hoff]

theorem hostAccess_outside {a : HostAccess} {s : State}
    (h : accessAddress a < s.cfg.base ∨ s.cfg.base + windowSize ≤ accessAddress a) :
    hostAccess a s = .fault .outsideWindow := by
  have hnone : offsetOf s.cfg (accessAddress a) = none := if_neg (by omega)
  rw [hostAccess, hnone]

section
variable {s : State} {off : Nat} {w : Width} (hoff : off < windowSize)
include hoff

theorem hostAccess_read (h : accessAllowed off w = true) :
    hostAccess (.read (s.cfg.base + off) w) s = .next { s with bus := some { error := false, data := readData s off w } } := by
  rw [hostAccess_of_offset rfl hoff, accessAt, if_pos h]

theorem hostAccess_write (h : accessAllowed off w = true) (v : Word) :
    hostAccess (.write (s.cfg.base + off) w v) s = .next { writeData off w v s with bus := some okayWrite } := by
  rw [hostAccess_of_offset rfl hoff, accessAt, if_pos h]
  rfl

theorem hostAccess_read_disallowed (h : ¬accessAllowed off w = true) :
    hostAccess (.read (s.cfg.base + off) w) s = .next { s with bus := some { error := true, data := 0 } } := by
  rw [hostAccess_of_offset rfl hoff, accessAt, if_neg h]

theorem hostAccess_write_disallowed (h : ¬accessAllowed off w = true) (v : Word) :
    hostAccess (.write (s.cfg.base + off) w v) s = .next { s with bus := some { error := true, data := 0 } } := by
  rw [hostAccess_of_offset rfl hoff, accessAt, if_neg h]

end

/-- A word write to a register that is locked while a command runs, or is not, has the register's own effect (R89). -/
theorem hostAccess_write_register {off : Nat} (hoff : off < 0x100) (hal : off % 4 = 0) (v : Word) (s : State) :
    hostAccess (.write (s.cfg.base + off) .word v) s = .next { writeRegister off v s with bus := some okayWrite } := by
  have hin : off < windowSize := by simp only [windowSize]; omega
  rw [hostAccess_write hin ((accessAllowed_iff _ _).2 ⟨fun _ => rfl, hal⟩), writeData, if_pos hoff]

/-- Settles O49: the two checks of R83 and R84 decide, and an access past them has its response with its effect. -/
theorem disallowedAccessHasNoEffect : Obligations.DisallowedAccessHasNoEffect := by
  intro s off w v hoff
  rw [← accessAllowed_iff]
  exact ⟨fun h => ⟨hostAccess_read hoff h, _, hostAccess_write hoff h v, rfl⟩,
    fun h => ⟨hostAccess_read_disallowed hoff h, hostAccess_write_disallowed hoff h v⟩⟩

/-- Settles O50: a read only sets the response, allowed or not. -/
theorem readsChangeNothingAndOutsideAddressesStop : Obligations.ReadsChangeNothingAndOutsideAddressesStop := by
  refine ⟨fun s t addr w h => ?read, fun s addr w v h => ⟨hostAccess_outside h, hostAccess_outside h⟩⟩
  case read =>
    obtain ⟨off, -, rfl⟩ := hostAccess_next h
    rw [accessAt]
    split_ifs <;> rfl

/-! ### The parts of the map -/

/-- The regions that a write stores to (R89). -/
def Storing (r : Region) : Prop := r = .key ∨ r = .idkey ∨ r = .salt ∨ r = .mktag ∨ r = .ibuf

theorem storing_regionOf {off : Nat}
    (h : 0x100 ≤ off ∧ off < 0x130 ∨ 0x140 ≤ off ∧ off < 0x160 ∨ 0x400 ≤ off ∧ off < 0x600) : Storing (regionOf off) := by
  unfold Storing regionOf
  split_ifs <;> simp <;> omega

theorem regionOf_reserved_iff (off : Nat) :
    regionOf off = .reserved ↔
      0x130 ≤ off ∧ off < 0x140 ∨ 0x160 ≤ off ∧ off < 0x400 ∨ 0x600 ≤ off ∧ off < 0x1000 := by
  unfold regionOf
  split_ifs <;> simp <;> omega

theorem regionOf_keys {off : Nat} (h : 0x100 ≤ off ∧ off < 0x120) : regionOf off = .key ∨ regionOf off = .idkey := by
  unfold regionOf
  split_ifs <;> simp <;> omega

theorem regionOf_register_iff (off : Nat) : regionOf off = .register ↔ off < 0x100 := by
  unfold regionOf
  split_ifs <;> simp <;> omega

theorem storing_ne_register {off : Nat} (h : Storing (regionOf off)) : 0x100 ≤ off := by
  by_contra hlt
  rw [(regionOf_register_iff off).2 (by omega)] at h
  simp [Storing] at h

/-- A write to a storing window is under the busy lock (R91). -/
theorem writeData_storing {off : Nat} (h : Storing (regionOf off)) (w : Width) (v : Word) (s : State) :
    writeData off w v s =
      unlessBusy s { s with mem := Memory.store s.mem off ((wordBytes v).take (widthBytes w)) } := by
  have hoff := storing_ne_register h
  rw [writeData, if_neg (by omega), writeWindow]
  rcases h with h | h | h | h | h <;> rw [h]

theorem unlessBusy_of_busy {s : State} (h : s.status.busy = true) (t : State) :
    unlessBusy s t = { s with status := statusLocked s.status } := if_pos h

theorem unlessBusy_of_not_busy {s : State} (h : s.status.busy = false) (t : State) : unlessBusy s t = t :=
  if_neg (by simp [h])

/-- A word write to `CTRL` with bit 2 set is a soft reset (10_state.md R36). -/
theorem writeRegister_ctrl_resets {v : Word} (hv : v.getLsbD 2 = true) (s : State) :
    writeRegister 0x004 v s = resetTlvc s := if_pos hv

/-- Without bit 2 the write stores the two bits of `CTRL` (10_state.md R36). -/
theorem writeRegister_ctrl_stores {v : Word} (hv : v.getLsbD 2 = false) (s : State) :
    writeRegister 0x004 v s = { s with ctrl := ctrlOfWord v } := by
  have e : writeRegister 0x004 v s = if v.getLsbD 2 = true then resetTlvc s else { s with ctrl := ctrlOfWord v } := rfl
  rw [e, hv, if_neg (by decide)]

/-! ### The busy lock -/

/-- Settles O51: every input's write goes through `unlessBusy`, those of CTRL and STATUS do not. -/
theorem busyLockIgnoresInputWrites : Obligations.BusyLockIgnoresInputWrites := by
  intro s off w v hb hoff ha
  refine ⟨fun hinput => ?locked, fun k => region_of_access ha, fun hctrl hv => ?ctrl, fun hstatus => ?status⟩
  case locked =>
    have hlock : writeData off w v s = { s with status := statusLocked s.status } := by
      rcases hinput with rfl | rfl | rfl | rfl | rfl | rfl | hwindow
      iterate 6 exact unlessBusy_of_busy hb _
      rw [writeData_storing (storing_regionOf hwindow), unlessBusy_of_busy hb]
    rw [hostAccess_write hoff ha, hlock]
    rfl
  case ctrl =>
    subst hctrl
    have hw : writeData 0x004 w v s = { s with ctrl := ctrlOfWord v } := writeRegister_ctrl_stores hv s
    rw [hostAccess_write hoff ha, hw]
    rfl
  case status =>
    subst hstatus
    rw [hostAccess_write hoff ha]
    rfl

/-! ### Windows that store -/

/-- Byte `k` of what an access writes is byte `k` of its value (R86). -/
theorem writtenBytes_getD (v : Word) {w : Width} {k : Nat} (hk : k < widthBytes w) :
    ((wordBytes v).take (widthBytes w)).getD k 0 = v.extractLsb' (8 * k) 8 := by
  have hk4 := hk.trans_le (widthBytes_le w)
  rw [List.getD_eq_getElem?_getD, List.getElem?_take_of_lt hk]
  match k, hk4 with
  | 0, _ => rfl
  | 1, _ => rfl
  | 2, _ => rfl
  | 3, _ => rfl

theorem read_stored_inside (m : Memory) (off : Nat) (v : Word) {w : Width} {k : Nat} (hk : k < widthBytes w) :
    Memory.read (Memory.store m off ((wordBytes v).take (widthBytes w))) (off + k) = v.extractLsb' (8 * k) 8 := by
  rw [Memory.read_store, writtenBytes_length, if_pos (by omega), Nat.add_sub_cancel_left, writtenBytes_getD v hk]

theorem read_stored_outside (m : Memory) {off : Nat} (v : Word) {w : Width} {a : Nat}
    (ha : a < off ∨ off + widthBytes w ≤ a) :
    Memory.read (Memory.store m off ((wordBytes v).take (widthBytes w))) a = Memory.read m a := by
  rw [Memory.read_store, writtenBytes_length, if_neg (by omega)]

/-- While no command runs, an allowed write to a storing window stores its bytes and changes nothing else. -/
theorem hostAccess_write_storing {s : State} {off : Nat} {w : Width} (hb : s.status.busy = false) (hoff : off < windowSize)
    (ha : accessAllowed off w = true) (hr : Storing (regionOf off)) (v : Word) :
    hostAccess (.write (s.cfg.base + off) w v) s =
      .next { s with
        mem := Memory.store s.mem off ((wordBytes v).take (widthBytes w)), bus := some okayWrite } := by
  rw [hostAccess_write hoff ha, writeData_storing hr, unlessBusy_of_not_busy hb]

/-- The windows that read as they are stored (R88). -/
def Readable (r : Region) : Prop := r = .salt ∨ r = .mktag ∨ r = .ibuf

theorem Readable.storing {r : Region} (h : Readable r) : Storing r := .inr (.inr h)

theorem readWindow_readable {off : Nat} (h : Readable (regionOf off)) (s : State) :
    readWindow s off = Memory.read s.mem off := by
  rw [readWindow]
  rcases h with h | h | h <;> rw [h]

theorem readData_readable_byte {off : Nat} {w : Width} (ha : accessAllowed off w = true) (hr : Readable (regionOf off))
    (s : State) {k : Nat} (hk : k < 4) :
    (readData s off w).extractLsb' (8 * k) 8 = if k < widthBytes w then Memory.read s.mem (off + k) else 0 := by
  rw [readData_of_window (storing_ne_register hr.storing), readWindowWord_byte s off w hk]
  split_ifs with hkw
  · rw [readWindow_readable (by rwa [region_of_access ha hkw])]
  · rfl

/-- A byte read is the byte with zeros above it. -/
theorem readData_readable_single {off : Nat} (hr : Readable (regionOf off)) (s : State) :
    readData s off .byte = (Memory.read s.mem off).setWidth 32 := by
  rw [readData_of_window (storing_ne_register hr.storing), ← readWindow_readable hr]
  have single : readWindowWord s off .byte = bytesWord (readWindow s off) 0 0 0 := rfl
  rw [single, bytesWord]
  refine BitVec.eq_of_toNat_eq ?_
  rw [BitVec.toNat_setWidth_of_le (by decide : 8 ≤ 32), append_toNat, append_toNat, append_toNat]
  simp

/-- Settles O53: the store puts byte `k` of the value at `off + k`, where both kinds of read find it. -/
theorem windowAccessIsLittleEndian : Obligations.WindowAccessIsLittleEndian := by
  intro s off w v hoff ha hr
  replace hr : Readable (regionOf off) := hr
  refine ⟨fun k hk => readData_readable_byte ha hr s hk, fun hb => ⟨_, hostAccess_write_storing hb hoff ha hr.storing v,
    fun k hk => ?single, fun k hk => ?whole, fun a houtside => read_stored_outside s.mem v houtside, rfl⟩⟩
  case single =>
    rw [readData_readable_single (by rwa [region_of_access ha hk])]
    exact congrArg _ (read_stored_inside s.mem off v hk)
  case whole =>
    rw [readData_readable_byte ha hr _ (hk.trans_le (widthBytes_le w)), if_pos hk]
    exact read_stored_inside s.mem off v hk

/-! ### What reads 0 -/

/-- Where the bytes of an access read 0, so does its word. -/
theorem readWindowWord_eq_zero_of_access {s : State} {off : Nat} {w : Width}
    (h : ∀ k, k < widthBytes w → readWindow s (off + k) = 0) : readWindowWord s off w = 0 := by
  have byte (k : Nat) : (if k < widthBytes w then readWindow s (off + k) else 0) = 0 := by
    split_ifs with hk
    · exact h k hk
    · rfl
  simp only [readWindowWord, byte]
  rfl

theorem readWindow_hidden {off : Nat} (h : regionOf off = .key ∨ regionOf off = .idkey ∨ regionOf off = .reserved)
    (s : State) : readWindow s off = 0 := by
  rw [readWindow]
  rcases h with h | h | h <;> rw [h]

/-- An allowed read of `KEY`, `IDKEY` or a reserved range gives 0 (R88). -/
theorem readData_hidden {off : Nat} {w : Width} (ha : accessAllowed off w = true)
    (h : regionOf off = .key ∨ regionOf off = .idkey ∨ regionOf off = .reserved) (s : State) : readData s off w = 0 := by
  have hoff : 0x100 ≤ off := by
    by_contra hlt
    rw [(regionOf_register_iff off).2 (by omega)] at h
    simp at h
  rw [readData_of_window hoff]
  exact readWindowWord_eq_zero_of_access fun k hk => readWindow_hidden (by rwa [region_of_access ha hk]) s

/-- Settles O54: the key windows store like the others and have no way out. -/
theorem keyWindowsStoreAndReadZero : Obligations.KeyWindowsStoreAndReadZero := by
  intro s off w v hlo hhi ha
  have hkeys := regionOf_keys ⟨hlo, hhi⟩
  have hin : off < windowSize := by simp only [windowSize]; omega
  refine ⟨readData_hidden ha (by tauto) s, fun hb => ⟨_,
    hostAccess_write_storing hb hin ha (storing_regionOf (.inl ⟨hlo, by omega⟩)) v,
    fun k hk => read_stored_inside s.mem off v hk, fun a houtside => read_stored_outside s.mem v houtside, rfl⟩⟩

/-! ### Read-only and reserved locations -/

theorem writeRegister_ignored {off : Nat}
    (h : off = 0x000 ∨ off = 0x014 ∨ off = 0x018 ∨ off = 0x01C ∨ 0x030 ≤ off) (v : Word) (s : State) :
    writeRegister off v s = s := by
  unfold writeRegister
  iterate 8 rw [if_neg (by omega)]

theorem writeWindow_ignored {off : Nat} (h : regionOf off = .obuf ∨ regionOf off = .reserved) (w : Width) (v : Word)
    (s : State) : writeWindow off w v s = s := by
  rw [writeWindow]
  rcases h with h | h <;> rw [h]

/-- The registers that read 0 (R88): `CMD` and the reserved offsets. -/
theorem readRegister_zero {off : Nat} (h : off = 0x00C ∨ off = 0x018 ∨ off = 0x01C ∨ 0x040 ≤ off) (s : State) :
    readRegister s off = 0 := by
  unfold readRegister
  iterate 13 rw [if_neg (by omega)]

/-- Settles O56: such a write has no effect, and such a read gives 0, or the constant of ID. -/
theorem readOnlyAndReservedLocationsActAsStated : Obligations.ReadOnlyAndReservedLocationsActAsStated := by
  intro s off w v hoff ha
  refine ⟨fun h => ?ignored, fun h => ?id, fun h => ?zero⟩
  case ignored =>
    have hw : writeData off w v s = s := by
      unfold writeData
      split_ifs with hreg
      · exact writeRegister_ignored (by omega) v s
      · by_cases hobuf : 0x1000 ≤ off
        · exact writeWindow_ignored (.inl (regionOf_obuf hobuf)) w v s
        · exact writeWindow_ignored (.inr ((regionOf_reserved_iff off).2 (by omega))) w v s
    rw [hostAccess_write hoff ha, hw]
    rfl
  case id =>
    subst h
    rw [hostAccess_read hoff ha]
    rfl
  case zero =>
    have hr : readData s off w = 0 := by
      by_cases hreg : off < 0x100
      · rw [readData, if_pos hreg, readRegister_zero (by omega)]
      · exact readData_hidden ha (.inr (.inr ((regionOf_reserved_iff off).2 (by omega)))) s
    rw [hostAccess_read hoff ha, hr]

/-! ### Registers that store -/

/-- Settles O55: the five writes past the busy lock, and the reads of the fields they set. -/
theorem operandRegistersStoreWhatIsWritten : Obligations.OperandRegistersStoreWhatIsWritten := by
  intro s v
  refine ⟨fun hb => ?stores, ?_, ?_, rfl, rfl, rfl, rfl⟩
  case stores =>
    have write {off : Nat} (hoff : off < 0x100) (hal : off % 4 = 0) {t : State} (h : writeRegister off v s = unlessBusy s t) :
        hostAccess (.write (s.cfg.base + off) .word v) s = .next { t with bus := some okayWrite } := by
      rw [hostAccess_write_register hoff hal, h, unlessBusy_of_not_busy hb]
    exact ⟨write (off := 0x010) (by decide) (by decide) rfl, write (off := 0x020) (by decide) (by decide) rfl,
      write (off := 0x024) (by decide) (by decide) rfl, write (off := 0x028) (by decide) (by decide) rfl,
      write (off := 0x02C) (by decide) (by decide) rfl⟩
  · exact (BitVec.toNat_setWidth_of_le (by decide : 10 ≤ 32)).trans (BitVec.extractLsb'_toNat ..)
  · exact BitVec.toNat_setWidth_of_le (by decide : 10 ≤ 32)

theorem ctrlWord_reset : ctrlWord State.reset.ctrl = 2 := by decide

theorem statusWord_reset : statusWord State.reset.status = 0 := by decide

/-- Settles O57: CTRL's two kinds of write, and STATUS's. -/
theorem controlAndStatusWritesAct : Obligations.ControlAndStatusWritesAct := by
  intro s v
  have ctrl := hostAccess_write_register (off := 0x004) (by decide) (by decide) v s
  refine ⟨fun hv => ⟨_, ctrl, ?reset, ?reads⟩, fun hv => ?stores, ?status⟩
  case reset =>
    rw [writeRegister_ctrl_resets hv]
    rfl
  case reads =>
    rw [writeRegister_ctrl_resets hv]
    exact ctrlWord_reset
  case stores =>
    rw [ctrl, writeRegister_ctrl_stores hv]
    rfl
  case status => exact hostAccess_write_register (off := 0x008) (by decide) (by decide) v s

/-! ### Reset -/

/-- A word write to `CTRL` with bit 2 set is a soft reset (10_state.md R36). -/
theorem hostAccess_softReset {v : Word} (hv : v.getLsbD 2 = true) (s : State) :
    hostAccess (.write (s.cfg.base + 0x004) .word v) s = .next { resetTlvc s with bus := some okayWrite } := by
  rw [hostAccess_write_register (by decide) (by decide), writeRegister_ctrl_resets hv]

/-- Settles O58: both kinds of reset leave `resetTlvc`, up to the bus response. -/
theorem resetLeavesTheResetCondition : Obligations.ResetLeavesTheResetCondition := by
  intro s t v hv h
  obtain ⟨b, rfl⟩ : ∃ b, t = { resetTlvc s with bus := b } := by
    rcases h with h | h
    · injection h with h
      exact ⟨s.bus, h.symm⟩
    · rw [hostAccess_softReset hv] at h
      injection h with h
      exact ⟨_, h.symm⟩
  exact ⟨rfl, rfl, rfl, rfl, rfl, rfl, rfl, rfl, rfl, ctrlWord_reset, statusWord_reset, rfl, rfl, rfl, fun _ => rfl, rfl, rfl, resetTlvc_epoch s, rfl,
    rfl, rfl, rfl⟩

/-! ### Acceptance -/

/-- Settles O32: past the busy lock the write to CMD is the acceptance. -/
theorem acceptanceLatchesAndClears : Obligations.AcceptanceLatchesAndClears := by
  intro s w hb
  have hw : writeRegister 0x00C w s = accept w s := unlessBusy_of_not_busy hb _
  refine ⟨_, hostAccess_write_register (by decide) (by decide) w s, ?_⟩
  rw [hw]
  exact ⟨rfl, rfl, rfl, rfl, rfl, rfl, rfl, rfl, rfl, rfl, Bool.and_false _, rfl, rfl, rfl, rfl, rfl, rfl, rfl, rfl, rfl, rfl⟩

end Sys2Proof.Machine
end

section
/-! One step of a command (40_lifecycle.md R164-R168): what it can be, what a failed command shows, which instruction the next
step runs, and that an engine in place always has its step. -/

namespace Sys2Proof.Machine

open Sys2Proof Sys2Proof.Safety

/-! ### A request or a commit -/

/-- Settles O33: a command takes one engine step, and each kind of engine step is one of the three. -/
theorem commandStepIsARequestOrACommit : Obligations.CommandStepIsARequestOrACommit := by
  intro i s t hi h
  obtain ⟨a, rfl⟩ := exec_command hi h
  cases a with
  | ask r w => exact .inl ⟨r, issueRequest_requests r w s⟩
  | ok out r0 r1 r2 r3 => exact .inr (.inl ⟨out, r0, r1, r2, r3, commitOk_commits out r0 r1 r2 r3 s⟩)
  | fail code k => exact .inr (.inr ⟨code, k, commitFail_commits code k s⟩)

/-- A step that leaves a request pending asked for it. -/
theorem ask_of_pending {a : Action} {s t : State} {r : Request} (h : t = perform a s) (hw : t.phase = .wait)
    (hp : t.pending = some r) : ∃ w, a = .ask r w := by
  obtain ⟨r', w, rfl, rfl⟩ := ask_of_wait h hw
  simp only [issueRequest_pending, Option.some.injEq] at hp
  exact ⟨w, by rw [hp]⟩

@[simp] theorem positionAfter_nonceRequest (c : Params) (extended : Bool) (salt : List Byte) :
    positionAfter (nonceRequest c extended salt) = .nonce := rfl

/-- The request of ADV_BUILD at each of its positions (20_memory.md R105). -/
theorem buildAction_order {s : State} {r : Request} {w : Work} (h : buildAction s = some (.ask r w)) :
    (s.work.pos, positionAfter r) ∈ [(Position.start, Position.nonce), (.nonce, .encrypt), (.encrypt, .sign)] := by
  rcases buildAction_ask h with ⟨hp, -, h⟩ | ⟨a, hp, -, h⟩ | ⟨a, hp, -, h⟩
  · obtain ⟨-, -, lead, -, rfl, -⟩ := buildStart_ask h
    simp [hp]
  · obtain ⟨-, -, -, -, -, rfl, -⟩ := buildAfterNonce_ask h
    simp [hp, positionAfter]
  · obtain ⟨-, -, rfl, -⟩ := buildAfterEncrypt_ask h
    simp [hp, positionAfter]

/-- The request of ADV_PARSE at each of its positions (20_memory.md R105). -/
theorem parseAction_order {s : State} {r : Request} {w : Work} (h : parseAction s = some (.ask r w)) :
    (s.work.pos, positionAfter r) ∈
      [(Position.start, Position.nonce), (.nonce, .decrypt), (.decrypt, .hash), (.hash, .verify)] := by
  rcases parseAction_ask h with ⟨hp, -, h⟩ | ⟨a, hp, -, h⟩ | ⟨a, hp, -, h⟩ | ⟨a, hp, -, h⟩
  · obtain ⟨-, -, -, hd, l, salt, -, -, -, -, -, rfl, -⟩ := parseStart_ask h
    simp [hp]
  · obtain ⟨-, hd, -, -, -, -, rfl, -⟩ := parseAfterNonce_ask h
    simp [hp, positionAfter]
  · obtain ⟨-, -, rfl, -⟩ := parseAfterDecrypt_ask h
    simp [hp, positionAfter]
  · obtain ⟨-, -, rfl, -⟩ := parseAfterHash_ask h
    simp [hp, positionAfter]

/-- Settles O30: only the frame commands ask, and each in its order. -/
theorem requestsComeInTheirOrder : Obligations.RequestsComeInTheirOrder := by
  intro i s t r hi h hw hp
  by_cases hb : i = .advBuild
  · subst hb
    obtain ⟨a, ha, ht⟩ := performAt_next h
    obtain ⟨w, rfl⟩ := ask_of_pending ht hw hp
    exact .inl ⟨rfl, buildAction_order ha⟩
  by_cases hpa : i = .advParse
  · subst hpa
    obtain ⟨a, ha, ht⟩ := performAt_next h
    obtain ⟨w, rfl⟩ := ask_of_pending ht hw hp
    exact .inr ⟨rfl, parseAction_order ha⟩
  · rw [exec_commit hi hb hpa h] at hw
    cases hw

/-! ### A failed command -/

theorem gated_zero (s : State) {n : Nat} : gated s (0 : BitVec n) = 0 := ite_self 0

/-- After a failure `OBUF` holds zeros alone (40_lifecycle.md R168). -/
theorem readData_obuf_of_commitFail (code : ErrorCode) (k : Nat) (s : State) {off : Nat} {w : Width} (hlo : obufOff ≤ off)
    (hhi : off + widthBytes w ≤ windowSize) : readData (commitFail code k s) off w = 0 := by
  have hlo' : 0x1000 ≤ off := hlo
  rw [readData_of_window (by omega)]
  refine readWindowWord_eq_zero_of_access fun j hj => ?_
  have hin : off + j < obufOff + obufBytes := by simp only [windowSize] at hhi; simp only [obufOff, obufBytes]; omega
  rw [readWindow_obuf (by omega), commitFail_mem, read_writeObuf, if_pos ⟨by omega, hin⟩]
  exact gated_zero _

/-- Settles O34: of the three engine steps only the failure sets ERR, and it leaves every result 0. -/
theorem failedCommandShowsNothing : Obligations.FailedCommandShowsNothing := by
  intro i s t off w hi h hs ht hoff ha
  obtain ⟨a, rfl⟩ := exec_command hi h
  cases a with
  | ask r w => exact absurd (hs.symm.trans ht) (by decide)
  | ok out r0 r1 r2 r3 => exact absurd (hs.symm.trans ht) (by decide)
  | fail code k =>
    rw [perform_fail]
    rcases hoff with rfl | ⟨hlo, hhi⟩ | ⟨hlo, hhi⟩
    · rw [readData_outLen]; exact gated_zero _
    · obtain ⟨-, hal⟩ := register_access_aligned ha (by omega)
      obtain rfl | rfl | rfl | rfl : off = 0x030 ∨ off = 0x034 ∨ off = 0x038 ∨ off = 0x03C := by omega
      · rw [readData_res0]; exact gated_zero _
      · rw [readData_res1]; exact gated_zero _
      · rw [readData_res2]; exact gated_zero _
      · rw [readData_res3]; exact gated_zero _
    · exact readData_obuf_of_commitFail code k s hlo hhi

/-! ### Which instruction a step runs -/

/-- Taking nothing off an empty list of events changes nothing. -/
theorem events_tail_of_nil {s : State} (h : s.events = []) : { s with events := s.events.tail } = s := by
  rw [h, List.tail_nil, ← h]

/-- The engine's turn: its event comes next, or no event is left (log 1). -/
theorem step_engine_turn {s : State} (hw : s.cfg.wf) (h : s.events = [] ∨ s.events.head? = some .engine) :
    step s = engineStep { s with events := s.events.tail } := by
  rcases h with h | h
  · rw [events_tail_of_nil h, step_of_wf hw, nextStep, h]
  · obtain ⟨es, hes⟩ := List.head?_eq_some_iff.1 h
    rw [step_of_wf hw, nextStep, hes]
    rfl

/-- Settles O35: the three ways in which a step runs an instruction. -/
theorem stepRunsTheDecodedInstruction : Obligations.StepRunsTheDecodedInstruction := by
  intro s i hw h
  have turn (he : s.events = [] ∨ s.events.head? = some .engine)
      (hr : (if s.phase = .run then some (fetchCommand s) else none) = some i) :
      step s = exec i { s with events := s.events.tail } := by
    by_cases hp : s.phase = .run
    · rw [if_pos hp, Option.some.injEq] at hr
      rw [step_engine_turn hw he, engineStep_of_run (s := { s with events := s.events.tail }) hp, ← hr]
      rfl
    · rw [if_neg hp] at hr
      cases hr
  cases he : s.events with
  | nil =>
    rw [nextInstr, he] at h
    rw [← he]
    exact turn (.inl he) h
  | cons e es =>
    rw [nextInstr, he] at h
    cases e with
    | engine =>
      rw [← he]
      exact turn (.inr (by rw [he]; rfl)) h
    | headerByte b =>
      rw [step_of_wf hw, nextStep, he]
      simp only [Option.some.injEq] at h
      rw [← h]
      rfl
    | host a => cases h
    | cryptor n r => cases h
    | reset => cases h

/-- A placed table word is the next instruction: a header byte at the start of a header, or a latched command word. -/
theorem nextInstr_withFetchWord {s : State} {nbits w : Nat} {i : Instr} (h : decodeTableWord nbits w = some i) :
    nextInstr (s.withFetchWord nbits w) = some i ∧ (s.withFetchWord nbits w).events.tail = s.events := by
  unfold decodeTableWord at h
  unfold State.withFetchWord placeTableWord
  split_ifs at h with hh hlt
  · rw [decode_headerStart] at h
    rw [if_pos hh]
    exact ⟨h, rfl⟩
  · rw [decode_wordBytes] at h
    rw [if_neg hh]
    exact ⟨h, rfl⟩

/-- Settles O36: the step of the placed state is O35's. -/
theorem placedTableWordIsRunNext : Obligations.PlacedTableWordIsRunNext := by
  intro s nbits w i hw h
  obtain ⟨hnext, htail⟩ := nextInstr_withFetchWord (s := s) h
  have hcfg : (s.withFetchWord nbits w).cfg.wf := by
    unfold State.withFetchWord placeTableWord
    split_ifs <;> exact hw
  refine ⟨hnext, ?_⟩
  rw [stepRunsTheDecodedInstruction _ i hcfg hnext, htail]

/-! ### An engine in place -/

/-- A command other than the frame commands always has its step. -/
theorem exec_other_next {i : Instr} (hi : i.position = .command) (hb : i ≠ .advBuild) (hp : i ≠ .advParse) (s : State) :
    ∃ t, exec i s = .next t := by
  cases i with
  | hdrEnc | hdrDec | eiEnc | eiDec | scan | illegalZero _ | illegalHigh _ _ | illegalReserved _ _ => exact ⟨_, rfl⟩
  | advBuild => exact absurd rfl hb
  | advParse => exact absurd rfl hp
  | hdr1 _ _ | hdrm _ | groupCont _ | groupFinal _ => cases hi

/-- ADV_BUILD has a step at its start and, with an answer, at each of its positions. -/
theorem buildAction_isSome {s : State}
    (h : s.work.pos = .start ∨ s.work.pos ∈ positionsOf .advBuild ∧ s.work.answer ≠ none) : ∃ a, buildAction s = some a := by
  rcases h with hp | ⟨hp, ha⟩
  · simp only [buildAction, hp, Option.some.injEq, exists_eq']
  · obtain ⟨r, hr⟩ := Option.ne_none_iff_exists'.1 ha
    simp only [positionsOf, List.mem_cons, List.not_mem_nil, or_false] at hp
    rcases hp with hp | hp | hp <;> simp only [buildAction, hp, hr, Option.some.injEq, exists_eq']

/-- ADV_PARSE has a step at its start and, with an answer, at each of its positions. -/
theorem parseAction_isSome {s : State}
    (h : s.work.pos = .start ∨ s.work.pos ∈ positionsOf .advParse ∧ s.work.answer ≠ none) : ∃ a, parseAction s = some a := by
  rcases h with hp | ⟨hp, ha⟩
  · simp only [parseAction, hp, Option.some.injEq, exists_eq']
  · obtain ⟨r, hr⟩ := Option.ne_none_iff_exists'.1 ha
    simp only [positionsOf, List.mem_cons, List.not_mem_nil, or_false] at hp
    rcases hp with hp | hp | hp | hp <;> simp only [parseAction, hp, hr, Option.some.injEq, exists_eq']

theorem exec_fetchCommand_next {s : State}
    (h : s.work.pos = .start ∨ s.work.pos ∈ positionsOf (fetchCommand s) ∧ s.work.answer ≠ none) :
    ∃ t, exec (fetchCommand s) s = .next t := by
  by_cases hb : fetchCommand s = .advBuild
  · rw [hb] at h ⊢
    obtain ⟨a, ha⟩ := buildAction_isSome h
    exact ⟨_, exec_advBuild_of ha⟩
  by_cases hp : fetchCommand s = .advParse
  · rw [hp] at h ⊢
    obtain ⟨a, ha⟩ := parseAction_isSome h
    exact ⟨_, exec_advParse_of ha⟩
  · exact exec_other_next (fetchCommand_position s) hb hp s

/-- Settles O44: in RUN the command has its step where it stands, and in WAIT and IDLE the engine has none. -/
theorem engineStepNeverStops : Obligations.EngineStepNeverStops := by
  intro s hw he
  rw [step_engine_turn hw he]
  refine ⟨fun hplace => ?_, fun hp => engineStep_of_not_run (s := { s with events := s.events.tail }) ?_⟩
  · by_cases hp : s.phase = .run
    · rw [engineStep_of_run (s := { s with events := s.events.tail }) hp]
      exact exec_fetchCommand_next (s := { s with events := s.events.tail }) (hplace.2 hp)
    · exact ⟨_, engineStep_of_not_run (s := { s with events := s.events.tail }) hp⟩
  · rcases hp with hp | hp <;> simp [hp]

end Sys2Proof.Machine
end

section
/-! The invariants of every run, first part: the windows' canonical form, the flags, the held operands and the engine's position.
What a step can do is packaged once: a property that every kind of move brings about holds after every step. -/

namespace Sys2Proof.Machine

open Sys2Proof Sys2Proof.Safety

/-! ### From moves to steps -/

/-- The effects that an allowed write can have (20_memory.md R89): from `s` to the state at the end. -/
inductive WriteEffect (off : Nat) (w : Width) (v : Word) (s : State) : State → Prop
  | ignored : WriteEffect off w v s s
  | reset (hoff : off = 0x004) (hv : v.getLsbD 2 = true) : WriteEffect off w v s (resetTlvc s)
  | control : WriteEffect off w v s { s with ctrl := ctrlOfWord v }
  | cleared : WriteEffect off w v s { s with status := statusClear v s.status }
  | locked (hb : s.status.busy = true) : WriteEffect off w v s { s with status := statusLocked s.status }
  | accepted (hb : s.status.busy = false) : WriteEffect off w v s (accept v s)
  | inLen (hb : s.status.busy = false) : WriteEffect off w v s { s with inLen := v.extractLsb' 0 10 }
  | arg0 (hb : s.status.busy = false) : WriteEffect off w v s { s with arg0 := v }
  | arg1 (hb : s.status.busy = false) : WriteEffect off w v s { s with arg1 := v }
  | arg2 (hb : s.status.busy = false) : WriteEffect off w v s { s with arg2 := v }
  | arg3 (hb : s.status.busy = false) : WriteEffect off w v s { s with arg3 := v }
  | stored (hb : s.status.busy = false) (hr : Storing (regionOf off)) :
    WriteEffect off w v s { s with mem := Memory.store s.mem off ((wordBytes v).take (widthBytes w)) }

/-- Past the busy lock a write has its own effect. -/
theorem WriteEffect.unlessBusy {off : Nat} {w : Width} {v : Word} {s t : State}
    (h : s.status.busy = false → WriteEffect off w v s t) : WriteEffect off w v s (Machine.unlessBusy s t) := by
  rcases unlessBusy_cases s t with ⟨hb, e⟩ | ⟨hb, e⟩ <;> rw [e]
  · exact .locked hb
  · exact h hb

theorem writeRegister_effect (off : Nat) (w : Width) (v : Word) (s : State) :
    WriteEffect off w v s (writeRegister off v s) := by
  unfold writeRegister
  split_ifs with h4 hv
  · exact .reset h4 hv
  · exact .control
  · exact .cleared
  · exact .unlessBusy .accepted
  · exact .unlessBusy .inLen
  · exact .unlessBusy .arg0
  · exact .unlessBusy .arg1
  · exact .unlessBusy .arg2
  · exact .unlessBusy .arg3
  · exact .ignored

/-- What an allowed write does is one of its effects. -/
theorem writeData_effect (off : Nat) (w : Width) (v : Word) (s : State) : WriteEffect off w v s (writeData off w v s) := by
  by_cases hr : Storing (regionOf off)
  · rw [writeData_storing hr]
    exact .unlessBusy fun hb => .stored hb hr
  · unfold writeData
    split_ifs
    · exact writeRegister_effect off w v s
    · have hw : writeWindow off w v s = s := by
        cases hreg : regionOf off <;> simp [Storing, hreg] at hr <;> simp only [writeWindow, hreg]
      rw [hw]
      exact .ignored

/-- Every kind of move takes a state with `Q` to one with `R`. Neither property looks at the events to come or at the bus
response. -/
structure Establishes (Q R : State → Prop) : Prop where
  events : ∀ s es, Q s → Q { s with events := es }
  stay : ∀ s, Q s → R s
  bus : ∀ s b, R s → R { s with bus := b }
  write : ∀ {s t off w v}, Q s → accessAllowed off w = true → WriteEffect off w v s t → R t
  command : ∀ s t, Q s → s.phase = .run → exec (fetchCommand s) s = .next t → R t
  answer : ∀ s r, Q s → s.phase = .wait → r.data.length ≤ cryRspMax →
    R { s with phase := .run, pending := none, work := { s.work with answer := some r } }
  reset : ∀ s, Q s → R (resetTlvc s)
  header : ∀ s u, Q s → R { s with work := { s.work with hdr := u } }

theorem Establishes.step {Q R : State → Prop} (h : Establishes Q R) {s t : State} (hs : Q s)
    (hstep : Machine.step s = .next t) : R t := by
  obtain ⟨-, s', hs', hmove⟩ := step_next hstep
  have hQ : Q s' := by rw [hs']; exact h.events s _ hs
  rcases hmove with ⟨off, a, -, rfl⟩ | ⟨hrun, hexec⟩ | rfl | ⟨r, hwait, hr, rfl⟩ | rfl | ⟨u, rfl⟩
  · obtain ⟨b, hb | ⟨w, v, ha, hw⟩⟩ := accessAt_cases off a s'
    · rw [hb]; exact h.bus s' _ (h.stay s' hQ)
    · rw [hw]; exact h.bus _ _ (h.write hQ ha (writeData_effect off w v s'))
  · exact h.command s' t hQ hrun hexec
  · exact h.stay t hQ
  · exact h.answer s' r hQ hwait hr
  · exact h.reset s' hQ
  · exact h.header s' u hQ

/-- The engine's step of the latched command is one engine step. -/
theorem exec_fetchCommand {s t : State} (h : exec (fetchCommand s) s = .next t) : ∃ a, t = perform a s :=
  exec_command (fetchCommand_position s) h

/-! ### The windows -/

theorem windowsCanonical_nil {s : State} (h : s.mem = []) : WindowsCanonical s := by
  rw [WindowsCanonical, h]
  exact ⟨reset_mem_wf, fun c hc => absurd hc List.not_mem_nil⟩

/-- The result of a commit keeps the canonical form: `OBUF` is a window. -/
theorem windowsCanonical_writeObuf {s t : State} (h : WindowsCanonical s) {out : List Byte} (ht : t.mem = writeObuf s.mem out) :
    WindowsCanonical t := by
  obtain ⟨hwf, hin⟩ := h
  rw [WindowsCanonical, ht]
  refine ⟨writeObuf_wf hwf out, fun c hc => ?_⟩
  rcases Memory.mem_fill hc with hc | ⟨hlo, hhi⟩
  · exact hin c hc
  · rw [regionOf_obuf hlo]
    exact ⟨hhi, by decide, by decide⟩

/-- A store to a storing window keeps the canonical form: an allowed access does not leave its region. -/
theorem windowsCanonical_store {s : State} (h : WindowsCanonical s) {off : Nat} {w : Width}
    (ha : accessAllowed off w = true) (hr : Storing (regionOf off)) (v : Word) :
    WindowsCanonical { s with mem := Memory.store s.mem off ((wordBytes v).take (widthBytes w)) } := by
  obtain ⟨hwf, hin⟩ := h
  refine ⟨Memory.store_wf hwf _ _, fun c hc => ?_⟩
  rcases Memory.mem_fill hc with hc | ⟨hlo, hhi⟩
  · exact hin c hc
  · rw [writtenBytes_length] at hhi
    obtain ⟨k, hk⟩ := Nat.exists_eq_add_of_le hlo
    have hreg : Storing (regionOf c.1) := by rw [hk, region_of_access ha (by omega)]; exact hr
    refine ⟨?_, ?_, ?_⟩
    · by_contra hfar
      rw [regionOf_obuf (by simp only [windowSize] at hfar; omega)] at hreg
      simp [Storing] at hreg
    · intro hz; rw [hz] at hreg; simp [Storing] at hreg
    · intro hz; rw [hz] at hreg; simp [Storing] at hreg

theorem windowsCanonical_write {s t : State} {off : Nat} {w : Width} {v : Word} (h : WindowsCanonical s)
    (ha : accessAllowed off w = true) (e : WriteEffect off w v s t) : WindowsCanonical t := by
  cases e with
  | reset => exact windowsCanonical_nil rfl
  | stored _ hr => exact windowsCanonical_store h ha hr v
  | ignored | control | cleared | locked _ | accepted _ | inLen _ | arg0 _ | arg1 _ | arg2 _ | arg3 _ => exact h

/-- Settles O38: a memory is kept, emptied, given a new `OBUF`, or written in a storing window. -/
theorem windowsStayCanonical : Obligations.WindowsStayCanonical := by
  have moves : Establishes WindowsCanonical WindowsCanonical :=
    { events := fun _ _ h => h
      stay := fun _ h => h
      bus := fun _ _ h => h
      write := windowsCanonical_write
      command := fun s t h _ hexec => by
        obtain ⟨a, rfl⟩ := exec_fetchCommand hexec
        cases a with
        | ask r w => exact h
        | ok out r0 r1 r2 r3 => exact windowsCanonical_writeObuf h (commitOk_mem out r0 r1 r2 r3 s)
        | fail code k => exact windowsCanonical_writeObuf h (commitFail_mem code k s)
      answer := fun _ _ h _ _ => h
      reset := fun s _ => windowsCanonical_nil (resetTlvc_mem s)
      header := fun _ _ h => h }
  exact fun s t => moves.step

/-! ### The flags -/

theorem flagsAgree_reset (s : State) : FlagsAgree (resetTlvc s) := by
  simp [FlagsAgree, ResultsHold]

/-- Acceptance, while no command runs (40_lifecycle.md R160). -/
theorem flagsAgree_accept {s : State} (h : FlagsAgree s) (hb : s.status.busy = false) (w : Word) :
    FlagsAgree (accept w s) := by
  obtain ⟨hbusy, hpend, -⟩ := h
  have hidle : s.phase = .idle := by
    by_contra hne
    rw [hbusy.2 hne] at hb
    cases hb
  have hnone : s.pending = none := by
    by_contra hne
    rw [hpend.1 hne] at hidle
    cases hidle
  simp [FlagsAgree, ResultsHold, hnone]

/-- A W1C write only clears flags (10_state.md R37). -/
theorem flagsAgree_statusClear {s : State} (h : FlagsAgree s) (v : Word) :
    FlagsAgree { s with status := statusClear v s.status } := by
  obtain ⟨hbusy, hpend, hone, hdone, herr, hcode, hstep, hzero, hrun, hres⟩ := h
  refine ⟨hbusy, hpend, ?_, ?_, ?_, hcode, hstep, hzero, fun hb => ?_, hres⟩
  · rintro ⟨hd, he⟩
    exact hone ⟨Bool.and_elim_left hd, Bool.and_elim_left he⟩
  · exact fun hd => hdone (Bool.and_elim_left hd)
  · exact fun he => herr (Bool.and_elim_left he)
  · obtain ⟨hd, he, hc⟩ := hrun hb
    exact ⟨by simp [hd], by simp [he], hc⟩

theorem flagsAgree_write {s t : State} {off : Nat} {w : Width} {v : Word} (h : FlagsAgree s)
    (e : WriteEffect off w v s t) : FlagsAgree t := by
  cases e with
  | reset => exact flagsAgree_reset s
  | cleared => exact flagsAgree_statusClear h v
  | accepted hb => exact flagsAgree_accept h hb v
  | ignored | control | locked _ | inLen _ | arg0 _ | arg1 _ | arg2 _ | arg3 _ | stored _ _ => exact h

/-- A running engine shows nothing of an earlier completion. -/
theorem flagsAgree_run {s : State} (h : FlagsAgree s) (hne : s.phase ≠ .idle) :
    s.status.busy = true ∧ s.status.done = false ∧ s.status.err = false ∧ s.status.errcode = 0 ∧ s.status.failStep = 0 ∧
      ResultsHold s 0 0 0 0 ∧ s.outLen = 0 := by
  obtain ⟨hbusy, -, -, -, -, -, -, hzero, hrun, hres⟩ := h
  have hb := hbusy.2 hne
  obtain ⟨hd, he, hc⟩ := hrun hb
  exact ⟨hb, hd, he, hc, hzero hc, hres (.inl hb)⟩

theorem errorNumber_bounds (code : ErrorCode) : 1 ≤ errorNumber code ∧ errorNumber code ≤ 16 := by
  cases code <;> decide

theorem flagsAgree_perform {s : State} (h : FlagsAgree s) (hrun : s.phase = .run) {a : Action} (hk : FailsWithinNine a) :
    FlagsAgree (perform a s) := by
  obtain ⟨hb, hd, he, hc, hf, hres, hout⟩ := flagsAgree_run h (by rw [hrun]; decide)
  cases a with
  | ask r w => simpa [FlagsAgree, hb, hd, he, hc, hf, ResultsHold, hout] using hres
  | ok out r0 r1 r2 r3 => simp [FlagsAgree, he]
  | fail code k =>
    have hk : k ≤ 9 := hk
    obtain ⟨hlo, hhi⟩ := errorNumber_bounds code
    have hcode : (BitVec.ofNat 5 (errorNumber code)).toNat = errorNumber code := by
      rw [BitVec.toNat_ofNat, Nat.mod_eq_of_lt (by omega)]
    have hne : BitVec.ofNat 5 (errorNumber code) ≠ 0 := fun hz => by
      rw [hz] at hcode
      exact absurd hcode.symm (by simp; omega)
    have hstep : (BitVec.ofNat 4 k).toNat = k := by rw [BitVec.toNat_ofNat, Nat.mod_eq_of_lt (by omega)]
    refine ⟨by simp, by simp, by simp [hd], by simp [hd], fun _ => hne, ?_, ?_, fun hz => absurd hz hne, by simp,
      fun _ => ⟨⟨rfl, rfl, rfl, rfl⟩, rfl⟩⟩
    · exact hcode.trans_le hhi
    · exact hstep.trans_le hk

/-- Taking an answer moves the engine from WAIT to RUN with no request left. -/
theorem flagsAgree_answer {s : State} (h : FlagsAgree s) (hwait : s.phase = .wait) (r : Response) :
    FlagsAgree { s with phase := .run, pending := none, work := { s.work with answer := some r } } := by
  obtain ⟨hb, hd, he, hc, hf, hres, hout⟩ := flagsAgree_run h (by rw [hwait]; decide)
  simpa [FlagsAgree, hb, hd, he, hc, hf, ResultsHold, hout] using hres

/-- Settles O39: what each move does to the flags, the phase, the pending request and the results. -/
theorem flagsStayInAgreement : Obligations.FlagsStayInAgreement := by
  have moves : Establishes FlagsAgree FlagsAgree :=
    { events := fun _ _ h => h
      stay := fun _ h => h
      bus := fun _ _ h => h
      write := fun h _ => flagsAgree_write h
      command := fun s t h hrun hexec => by
        obtain ⟨a, rfl, hk⟩ := exec_command_stepLe (fetchCommand_position s) hexec
        exact flagsAgree_perform h hrun hk
      answer := fun _ r h hwait _ => flagsAgree_answer h hwait r
      reset := fun s _ => flagsAgree_reset s
      header := fun _ _ h => h }
  exact fun s t => moves.step

/-! ### The held operands -/

theorem operandsHeld_of_not_busy {s : State} (h : s.status.busy = false) : OperandsHeld s := fun hb => by
  rw [h] at hb
  cases hb

theorem operandsHeld_write {s t : State} {off : Nat} {w : Width} {v : Word} (h : OperandsHeld s)
    (e : WriteEffect off w v s t) : OperandsHeld t := by
  cases e with
  | reset => exact operandsHeld_of_not_busy rfl
  | accepted _ => exact fun _ => ⟨rfl, rfl, rfl, rfl, rfl⟩
  | inLen hb | arg0 hb | arg1 hb | arg2 hb | arg3 hb => exact operandsHeld_of_not_busy hb
  | ignored | control | cleared | locked _ | stored _ _ => exact h

/-- Settles O40: an operand register is written only while no command runs, and acceptance latches it. -/
theorem operandsStayHeldWhileBusy : Obligations.OperandsStayHeldWhileBusy := by
  have moves : Establishes OperandsHeld OperandsHeld :=
    { events := fun _ _ h => h
      stay := fun _ h => h
      bus := fun _ _ h => h
      write := fun h _ => operandsHeld_write h
      command := fun s t h _ hexec => by
        obtain ⟨a, rfl⟩ := exec_fetchCommand hexec
        cases a with
        | ask r w => exact h
        | ok out r0 r1 r2 r3 => exact operandsHeld_of_not_busy rfl
        | fail code k => exact operandsHeld_of_not_busy rfl
      answer := fun _ _ h _ _ => h
      reset := fun _ _ => operandsHeld_of_not_busy rfl
      header := fun _ _ h => h }
  exact fun s t _ => moves.step

/-! ### The engine's position -/

theorem engineInPlace_idle {s : State} (h : s.phase = .idle) : EngineInPlace s :=
  ⟨fun hw => absurd (h.symm.trans hw) (by decide), fun hr => absurd (h.symm.trans hr) (by decide)⟩

theorem engineInPlace_accept (w : Word) (s : State) : EngineInPlace (accept w s) :=
  ⟨fun hw => absurd hw (by simp), fun _ => .inl rfl⟩

theorem engineInPlace_write {s t : State} {off : Nat} {w : Width} {v : Word} (h : EngineInPlace s)
    (e : WriteEffect off w v s t) : EngineInPlace t := by
  cases e with
  | reset => exact engineInPlace_idle rfl
  | accepted _ => exact engineInPlace_accept v s
  | ignored | control | cleared | locked _ | inLen _ | arg0 _ | arg1 _ | arg2 _ | arg3 _ | stored _ _ => exact h

/-- Where ADV_BUILD asks, it moves to the position of its request. -/
theorem buildAction_pos {s : State} {r : Request} {w : Work} (h : buildAction s = some (.ask r w)) :
    w.pos ∈ positionsOf .advBuild ∧ w.pos = positionAfter r := by
  rcases buildAction_ask h with ⟨-, -, h⟩ | ⟨a, -, -, h⟩ | ⟨a, -, -, h⟩
  · obtain ⟨-, -, lead, -, rfl, rfl⟩ := buildStart_ask h
    exact ⟨by simp [positionsOf], rfl⟩
  · obtain ⟨-, -, -, -, -, rfl, rfl⟩ := buildAfterNonce_ask h
    exact ⟨by simp [positionsOf], rfl⟩
  · obtain ⟨-, -, rfl, rfl⟩ := buildAfterEncrypt_ask h
    exact ⟨by simp [positionsOf], rfl⟩

/-- Where ADV_PARSE asks, it moves to the position of its request. -/
theorem parseAction_pos {s : State} {r : Request} {w : Work} (h : parseAction s = some (.ask r w)) :
    w.pos ∈ positionsOf .advParse ∧ w.pos = positionAfter r := by
  rcases parseAction_ask h with ⟨-, -, h⟩ | ⟨a, -, -, h⟩ | ⟨a, -, -, h⟩ | ⟨a, -, -, h⟩
  · obtain ⟨-, -, -, hd, l, salt, -, -, -, -, -, rfl, rfl⟩ := parseStart_ask h
    exact ⟨by simp [positionsOf], rfl⟩
  · obtain ⟨-, hd, -, -, -, -, rfl, rfl⟩ := parseAfterNonce_ask h
    exact ⟨by simp [positionsOf], rfl⟩
  · obtain ⟨-, -, rfl, rfl⟩ := parseAfterDecrypt_ask h
    exact ⟨by simp [positionsOf], rfl⟩
  · obtain ⟨-, -, rfl, rfl⟩ := parseAfterHash_ask h
    exact ⟨by simp [positionsOf], rfl⟩

/-- The engine step of a command that asks is one of the frame commands' (20_memory.md R105). -/
theorem exec_fetchCommand_wait {s t : State} (h : exec (fetchCommand s) s = .next t) (hw : t.phase = .wait) :
    ∃ r w, t = issueRequest r w s ∧
      (fetchCommand s = .advBuild ∧ buildAction s = some (.ask r w) ∨
        fetchCommand s = .advParse ∧ parseAction s = some (.ask r w)) := by
  by_cases hb : fetchCommand s = .advBuild
  · rw [hb] at h
    obtain ⟨a, ha, ht⟩ := performAt_next h
    obtain ⟨r, w, rfl, ht⟩ := ask_of_wait ht hw
    exact ⟨r, w, ht, .inl ⟨hb, ha⟩⟩
  by_cases hp : fetchCommand s = .advParse
  · rw [hp] at h
    obtain ⟨a, ha, ht⟩ := performAt_next h
    obtain ⟨r, w, rfl, ht⟩ := ask_of_wait ht hw
    exact ⟨r, w, ht, .inr ⟨hp, ha⟩⟩
  · rw [exec_commit (fetchCommand_position s) hb hp h] at hw
    cases hw

/-- A request leaves the engine waiting at the request's position. -/
theorem engineInPlace_issueRequest {r : Request} {w : Work} {s : State}
    (h : w.pos ∈ positionsOf (fetchCommand s) ∧ w.pos = positionAfter r) : EngineInPlace (issueRequest r w s) := by
  obtain ⟨hmem, hpos⟩ := h
  refine ⟨fun _ => ⟨hmem, fun r' hr' => ?_⟩, fun hrun => absurd hrun (by simp)⟩
  rw [issueRequest_pending, Option.some.injEq] at hr'
  rw [← hr']
  exact hpos

/-- The phase that each engine step leaves. -/
theorem exec_fetchCommand_phase {s t : State} (h : exec (fetchCommand s) s = .next t) : t.phase = .wait ∨ t.phase = .idle := by
  obtain ⟨a, rfl⟩ := exec_fetchCommand h
  cases a with
  | ask r w => exact .inl rfl
  | ok out r0 r1 r2 r3 => exact .inr rfl
  | fail code k => exact .inr rfl

theorem engineInPlace_command {s t : State} (hexec : exec (fetchCommand s) s = .next t) : EngineInPlace t := by
  rcases exec_fetchCommand_phase hexec with hw | hi
  · obtain ⟨r, w, rfl, ⟨hc, ha⟩ | ⟨hc, ha⟩⟩ := exec_fetchCommand_wait hexec hw
    · exact engineInPlace_issueRequest (by rw [hc]; exact buildAction_pos ha)
    · exact engineInPlace_issueRequest (by rw [hc]; exact parseAction_pos ha)
  · exact engineInPlace_idle hi

/-- Settles O41: acceptance puts the engine at the start, a request at its position, and an answer leaves it there. -/
theorem engineStaysInPlace : Obligations.EngineStaysInPlace := by
  have moves : Establishes EngineInPlace EngineInPlace :=
    { events := fun _ _ h => h
      stay := fun _ h => h
      bus := fun _ _ h => h
      write := fun h _ => engineInPlace_write h
      command := fun _ _ _ _ hexec => engineInPlace_command hexec
      answer := fun s r h hwait _ => by
        obtain ⟨hmem, -⟩ := h.1 hwait
        exact ⟨fun hw => absurd hw (by simp), fun _ => .inr ⟨hmem, Option.some_ne_none r⟩⟩
      reset := fun _ _ => engineInPlace_idle rfl
      header := fun _ _ h => h }
  exact fun s t => moves.step

/-! ### After reset -/

/-- Settles O37: each invariant on the reset state, whose windows and strings are empty. -/
theorem invariantsHoldAtReset : Obligations.InvariantsHoldAtReset := by
  refine ⟨windowsCanonical_nil rfl, ?flags, operandsHeld_of_not_busy rfl, engineInPlace_idle rfl, ?limits, ?output⟩
  case flags => simp [FlagsAgree, ResultsHold]
  case limits =>
    refine ⟨by decide, openNonceOffset_length_le, ?_, by simp, fun h => absurd rfl h.1⟩
    simp [WorkWithinLimits]
  case output => exact ⟨by decide, fun _ _ _ _ => rfl⟩

end Sys2Proof.Machine
end

section
/-! The invariants of every run, second part: the limits of the port on strings and requests (20_memory.md R106), and the bound on
the output (10_state.md R46, R53). -/

namespace Sys2Proof.Machine

open Sys2Proof Sys2Proof.Safety

/-! ### The limits at a request -/

/-- What a request must keep for `WithinLimits`: the strings that the command keeps, the request's fields, and the input. -/
def AskWithinLimits (s : State) (r : Request) (w : Work) : Prop :=
  WorkWithinLimits { w with answer := none } ∧ requestLength r ≤ cryReqMax ∧ inLen s ≤ ibufBytes ∧
    (fetchCommand s = .advParse → inLen s ≤ sectionMax + 2)

theorem keyBytes_length (s : State) : (keyBytes s).length = 16 := Memory.bytes_length _ _ _

theorem saltBytes_length (s : State) (n : Nat) : (saltBytes s n).length = n := Memory.bytes_length _ _ _

/-- The nonce request has room for a salt of 16 bytes (R106; log 20). -/
theorem requestLength_nonceRequest {c : Params} (hc : c.nonceOffset.length ≤ nonceOffsetMax) {salt : List Byte}
    (hs : salt.length ≤ 16) (extended : Bool) : requestLength (nonceRequest c extended salt) ≤ cryReqMax := by
  simp only [nonceOffsetMax, cryReqMax, saltLong] at hc ⊢
  cases extended <;> simp [nonceRequest, requestLength] <;> omega

theorem authBytes_length {c : Params} (hc : c.protoConst.length = 2) (hb len : Byte) (lead nonce idh ct : List Byte) :
    (authBytes c hb len lead nonce idh ct).length = 4 + lead.length + nonce.length + idh.length + ct.length := by
  simp only [authBytes, List.length_append, List.length_cons, List.length_nil, hc]

theorem leadingElement_length_le {c : Params} (hsalt : c.tSalt < typeLimit) (hei : c.tEi < typeLimit) {salt lead : List Byte}
    (h : leadingElement c salt = .ok lead) : lead.length ≤ 21 := by
  have h1 := hdrEncode_length_le hsalt 2
  have h2 := hdrEncode_length_le hei 17
  rcases leadingElement_ok h with ⟨hl, rfl⟩ | ⟨hl, rfl⟩
  · simp only [List.length_append, hl]; omega
  · simp only [List.length_append, List.length_cons, hl]; omega

/-- The types with a role are below the type limit (00_scope.md R7). -/
theorem roleType_lt {c : Params} (hc : c.wf) {t : Nat} (ht : t ∈ c.roleTypes) : t < typeLimit := by
  obtain ⟨-, hlt, -⟩ := hc
  exact hlt t ht

theorem tSalt_mem (c : Params) : c.tSalt ∈ c.roleTypes := by simp [Params.roleTypes]

theorem tAction_mem (c : Params) : c.tAction ∈ c.roleTypes := by simp [Params.roleTypes]

theorem tEi_mem (c : Params) : c.tEi ∈ c.roleTypes := by simp [Params.roleTypes]

theorem identityType_mem {c : Params} {t : Nat} (ht : t ∈ c.identityTypes) : t ∈ c.roleTypes := by
  simp [Params.roleTypes, ht]

/-- The lengths of 00_scope.md R7. -/
theorem wf_lengths {c : Params} (hc : c.wf) :
    1 ≤ c.sigLen ∧ c.sigLen ≤ 64 ∧ 1 ≤ c.mktagLen ∧ c.mktagLen ≤ 32 ∧ c.protoConst.length = 2 := by
  obtain ⟨-, -, -, -, -, -, -, hs1, hs64, hm1, hm32, hp⟩ := hc
  exact ⟨hs1, hs64, hm1, hm32, hp⟩

theorem eiDecode_ok {c : Params} {v salt : List Byte} {scheme : Nat} (h : eiDecode c v = .ok (scheme, salt)) :
    v.length = eiLen ∧ scheme = eiScheme (byteAt v 0) ∧ (scheme = c.schemeMic ∨ scheme = c.schemeSignature) ∧
      salt = v.drop 1 := by
  by_cases hl : v.length = eiLen
  · by_cases hs : eiScheme (byteAt v 0) ≠ c.schemeMic ∧ eiScheme (byteAt v 0) ≠ c.schemeSignature
    · rw [eiDecode_unknownScheme hl hs] at h
      cases h
    · rw [eiDecode_decodes hl hs] at h
      simp only [Except.ok.injEq, Prod.mk.injEq] at h
      obtain ⟨rfl, rfl⟩ := h
      exact ⟨hl, rfl, by tauto, rfl⟩
  · rw [eiDecode_wrongLength hl] at h
    cases h

/-- What leads a frame, and how long its element is (45_adv_parse.md R264). -/
theorem leadingLength_eq_some {c : Params} {t l : Nat} (h : leadingLength c t = some l) :
    t = c.tSalt ∧ l = saltShort ∨ t ≠ c.tSalt ∧ t = c.tEi ∧ l = eiLen := by
  unfold leadingLength at h
  split_ifs at h with h1 h2
  · exact .inl ⟨h1, (Option.some.inj h).symm⟩
  · exact .inr ⟨h1, h2, (Option.some.inj h).symm⟩

theorem leadingSalt_of_salt (c : Params) (v : List Byte) : leadingSalt c c.tSalt v = .ok v := if_pos rfl

theorem leadingSalt_of_ei {c : Params} {t : Nat} (h : t ≠ c.tSalt) {v salt : List Byte} (hs : leadingSalt c t v = .ok salt) :
    ∃ scheme, eiDecode c v = .ok (scheme, salt) := by
  rw [leadingSalt, if_neg h] at hs
  split at hs
  · cases hs
  · rename_i scheme salt' he
    simp only [Except.ok.injEq] at hs
    subst hs
    exact ⟨scheme, he⟩

/-- The salt of a leading element has 2 or 16 bytes. -/
theorem leadingSalt_length_le {c : Params} {t l : Nat} (hl : leadingLength c t = some l) {v salt : List Byte}
    (hv : v.length ≤ l) (hs : leadingSalt c t v = .ok salt) : salt.length ≤ 16 := by
  rcases leadingLength_eq_some hl with ⟨rfl, rfl⟩ | ⟨hne, -, rfl⟩
  · rw [leadingSalt_of_salt, Except.ok.injEq] at hs
    subst hs
    exact hv.trans (by decide)
  · obtain ⟨scheme, he⟩ := leadingSalt_of_ei hne hs
    obtain ⟨hlen, -, -, rfl⟩ := eiDecode_ok he
    rw [List.length_drop, hlen]
    decide

theorem nonceRefused_false {r : Response} (h : nonceRefused r = false) : r.ok = true ∧ r.data.length ≤ nonceMax := by
  simpa [nonceRefused] using h

section
variable {s : State} {r : Request} {w : Work} (hlim : WithinLimits s)
include hlim

/-- Past its start a command's input is within its limit. -/
theorem inLen_of_position (hrun : s.phase = .run) (hp : s.work.pos ≠ .start) :
    inLen s ≤ ibufBytes ∧ (fetchCommand s = .advParse → inLen s ≤ sectionMax + 2) := by
  obtain ⟨-, -, -, -, hin⟩ := hlim
  exact hin ⟨by rw [hrun]; decide, hp⟩

theorem buildAction_limits (hrun : s.phase = .run) (hcmd : fetchCommand s = .advBuild)
    (h : buildAction s = some (.ask r w)) : AskWithinLimits s r w := by
  have input := inLen_of_position hlim hrun
  obtain ⟨hwf, hoffset, ⟨hanswer, hsalt, hlead, hnonce, hidh, hpt, hct, htag, hout⟩, -, -⟩ := hlim
  obtain ⟨hsig1, hsig64, -, -, hproto⟩ := wf_lengths hwf
  have hkey := keyBytes_length s
  rcases buildAction_ask h with ⟨-, hin, h⟩ | ⟨a, hp, ha, h⟩ | ⟨a, hp, ha, h⟩
  · obtain ⟨-, harg, lead, hl, rfl, rfl⟩ := buildStart_ask h
    have hs : (saltBytes s (arg1 s)).length ≤ 16 := by rw [saltBytes_length]; omega
    have hlead := leadingElement_length_le (roleType_lt hwf (tSalt_mem _)) (roleType_lt hwf (tEi_mem _)) hl
    refine ⟨⟨by simp, hs, hlead, hnonce, hidh, hpt, hct, htag, hout⟩, requestLength_nonceRequest hoffset hs _, hin,
      fun hparse => ?_⟩
    rw [hcmd] at hparse
    cases hparse
  · obtain ⟨href, hid, -, -, hlen, rfl, rfl⟩ := buildAfterNonce_ask h
    obtain ⟨-, hn⟩ := nonceRefused_false href
    have hidh := hdrEncode_length_le (roleType_lt hwf (identityType_mem hid)) idLen
    refine ⟨⟨by simp, hsalt, hlead, hn, hidh, hlen, hct, htag, hout⟩, ?_, input (by simp [hp])⟩
    simp only [requestLength, hkey, cryReqMax]
    simp only [sectionMax, nonceMax] at hlen hn
    omega
  · obtain ⟨-, hlen, rfl, rfl⟩ := buildAfterEncrypt_ask h
    have hdata := hanswer a ha
    simp only [sectionLength, sectionMax, nonceMax] at hlen hnonce
    refine ⟨⟨by simp, hsalt, hlead, hnonce, hidh, hpt, hdata, htag, ?_⟩, ?_, input (by simp [hp])⟩
    · simp only [List.length_append, List.length_cons, List.length_nil]; omega
    · simp only [requestLength, hkey, authBytes_length hproto, cryReqMax]; omega

theorem parseAction_limits (hrun : s.phase = .run) (h : parseAction s = some (.ask r w))
    (hcmd : fetchCommand s = .advParse) : AskWithinLimits s r w := by
  have input := inLen_of_position hlim hrun
  obtain ⟨hwf, hoffset, ⟨hanswer, hsalt, hlead, hnonce, hidh, hpt, hct, htag, hout⟩, -, -⟩ := hlim
  obtain ⟨hsig1, hsig64, -, -, hproto⟩ := wf_lengths hwf
  have hkey := keyBytes_length s
  simp only [nonceMax, cryRspMax] at hnonce hct
  rcases parseAction_ask h with ⟨-, hin, h⟩ | ⟨a, hp, ha, h⟩ | ⟨a, hp, ha, h⟩ | ⟨a, hp, ha, h⟩
  · obtain ⟨-, hmax, -, hd, l, salt, hhd, hl, hdl, -, hls, rfl, rfl⟩ := parseStart_ask h
    obtain ⟨-, -, -, hn4, -, -⟩ := hdrDecode_bounds hhd
    have hl17 : l ≤ 17 := by rcases leadingLength_eq_some hl with ⟨-, rfl⟩ | ⟨-, -, rfl⟩ <;> decide
    have hs : salt.length ≤ 16 := leadingSalt_length_le hl (by rw [slice_length]; omega) hls
    refine ⟨⟨by simp, hs, ?_, hnonce, hidh, hpt, hct, htag, hout⟩, requestLength_nonceRequest hoffset hs _, hin,
      fun _ => hmax⟩
    rw [slice_length]
    omega
  · obtain ⟨href, hd, hhd, -, -, hfit, rfl, rfl⟩ := parseAfterNonce_ask h
    obtain ⟨-, hn⟩ := nonceRefused_false href
    obtain ⟨-, -, hn1, hn4, -, -⟩ := hdrDecode_bounds hhd
    obtain ⟨hin, hmax⟩ := input (by simp [hp])
    replace hmax := hmax hcmd
    simp only [sectionMax, nonceMax] at hmax hn
    refine ⟨⟨by simp, hsalt, hlead, hn, ?_, hpt, ?_, ?_, hout⟩, ?_, hin, fun _ => hmax⟩
    · rw [slice_length]; omega
    · rw [slice_length]; simp only [cryRspMax]; omega
    · rw [slice_length]; omega
    · simp only [requestLength, slice_length, hkey, cryReqMax]; omega
  · obtain ⟨-, hlen, rfl, rfl⟩ := parseAfterDecrypt_ask h
    refine ⟨⟨by simp, hsalt, hlead, hnonce, hidh, hanswer a ha, hct, htag, hout⟩, ?_, input (by simp [hp])⟩
    simp only [requestLength, hkey, List.length_take, idLen, cryReqMax]
    omega
  · obtain ⟨-, -, rfl, rfl⟩ := parseAfterHash_ask h
    refine ⟨⟨by simp, hsalt, hlead, hnonce, hidh, hpt, hct, htag, ?_⟩, ?_, input (by simp [hp])⟩
    · simp only [List.length_append, List.length_take, idLen]; omega
    · simp only [requestLength, observedAuthBytes, authBytes_length hproto, hkey, cryReqMax]; omega

end

/-! ### The limits after each move -/

/-- An idle engine without a request keeps nothing, so that only the parameters matter. -/
theorem withinLimits_idle {s t : State} (h : WithinLimits s) (hcfg : t.cfg = s.cfg) (hw : t.work = Work.empty)
    (hp : t.pending = none) (hi : t.phase = .idle) : WithinLimits t := by
  obtain ⟨hwf, hoffset, -⟩ := h
  rw [← hcfg] at hwf hoffset
  refine ⟨hwf, hoffset, ?_, fun r hr => ?_, fun hne => absurd hi hne.1⟩
  · rw [hw]; simp [WorkWithinLimits]
  · rw [hp] at hr; cases hr

theorem withinLimits_accept {s : State} (h : WithinLimits s) (w : Word) : WithinLimits (accept w s) := by
  obtain ⟨hwf, hoffset, -, hreq, -⟩ := h
  refine ⟨hwf, hoffset, ?_, hreq, fun hne => absurd rfl hne.2⟩
  simp [WorkWithinLimits]

theorem withinLimits_write {s t : State} {off : Nat} {w : Width} {v : Word} (h : WithinLimits s)
    (e : WriteEffect off w v s t) : WithinLimits t := by
  cases e with
  | reset => exact withinLimits_idle h rfl rfl rfl rfl
  | accepted _ => exact withinLimits_accept h v
  | ignored | control | cleared | locked _ | inLen _ | arg0 _ | arg1 _ | arg2 _ | arg3 _ | stored _ _ => exact h

theorem withinLimits_issueRequest {s : State} (h : WithinLimits s) {r : Request} {w : Work} (ha : AskWithinLimits s r w) :
    WithinLimits (issueRequest r w s) := by
  obtain ⟨hwf, hoffset, -⟩ := h
  obtain ⟨hwork, hreq, hin⟩ := ha
  refine ⟨hwf, hoffset, hwork, fun q hq => ?_, fun _ => hin⟩
  rw [issueRequest_pending, Option.some.injEq] at hq
  rw [← hq]
  exact hreq

theorem withinLimits_command {s t : State} (h : WithinLimits s) (hrun : s.phase = .run)
    (hexec : exec (fetchCommand s) s = .next t) : WithinLimits t := by
  rcases exec_fetchCommand_phase hexec with hw | hi
  · obtain ⟨r, w, rfl, ⟨hc, ha⟩ | ⟨hc, ha⟩⟩ := exec_fetchCommand_wait hexec hw
    · exact withinLimits_issueRequest h (buildAction_limits h hrun hc ha)
    · exact withinLimits_issueRequest h (parseAction_limits h hrun ha hc)
  · obtain ⟨a, rfl⟩ := exec_fetchCommand hexec
    cases a with
    | ask r w => cases hi
    | ok out r0 r1 r2 r3 => exact withinLimits_idle h rfl rfl rfl rfl
    | fail code k => exact withinLimits_idle h rfl rfl rfl rfl

theorem withinLimits_answer {s : State} (h : WithinLimits s) (hwait : s.phase = .wait) {r : Response}
    (hr : r.data.length ≤ cryRspMax) :
    WithinLimits { s with phase := .run, pending := none, work := { s.work with answer := some r } } := by
  obtain ⟨hwf, hoffset, ⟨-, hstrings⟩, -, hin⟩ := h
  refine ⟨hwf, hoffset, ⟨fun r' hr' => ?_, hstrings⟩, fun q hq => absurd hq (by simp),
    fun hne => hin ⟨by rw [hwait]; decide, hne.2⟩⟩
  rw [← Option.some.inj hr']
  exact hr

/-- Settles O42: a request is within the limits where the command asks, and an answer within the port's. -/
theorem requestsStayWithinThePort : Obligations.RequestsStayWithinThePort := by
  have moves : Establishes WithinLimits WithinLimits :=
    { events := fun _ _ h => h
      stay := fun _ h => h
      bus := fun _ _ h => h
      write := fun h _ => withinLimits_write h
      command := fun _ _ => withinLimits_command
      answer := fun _ _ h hwait hr => withinLimits_answer h hwait hr
      reset := fun _ h => withinLimits_idle h rfl rfl rfl rfl
      header := fun _ _ h => h }
  exact fun s t _ => moves.step

/-! ### The output of each command fits in `OBUF` -/

/-- An outcome's output fits in `OBUF`. -/
def OutputFits : Action → Prop
  | .ok out _ _ _ _ => out.length ≤ obufBytes
  | .ask _ _ => True
  | .fail _ _ => True

theorem commonChecks_fits {s : State} {a : Action} (h : inLen s ≤ ibufBytes → OutputFits a) : OutputFits (commonChecks s a) := by
  unfold commonChecks
  split
  · trivial
  · exact h (by omega)

theorem hdrEncAction_fits (s : State) : OutputFits (hdrEncAction s) := by
  by_cases h : arg1 s ≥ lenLimit ∨ arg0 s ≥ typeLimit
  · rw [hdrEncAction_refused h]; trivial
  · rw [hdrEncAction_encodes h]
    exact (hdrEncode_length_le (by omega) _).trans (by decide)

theorem hdrDecAction_fits (s : State) : OutputFits (hdrDecAction s) := by
  cases hd : hdrDecode (inputBytes s) (arg0 s) (inLen s) with
  | none => rw [hdrDecAction_malformed hd]; trivial
  | some h => rw [hdrDecAction_decodes hd]; exact Nat.zero_le _

theorem eiEncAction_fits (s : State) : OutputFits (eiEncAction s) := by
  by_cases h : inLen s = saltLong
  · rw [eiEncAction_encodes h]
    show (_ :: inputBytes s).length ≤ obufBytes
    rw [List.length_cons, inputBytes_length, h]
    decide
  · rw [eiEncAction_refused h]; trivial

theorem eiDecAction_fits (s : State) : OutputFits (eiDecAction s) := by
  rw [eiDecAction]
  split
  · trivial
  · rename_i scheme salt he
    obtain ⟨hlen, -, -, rfl⟩ := eiDecode_ok he
    show ((inputBytes s).drop 1).length ≤ obufBytes
    rw [List.length_drop, hlen]
    decide

theorem table_length (es : List Entry) : (es.flatMap entryBytes).length = 8 * es.length := by
  simp [List.length_flatMap, entryBytes_length, Nat.mul_comm]

theorem scanAction_fits {s : State} (hin : inLen s ≤ ibufBytes) : OutputFits (scanAction s) := by
  unfold scanAction
  split
  · trivial
  split
  · trivial
  split
  · trivial
  · rename_i es hes
    have hcount := scanLoop_length (by omega) hes
    show (es.flatMap entryBytes).length ≤ obufBytes
    rw [table_length]
    simp only [ibufBytes, obufBytes] at hin ⊢
    omega

theorem buildAfterSign_fits {s : State} (hout : s.work.out.length ≤ 257) {r : Response} (hr : r.data.length ≤ cryRspMax) :
    OutputFits (buildAfterSign s r) := by
  by_cases htag : r.ok = true ∧ r.data.length = s.cfg.sigLen
  · rw [buildAfterSign_tagged htag]
    show (s.work.out ++ r.data).length ≤ obufBytes
    rw [List.length_append]
    simp only [cryRspMax, obufBytes] at hr ⊢
    omega
  · rw [buildAfterSign_refused htag]; trivial

/-- Only the last part of ADV_BUILD has an output. -/
theorem buildAction_fits {s : State} (hw : WorkWithinLimits s.work) {a : Action} (h : buildAction s = some a) :
    OutputFits a := by
  obtain ⟨hanswer, -, -, -, -, -, -, -, hout⟩ := hw
  unfold buildAction at h
  split at h <;> simp only [Option.some.injEq, reduceCtorEq] at h <;> subst h
  · refine commonChecks_fits fun _ => ?_
    unfold buildStart; simp only
    repeat' split
    all_goals trivial
  · unfold buildAfterNonce; simp only
    repeat' split
    all_goals trivial
  · unfold buildAfterEncrypt; simp only
    repeat' split
    all_goals trivial
  · exact buildAfterSign_fits hout (hanswer _ ‹_›)

theorem slice_length_le (s : List Byte) (i j : Nat) : (slice s i j).length ≤ j - i := by
  rw [slice_length]; omega

theorem advTail_cons (c : Params) (pt : List Byte) (e : Entry) (es : List Entry) :
    (advTail c pt (e :: es)).length =
      (if isAction c e then 1 else (slice pt (e.voff - e.n) (e.voff + e.length)).length) + (advTail c pt es).length := by
  by_cases h : isAction c e = true <;>
    simp [advTail, actionsOf, dataOf, h] <;> omega

/-- Each element puts out at most as many bytes as it takes in the stream. -/
theorem advTail_length_le (c : Params) (pt : List Byte) {es : List Entry} (hn : ∀ e ∈ es, 1 ≤ e.n) :
    (advTail c pt es).length ≤ (es.map (fun e => e.n + e.length)).sum := by
  induction es with
  | nil => exact Nat.zero_le _
  | cons e es ih =>
    have hrest := ih fun e' he' => hn e' (List.mem_cons_of_mem e he')
    have hfirst := hn e List.mem_cons_self
    have hslice := slice_length_le pt (e.voff - e.n) (e.voff + e.length)
    rw [advTail_cons, List.map_cons, List.sum_cons]
    split_ifs <;> omega

theorem parseAfterVerify_fits {s : State} (hout : s.work.out.length ≤ 257) (hpt : s.work.plaintext.length ≤ cryRspMax)
    (r : Response) : OutputFits (parseAfterVerify s r) := by
  cases hok : r.ok with
  | false => rw [parseAfterVerify_refused hok]; trivial
  | true =>
    cases hes : scanElements s.cfg s.work.plaintext idLen s.work.plaintext.length .inner with
    | error code => rw [parseAfterVerify_inner_fail hok hes]; trivial
    | ok es =>
      have htail := advTail_length_le s.cfg s.work.plaintext fun e he => (scanElements_entry_bounds hes he).2.2.1
      have hsum : (es.map (fun e => e.n + e.length)).sum ≤ s.work.plaintext.length := by
        by_cases hle : idLen ≤ s.work.plaintext.length
        · rw [scanLoop_sum le_rfl hle hes]; omega
        · rw [scanElements_end (by omega), Except.ok.injEq] at hes
          rw [← hes]
          exact Nat.zero_le _
      rw [parseAfterVerify_ok hok hes]
      show (s.work.out ++ advTail s.cfg s.work.plaintext es).length ≤ obufBytes
      rw [List.length_append]
      simp only [cryRspMax, obufBytes] at hpt ⊢
      omega

/-- Only the last part of ADV_PARSE has an output. -/
theorem parseAction_fits {s : State} (hw : WorkWithinLimits s.work) {a : Action} (h : parseAction s = some a) :
    OutputFits a := by
  obtain ⟨-, -, -, -, -, hpt, -, -, hout⟩ := hw
  unfold parseAction at h
  split at h <;> simp only [Option.some.injEq, reduceCtorEq] at h <;> subst h
  · refine commonChecks_fits fun _ => ?_
    unfold parseStart parseLead; simp only
    repeat' split
    all_goals trivial
  · unfold parseAfterNonce; simp only
    repeat' split
    all_goals trivial
  · unfold parseAfterDecrypt; simp only
    repeat' split
    all_goals trivial
  · unfold parseAfterHash; simp only
    repeat' split
    all_goals trivial
  · exact parseAfterVerify_fits hout hpt _

/-- A command's step is one engine step, and its output fits in `OBUF` (10_state.md R46). -/
theorem exec_command_fits {i : Instr} {s t : State} (hi : i.position = .command) (hw : WorkWithinLimits s.work)
    (h : exec i s = .next t) : ∃ a, t = perform a s ∧ OutputFits a := by
  have checked {a : Action} (ha : inLen s ≤ ibufBytes → OutputFits a)
      (h : (.next (perform (commonChecks s a) s) : Host.Outcome State Fault Refusal) = .next t) :
      ∃ a, t = perform a s ∧ OutputFits a :=
    ⟨_, by injection h with h; exact h.symm, commonChecks_fits ha⟩
  cases i with
  | hdrEnc => exact checked (fun _ => hdrEncAction_fits s) h
  | hdrDec => exact checked (fun _ => hdrDecAction_fits s) h
  | eiEnc => exact checked (fun _ => eiEncAction_fits s) h
  | eiDec => exact checked (fun _ => eiDecAction_fits s) h
  | scan => exact checked scanAction_fits h
  | advBuild => obtain ⟨b, hb, ht⟩ := performAt_next h; exact ⟨b, ht, buildAction_fits hw hb⟩
  | advParse => obtain ⟨b, hb, ht⟩ := performAt_next h; exact ⟨b, ht, parseAction_fits hw hb⟩
  | illegalZero _ | illegalHigh _ _ | illegalReserved _ _ =>
    exact ⟨illegalAction, by injection h with h; exact h.symm, trivial⟩
  | hdr1 _ _ | hdrm _ | groupCont _ | groupFinal _ => cases hi

/-! ### The bound on the output -/

/-- A commit whose output fits leaves zeros past it. -/
theorem outputBounded_complete {out : List Byte} (hfit : out.length ≤ obufBytes) (st : Status) (r0 r1 r2 r3 : Nat)
    (s : State) : OutputBounded (complete st out r0 r1 r2 r3 s) := by
  have hlen : (complete st out r0 r1 r2 r3 s).outLen.toNat = out.length := by
    rw [complete_outLen, BitVec.toNat_ofNat]
    simp only [obufBytes] at hfit
    omega
  rw [OutputBounded, hlen]
  refine ⟨hfit, fun _ k hk hk' => ?_⟩
  rw [complete_obufHolds st out r0 r1 r2 r3 s k hk', List.getD_eq_default _ _ hk]

theorem outputBounded_perform {a : Action} (ha : OutputFits a) {s : State} (h : OutputBounded s) :
    OutputBounded (perform a s) := by
  obtain ⟨hlen, -⟩ := h
  cases a with
  | ask r w => exact ⟨hlen, fun hi => absurd hi (by simp)⟩
  | ok out r0 r1 r2 r3 => exact outputBounded_complete ha _ r0 r1 r2 r3 s
  | fail code k => exact outputBounded_complete (Nat.zero_le _) _ 0 0 0 0 s

/-- A store to a storing window leaves `OBUF` alone. -/
theorem outputBounded_store {s : State} (h : OutputBounded s) {off : Nat} {w : Width} (ha : accessAllowed off w = true)
    (hr : Storing (regionOf off)) (v : Word) :
    OutputBounded { s with mem := Memory.store s.mem off ((wordBytes v).take (widthBytes w)) } := by
  obtain ⟨hlen, hzero⟩ := h
  refine ⟨hlen, fun hi k hk hk' => ?_⟩
  have houtside : obufOff + k < off ∨ off + widthBytes w ≤ obufOff + k := by
    by_contra hin
    obtain ⟨j, hj⟩ := Nat.exists_eq_add_of_le (by omega : off ≤ obufOff + k)
    have hreg := region_of_access ha (by omega : j < widthBytes w)
    rw [← hj, regionOf_obuf (by simp only [obufOff]; omega)] at hreg
    rw [← hreg] at hr
    simp [Storing] at hr
  exact (read_stored_outside s.mem v houtside).trans (hzero hi k hk hk')

theorem outputBounded_write {s t : State} {off : Nat} {w : Width} {v : Word} (h : OutputBounded s)
    (ha : accessAllowed off w = true) (e : WriteEffect off w v s t) : OutputBounded t := by
  cases e with
  | reset => exact ⟨Nat.zero_le _, fun _ _ _ _ => rfl⟩
  | accepted _ => exact ⟨Nat.zero_le _, fun hi => absurd hi (by simp)⟩
  | stored _ hr => exact outputBounded_store h ha hr v
  | ignored | control | cleared | locked _ | inLen _ | arg0 _ | arg1 _ | arg2 _ | arg3 _ => exact h

/-- Settles O43: a commit's output fits in `OBUF`, whose other bytes become zeros, and no host write reaches `OBUF`. -/
theorem outputStaysBounded : Obligations.OutputStaysBounded := by
  have moves : Establishes (fun s => WithinLimits s ∧ OutputBounded s) OutputBounded :=
    { events := fun _ _ h => h
      stay := fun _ h => h.2
      bus := fun _ _ h => h
      write := fun h ha e => outputBounded_write h.2 ha e
      command := fun s t ⟨⟨_, _, hwork, _, _⟩, hout⟩ _ hexec => by
        obtain ⟨a, rfl, hfit⟩ := exec_command_fits (fetchCommand_position s) hwork hexec
        exact outputBounded_perform hfit hout
      answer := fun _ _ h _ _ => ⟨h.2.1, fun hi => absurd hi (by simp)⟩
      reset := fun _ _ => ⟨Nat.zero_le _, fun _ _ _ _ => rfl⟩
      header := fun _ _ h => h.2 }
  exact fun s t _ hlim hout => moves.step ⟨hlim, hout⟩

end Sys2Proof.Machine
end

section
/-! What tells two states apart: nothing but the bytes that are read (60_exceptions.md R303; 10_state.md R45, R48, R49, R51), and
never the latch or the working storage of an idle engine (R55, R57). -/

namespace Sys2Proof.Machine

open Sys2Proof Sys2Proof.Safety

/-! ### States that differ in memory alone -/

/-- Two memories that read alike at the addresses of a set. -/
def ReadAlike (P : Nat → Prop) (m m' : Memory) : Prop := ∀ a, P a → Memory.read m a = Memory.read m' a

/-- Two states that differ in nothing but bytes outside a set of addresses. -/
def AlikeOn (P : Nat → Prop) (s t : State) : Prop := ReadAlike P s.mem t.mem ∧ { s with mem := [] } = { t with mem := [] }

theorem state_eq_of_mem {s t : State} (h : { s with mem := [] } = { t with mem := [] }) : t = { s with mem := t.mem } := by
  cases s
  cases t
  simp only [State.mk.injEq] at h ⊢
  tauto

theorem readAlike_fill {P : Nat → Prop} {m m' : Memory} (h : ReadAlike P m m') (lo n : Nat) (bs : List Byte) :
    ReadAlike P (Memory.fill m lo n bs) (Memory.fill m' lo n bs) := fun a ha => by
  rw [Memory.read_fill, Memory.read_fill, h a ha]

theorem bytes_eq_of_readAlike {P : Nat → Prop} {m m' : Memory} (h : ReadAlike P m m') {lo n : Nat}
    (hP : ∀ k, k < n → P (lo + k)) : Memory.bytes m lo n = Memory.bytes m' lo n :=
  Memory.bytes_congr fun k hk => h _ (hP k hk)

section
variable {P : Nat → Prop} {s : State} {m : Memory} (h : ReadAlike P s.mem m)
include h

theorem alikeOn_perform (a : Action) : AlikeOn P (perform a s) (perform a { s with mem := m }) := by
  cases a with
  | ask r w => exact ⟨h, rfl⟩
  | ok out r0 r1 r2 r3 => exact ⟨readAlike_fill h _ _ _, rfl⟩
  | fail code k => exact ⟨readAlike_fill h _ _ _, rfl⟩

theorem alikeOn_moveHeaderUnit (u : Option HeaderUnit) :
    OutcomesRelated (AlikeOn P) (moveHeaderUnit u s) (moveHeaderUnit u { s with mem := m }) := by
  cases u with
  | none => rfl
  | some u => exact ⟨h, rfl⟩

theorem alikeOn_performAt (a : Option Action) :
    OutcomesRelated (AlikeOn P) (performAt a s) (performAt a { s with mem := m }) := by
  cases a with
  | none => rfl
  | some a => exact alikeOn_perform h a

theorem alikeOn_unlessBusy {t t' : State} (ht : AlikeOn P t t') :
    AlikeOn P (unlessBusy s t) (unlessBusy { s with mem := m } t') := by
  unfold unlessBusy
  split
  · exact ⟨h, rfl⟩
  · exact ht

/-- A write stores the same bytes in both states. -/
theorem alikeOn_writeData (off : Nat) (w : Width) (v : Word) :
    AlikeOn P (writeData off w v s) (writeData off w v { s with mem := m }) := by
  by_cases hr : Storing (regionOf off)
  · rw [writeData_storing hr, writeData_storing hr]
    exact alikeOn_unlessBusy h ⟨readAlike_fill h _ _ _, rfl⟩
  · unfold writeData
    split_ifs
    · unfold writeRegister
      split_ifs
      · exact ⟨fun _ _ => rfl, rfl⟩
      · exact ⟨h, rfl⟩
      · exact ⟨h, rfl⟩
      iterate 6 exact alikeOn_unlessBusy h ⟨h, rfl⟩
      · exact ⟨h, rfl⟩
    · have ignored (u : State) : writeWindow off w v u = u := by
        cases hreg : regionOf off <;> simp [Storing, hreg] at hr <;> simp only [writeWindow, hreg]
      rw [ignored, ignored]
      exact ⟨h, rfl⟩

/-- A command without requests reads `IBUF[0..in_len)` alone. -/
theorem alikeOn_exec_of_input (hin : inputBytes { s with mem := m } = inputBytes s) {i : Instr} (hb : i ≠ .advBuild)
    (hp : i ≠ .advParse) : OutcomesRelated (AlikeOn P) (exec i s) (exec i { s with mem := m }) := by
  cases i with
  | hdrEnc => exact alikeOn_perform h _
  | hdrDec =>
    have e : hdrDecAction { s with mem := m } = hdrDecAction s := by unfold hdrDecAction; rw [hin]; rfl
    rw [exec_hdrDec, exec_hdrDec, e]
    exact alikeOn_perform h _
  | eiEnc =>
    have e : eiEncAction { s with mem := m } = eiEncAction s := by unfold eiEncAction; rw [hin]; rfl
    rw [exec_eiEnc, exec_eiEnc, e]
    exact alikeOn_perform h _
  | eiDec =>
    have e : eiDecAction { s with mem := m } = eiDecAction s := by unfold eiDecAction; rw [hin]
    rw [exec_eiDec, exec_eiDec, e]
    exact alikeOn_perform h _
  | scan =>
    have e : scanAction { s with mem := m } = scanAction s := by unfold scanAction; rw [hin]; rfl
    rw [exec_scan, exec_scan, e]
    exact alikeOn_perform h _
  | advBuild => exact absurd rfl hb
  | advParse => exact absurd rfl hp
  | illegalZero _ | illegalHigh _ _ | illegalReserved _ _ => exact alikeOn_perform h illegalAction
  | hdr1 length typ => exact alikeOn_moveHeaderUnit h (some (unitHdr1 length typ))
  | hdrm length => exact alikeOn_moveHeaderUnit h (some (unitHdrm length))
  | groupCont bits => exact alikeOn_moveHeaderUnit h (unitGroupCont bits s.work.hdr)
  | groupFinal bits => exact alikeOn_moveHeaderUnit h (unitGroupFinal bits s.work.hdr)

end

/-! ### The keys -/

/-- The addresses outside the two key windows. -/
def OutsideKeys (a : Nat) : Prop := regionOf a ≠ .key ∧ regionOf a ≠ .idkey

theorem sameButKeys_iff {s t : State} : SameButKeys s t ↔ AlikeOn OutsideKeys s t :=
  and_congr_left fun _ => ⟨fun h a ha => h a ha.1 ha.2, fun h a hk hi => h a ⟨hk, hi⟩⟩

theorem outsideKeys_of_ibuf {a : Nat} (h : ibufOff ≤ a) : OutsideKeys a := by
  simp only [ibufOff] at h
  unfold OutsideKeys regionOf
  split_ifs <;> simp <;> omega

/-- A read never shows a key byte (R88). -/
theorem readWindow_outsideKeys {s : State} {m : Memory} (h : ReadAlike OutsideKeys s.mem m) (off : Nat) :
    readWindow { s with mem := m } off = readWindow s off := by
  unfold readWindow
  cases hr : regionOf off with
  | salt | mktag | ibuf => exact (h off (by simp [OutsideKeys, hr])).symm
  | obuf => exact congrArg (gated s) (h off (by simp [OutsideKeys, hr])).symm
  | register | key | idkey | reserved => rfl

theorem readData_outsideKeys {s : State} {m : Memory} (h : ReadAlike OutsideKeys s.mem m) (off : Nat) (w : Width) :
    readData { s with mem := m } off w = readData s off w := by
  unfold readData
  split
  · rfl
  · simp only [readWindowWord, readWindow_outsideKeys h]

theorem alikeOn_accessAt {s : State} {m : Memory} (h : ReadAlike OutsideKeys s.mem m) (off : Nat) (a : HostAccess) :
    AlikeOn OutsideKeys (accessAt off a s) (accessAt off a { s with mem := m }) := by
  unfold accessAt
  cases a with
  | read addr w =>
    simp only [readData_outsideKeys h]
    split_ifs <;> exact ⟨h, rfl⟩
  | write addr w v =>
    simp only
    split_ifs
    · obtain ⟨hmem, heq⟩ := alikeOn_writeData h off w v
      exact ⟨hmem, congrArg (fun u : State => { u with bus := some okayWrite }) heq⟩
    · exact ⟨h, rfl⟩

/-- Settles O46: no access reads a key byte, and a command without requests reads `IBUF` alone. -/
theorem keysAreNeverReadable : Obligations.KeysAreNeverReadable := by
  intro s t h
  obtain ⟨hmem, heq⟩ := sameButKeys_iff.1 h
  have hrel : SameButKeys = AlikeOn OutsideKeys := funext fun _ => funext fun _ => propext sameButKeys_iff
  rw [hrel, state_eq_of_mem heq]
  refine ⟨fun a => ?access, fun i hb hp => ?command⟩
  case access =>
    have hoff : offsetOf ({ s with mem := t.mem } : State).cfg (accessAddress a) = offsetOf s.cfg (accessAddress a) := rfl
    unfold hostAccess
    rw [hoff]
    cases offsetOf s.cfg (accessAddress a) with
    | none => rfl
    | some off => exact alikeOn_accessAt hmem off a
  case command =>
    refine alikeOn_exec_of_input hmem ?_ hb hp
    exact (bytes_eq_of_readAlike hmem fun k _ => outsideKeys_of_ibuf (Nat.le_add_right _ k)).symm

/-! ### Unused bytes of the windows -/

/-- The addresses of the bytes that commands may read, for a latched `IN_LEN` and the tag's length. -/
def Used (s : State) (a : Nat) : Prop :=
  ¬(ibufOff + inLen s ≤ a ∧ a < ibufOff + ibufBytes) ∧ ¬(mktagOff + s.cfg.mktagLen ≤ a ∧ a < mktagOff + 32)

theorem sameButUnused_iff {s : State} {m m' : Memory} : SameButUnused s m m' ↔ ReadAlike (Used s) m m' :=
  ⟨fun h a ha => h a ha.1 ha.2, fun h a h1 h2 => h a ⟨h1, h2⟩⟩

section
variable {s : State} {m : Memory} (h : ReadAlike (Used s) s.mem m)
include h

theorem inputBytes_used : inputBytes { s with mem := m } = inputBytes s :=
  (bytes_eq_of_readAlike h (n := inLen s) fun k hk => ⟨by omega, by simp only [ibufOff, mktagOff]; omega⟩).symm

theorem keyBytes_used : keyBytes { s with mem := m } = keyBytes s :=
  (bytes_eq_of_readAlike h fun k hk =>
    ⟨by simp only [ibufOff, keyOff]; omega, by simp only [mktagOff, keyOff]; omega⟩).symm

theorem idkeyBytes_used : idkeyBytes { s with mem := m } = idkeyBytes s :=
  (bytes_eq_of_readAlike h fun k hk =>
    ⟨by simp only [ibufOff, idkeyOff]; omega, by simp only [mktagOff, idkeyOff]; omega⟩).symm

theorem saltBytes_used {n : Nat} (hn : n ≤ 16) : saltBytes { s with mem := m } n = saltBytes s n :=
  (bytes_eq_of_readAlike h fun k hk =>
    ⟨by simp only [ibufOff, saltOff]; omega, by simp only [mktagOff, saltOff]; omega⟩).symm

theorem mktagBytes_used (hwf : s.cfg.wf) : mktagBytes { s with mem := m } = mktagBytes s := by
  obtain ⟨-, -, -, hlen, -⟩ := wf_lengths hwf
  exact (bytes_eq_of_readAlike h (n := s.cfg.mktagLen) fun k hk =>
    ⟨by simp only [ibufOff, mktagOff]; omega, by omega⟩).symm

theorem buildStart_used : buildStart { s with mem := m } = buildStart s := by
  unfold buildStart
  by_cases hsalt : arg1 s ≤ 16
  · have e : saltBytes { s with mem := m } (arg1 { s with mem := m }) = saltBytes s (arg1 s) := saltBytes_used h hsalt
    simp only [e]
    rfl
  · have hbad : arg1 s ≠ saltShort ∧ arg1 s ≠ saltLong := by simp only [saltShort, saltLong]; omega
    have hbad' : arg1 { s with mem := m } ≠ saltShort ∧ arg1 { s with mem := m } ≠ saltLong := hbad
    simp only [if_pos hbad, if_pos hbad']
    rfl

theorem buildAction_used : buildAction { s with mem := m } = buildAction s := by
  have nonce (r : Response) : buildAfterNonce { s with mem := m } r = buildAfterNonce s r := by
    unfold buildAfterNonce
    rw [inputBytes_used h, keyBytes_used h, idkeyBytes_used h]
    rfl
  have encrypt (r : Response) : buildAfterEncrypt { s with mem := m } r = buildAfterEncrypt s r := by
    unfold buildAfterEncrypt
    rw [keyBytes_used h]
  unfold buildAction
  simp only [nonce, encrypt, buildStart_used h]
  rfl

theorem parseAction_used (hwf : s.cfg.wf) : parseAction { s with mem := m } = parseAction s := by
  have start : parseStart { s with mem := m } = parseStart s := by
    unfold parseStart parseLead
    rw [inputBytes_used h]
    rfl
  have nonce (r : Response) : parseAfterNonce { s with mem := m } r = parseAfterNonce s r := by
    unfold parseAfterNonce
    rw [inputBytes_used h, keyBytes_used h]
    rfl
  have decrypt (r : Response) : parseAfterDecrypt { s with mem := m } r = parseAfterDecrypt s r := by
    unfold parseAfterDecrypt
    rw [keyBytes_used h]
  have hash (r : Response) : parseAfterHash { s with mem := m } r = parseAfterHash s r := by
    unfold parseAfterHash observedAuthBytes
    rw [inputBytes_used h, keyBytes_used h, mktagBytes_used h hwf]
  have verify (r : Response) : parseAfterVerify { s with mem := m } r = parseAfterVerify s r := by
    unfold parseAfterVerify
    rw [inputBytes_used h]
  unfold parseAction
  simp only [start, nonce, decrypt, hash, verify]
  rfl

end

/-- Settles O48: each byte string that a command reads lies within the used bytes. -/
theorem unusedWindowBytesAreNeverRead : Obligations.UnusedWindowBytesAreNeverRead := by
  intro i s m' hwf hm
  have h := sameButUnused_iff.1 hm
  have hrel : (fun t t' : State => SameButUnused s t.mem t'.mem ∧ { t with mem := [] } = { t' with mem := [] }) =
      AlikeOn (Used s) := funext fun _ => funext fun _ => propext (and_congr_left fun _ => sameButUnused_iff)
  rw [hrel]
  by_cases hb : i = .advBuild
  · subst hb
    show OutcomesRelated _ (performAt (buildAction s) s) (performAt (buildAction { s with mem := m' }) _)
    rw [buildAction_used h]
    exact alikeOn_performAt h _
  by_cases hp : i = .advParse
  · subst hp
    show OutcomesRelated _ (performAt (parseAction s) s) (performAt (parseAction { s with mem := m' }) _)
    rw [parseAction_used h hwf]
    exact alikeOn_performAt h _
  · exact alikeOn_exec_of_input h (inputBytes_used h) hb hp

/-! ### The latch and the working storage of an idle engine -/

theorem state_eq_of_sameButHidden {s t : State} (h : SameButHidden s t) :
    t = { s with latch := t.latch, work := t.work } := by
  unfold SameButHidden at h
  cases s
  cases t
  simp only [State.mk.injEq] at h ⊢
  tauto

theorem sameButHidden_refl (s : State) : SameButHidden s s := rfl

theorem sameButHidden_unlessBusy {s t u : State} {l : Latch} {k : Work} (h : SameButHidden t u) :
    SameButHidden (unlessBusy s t) (unlessBusy { s with latch := l, work := k } u) := by
  unfold unlessBusy
  split
  · rfl
  · exact h

/-- No write looks at the latch or the working storage; acceptance and reset set them anew. -/
theorem sameButHidden_writeData (s : State) (l : Latch) (k : Work) (off : Nat) (w : Width) (v : Word) :
    SameButHidden (writeData off w v s) (writeData off w v { s with latch := l, work := k }) := by
  unfold writeData
  split_ifs
  · unfold writeRegister
    split_ifs
    · rfl
    · rfl
    · rfl
    · exact sameButHidden_unlessBusy (sameButHidden_refl (accept v s))
    iterate 5 exact sameButHidden_unlessBusy rfl
    · rfl
  · unfold writeWindow
    cases regionOf off with
    | key | idkey | salt | mktag | ibuf => exact sameButHidden_unlessBusy rfl
    | register | obuf | reserved => rfl

theorem sameButHidden_accessAt (s : State) (l : Latch) (k : Work) (off : Nat) (a : HostAccess) :
    SameButHidden (accessAt off a s) (accessAt off a { s with latch := l, work := k }) := by
  unfold accessAt
  cases a with
  | read addr w => simp only; split_ifs <;> rfl
  | write addr w v =>
    simp only
    split_ifs
    · exact congrArg (fun u : State => { u with bus := some okayWrite }) (sameButHidden_writeData s l k off w v)
    · rfl

/-- Settles O47: an idle engine has no step and takes no answer, and an access or a reset does not look at what it holds. -/
theorem idleHiddenStateIsUnobservable : Obligations.IdleHiddenStateIsUnobservable := by
  intro s t hi h
  rw [state_eq_of_sameButHidden h]
  refine ⟨fun e he => ?_, fun w => rfl⟩
  have hrun : s.phase ≠ .run := by rw [hi]; decide
  have hwait : s.phase ≠ .wait := by rw [hi]; decide
  cases e with
  | host a =>
    have hoff : offsetOf ({ s with latch := t.latch, work := t.work } : State).cfg (accessAddress a) =
        offsetOf s.cfg (accessAddress a) := rfl
    show OutcomesRelated _ (hostAccess a s) (hostAccess a _)
    unfold hostAccess
    rw [hoff]
    cases offsetOf s.cfg (accessAddress a) with
    | none => rfl
    | some off => exact sameButHidden_accessAt s t.latch t.work off a
  | engine =>
    show OutcomesRelated _ (engineStep s) (engineStep _)
    rw [engineStep_of_not_run hrun, engineStep_of_not_run (s := { s with latch := t.latch, work := t.work }) hrun]
    rfl
  | cryptor n r =>
    show OutcomesRelated _ (cryptorStep n r s) (cryptorStep n r _)
    unfold cryptorStep
    split
    · rfl
    · rw [takeAnswer_of_not_wait hwait, takeAnswer_of_not_wait (s := { s with latch := t.latch, work := t.work }) hwait]
      rfl
  | reset => rfl
  | headerByte b => exact absurd rfl (he b)

end Sys2Proof.Machine
end

section
/-! The wait for an answer (20_memory.md R104, R113; 40_lifecycle.md R165): what ends it, and that an abandoned request's answer is
discarded whenever it comes. -/

namespace Sys2Proof.Machine

open Sys2Proof Sys2Proof.Safety

/-- After a reset that abandoned a request, and any run from there, the request's answer is discarded (R113). -/
theorem takeAnswer_abandoned {s t : State} (hp : s.pending ≠ none) {n : Nat} {es : List Event}
    (hrun : runSteps n { resetTlvc s with events := es } = .next t) (r : Response) : takeAnswer s.abandoned r t = t := by
  have hle := abandoned_le_of_runSteps hrun
  obtain ⟨q, hq⟩ := Option.ne_none_iff_exists'.1 hp
  have hcount : (resetTlvc s).abandoned = s.abandoned + 1 := by rw [resetTlvc_abandoned, hq]; rfl
  have hlt : s.abandoned < t.abandoned := Nat.lt_of_lt_of_le (by rw [hcount]; omega) hle
  exact if_neg fun h => Nat.ne_of_lt hlt h.2

/-- From `s` to `t` the engine keeps waiting with its request: at most `CTRL`, `WERR`, the bus response and the header decoder's place
change, and the event is used up. -/
def KeepsWaiting (s t : State) : Prop :=
  t.phase = .wait ∧ t.pending = s.pending ∧ t.status.busy = true ∧
    t = { s with
      ctrl := t.ctrl, status := { s.status with werr := t.status.werr }, bus := t.bus,
      work := { s.work with hdr := t.work.hdr }, events := s.events.tail }

theorem keepsWaiting_tail {s : State} (hwait : s.phase = .wait) (hb : s.status.busy = true) :
    KeepsWaiting s { s with events := s.events.tail } := ⟨hwait, rfl, hb, rfl⟩

/-- While the engine waits, a write does nothing to it but for a soft reset. -/
theorem writeEffect_of_wait {s t : State} {off : Nat} {w : Width} {v : Word} (hwait : s.phase = .wait) (hf : FlagsAgree s)
    (e : WriteEffect off w v { s with events := s.events.tail } t) (b : Option BusResponse) :
    KeepsWaiting s { t with bus := b } ∨
      t = resetTlvc { s with events := s.events.tail } ∧ off = 0x004 ∧ v.getLsbD 2 = true := by
  obtain ⟨hbusy, hdone, herr, -⟩ := flagsAgree_run hf (by rw [hwait]; decide)
  have idle (hb : s.status.busy = false) : KeepsWaiting s { t with bus := b } := by rw [hbusy] at hb; cases hb
  cases e with
  | ignored => exact .inl ⟨hwait, rfl, hbusy, rfl⟩
  | reset hoff hv => exact .inr ⟨rfl, hoff, hv⟩
  | control => exact .inl ⟨hwait, rfl, hbusy, rfl⟩
  | cleared =>
    have hclear : statusClear v s.status = { s.status with werr := (statusClear v s.status).werr } := by
      simp only [statusClear, hdone, herr, Bool.false_and]
    exact .inl ⟨hwait, rfl, hbusy, congrArg (fun f => { s with status := f, events := s.events.tail, bus := b }) hclear⟩
  | locked _ => exact .inl ⟨hwait, rfl, hbusy, rfl⟩
  | accepted hb | inLen hb | arg0 hb | arg1 hb | arg2 hb | arg3 hb | stored hb _ => exact .inl (idle hb)

theorem offsetOf_eq_add {c : Params} {addr off : Nat} (h : offsetOf c addr = some off) : addr = c.base + off := by
  unfold offsetOf at h
  split_ifs at h with hr
  have := Option.some.inj h
  omega

/-- An allowed write to 0x004 is a word write. -/
theorem width_of_ctrl {w : Width} (h : accessAllowed 0x004 w = true) : w = .word :=
  (register_access_aligned h (by decide)).1

/-- While the engine waits, an access does nothing to it but for the write that is a soft reset. -/
theorem hostAccess_of_wait {s t : State} {a : HostAccess} (hwait : s.phase = .wait) (hf : FlagsAgree s)
    (h : hostAccess a { s with events := s.events.tail } = .next t) :
    KeepsWaiting s t ∨ ∃ v : Word, v.getLsbD 2 = true ∧ a = .write (s.cfg.base + 0x004) .word v ∧
      ∃ b, t = { resetTlvc s with events := s.events.tail, bus := b } := by
  obtain ⟨hbusy, -⟩ := flagsAgree_run hf (by rw [hwait]; decide)
  obtain ⟨off, hoff, rfl⟩ := hostAccess_next h
  cases a with
  | read addr w =>
    rw [accessAt]
    split_ifs <;> exact .inl ⟨hwait, rfl, hbusy, rfl⟩
  | write addr w v =>
    rw [accessAt]
    split_ifs with ha
    · rcases writeEffect_of_wait hwait hf (writeData_effect off w v { s with events := s.events.tail })
        (some okayWrite) with hk | ⟨ht, rfl, hv⟩
      · exact .inl hk
      · obtain rfl := width_of_ctrl ha
        refine .inr ⟨v, hv, ?_, some okayWrite, ?_⟩
        · have haddr : addr = s.cfg.base + 0x004 := offsetOf_eq_add hoff
          rw [haddr]
        · rw [ht]
          rfl
    · exact .inl ⟨hwait, rfl, hbusy, rfl⟩

/-- Settles O59: the answer is taken by its count, which a reset has passed for good, and each event leaves the wait as it is, or is
the answer, or a reset. -/
theorem answersAreTakenOrDiscarded : Obligations.AnswersAreTakenOrDiscarded := by
  refine ⟨fun s r hwait hp hr => ⟨?taken, fun n es t hrun => ?discarded⟩, fun s t hwait hf hstep => ?wait⟩
  case taken => exact (cryptorStep_of_le hr _ _).trans (congrArg _ (takeAnswer_of_wait hwait r))
  case discarded => exact (cryptorStep_of_le hr _ _).trans (congrArg _ (takeAnswer_abandoned hp hrun r))
  case wait =>
    obtain ⟨hbusy, -⟩ := flagsAgree_run hf (by rw [hwait]; decide)
    have stays := keepsWaiting_tail hwait hbusy
    have hrun : s.phase ≠ .run := by rw [hwait]; decide
    obtain ⟨hw, h⟩ := wf_of_step_next hstep
    rw [nextStep] at h
    cases hes : s.events with
    | nil =>
      rw [hes, engineStep_of_not_run hrun] at h
      injection h with h
      rw [events_tail_of_nil hes] at stays
      rw [← hes, ← h]
      exact .inl stays
    | cons e es =>
      obtain rfl : s.events.tail = es := by rw [hes]; rfl
      replace h : eventStep e { s with events := s.events.tail } = .next t := by rw [hes] at h; exact h
      rw [← hes]
      cases e with
      | host a =>
        rcases hostAccess_of_wait hwait hf h with hk | ⟨v, hv, rfl, b, ht⟩
        · exact .inl hk
        · exact .inr (.inr ⟨_, b, ht, .inr ⟨v, hv, hes⟩⟩)
      | engine =>
        rw [eventStep, engineStep_of_not_run (s := { s with events := s.events.tail }) hrun] at h
        injection h with h
        rw [← h]
        exact .inl stays
      | cryptor n r =>
        obtain ⟨-, rfl⟩ := cryptorStep_next h
        rcases takeAnswer_cases n r { s with events := s.events.tail } with ht | ⟨-, rfl, ht⟩
        · rw [ht]
          exact .inl stays
        · exact .inr (.inl ⟨r, _, hes, ht⟩)
      | reset =>
        injection h with h
        exact .inr (.inr ⟨_, s.bus, h.symm, .inl hes⟩)
      | headerByte b =>
        obtain ⟨u, rfl⟩ := headerByte_next h
        exact .inl ⟨hwait, rfl, hbusy, rfl⟩

end Sys2Proof.Machine
end

section
/-! The first part of each frame command (44_adv_build.md R237-R239; 45_adv_parse.md R262-R264): the equation of the request that
it comes to. -/

namespace Sys2Proof.Machine

open Sys2Proof Sys2Proof.Safety

/-! ### The leading element -/

section
variable {c : Params} {salt : List Byte}

theorem leadingElement_short (h : salt.length = saltShort) : leadingElement c salt = .ok (hdrEncode c.tSalt 2 ++ salt) :=
  if_pos h

theorem leadingElement_long (h : salt.length = saltLong) :
    leadingElement c salt = .ok (hdrEncode c.tEi 17 ++ BitVec.ofNat 8 (c.schemeMic % 16 * 8) :: salt) := by
  rw [leadingElement, if_neg (by rw [h]; decide), eiEncode_encodes h]

end

/-! ### ADV_BUILD -/

theorem exec_advBuild_start {s : State} (hp : s.work.pos = .start) :
    exec .advBuild s = .next (perform (commonChecks s (buildStart s)) s) :=
  exec_advBuild_of (by simp only [buildAction, hp])

/-- With the supported version and a salt of either length, ADV_BUILD asks for its nonce. -/
theorem buildStart_asks {s : State} (hv : arg0 s = s.cfg.supportedVersion) (hl : arg1 s = saltShort ∨ arg1 s = saltLong)
    {lead : List Byte} (hlead : leadingElement s.cfg (saltBytes s (arg1 s)) = .ok lead) :
    buildStart s =
      .ask (nonceRequest s.cfg (arg1 s == saltLong) (saltBytes s (arg1 s)))
        { s.work with pos := .nonce, salt := saltBytes s (arg1 s), lead := lead } := by
  have hlen : ¬(arg1 s ≠ saltShort ∧ arg1 s ≠ saltLong) := by tauto
  simp only [buildStart, if_neg (not_not.2 hv), if_neg hlen, hlead]

/-! ### ADV_PARSE -/

theorem exec_advParse_start {s : State} (hp : s.work.pos = .start) :
    exec .advParse s = .next (perform (commonChecks s (parseStart s)) s) :=
  exec_advParse_of (by simp only [parseAction, hp])

/-- Past the checks of steps 1 and 2, ADV_PARSE comes to the leading element (45_adv_parse.md R262, R263). -/
theorem parseStart_eq_parseLead {s : State} (h2 : 2 ≤ inLen s) (hmax : inLen s ≤ sectionMax + 2)
    (hv : (byteAt (inputBytes s) 0).toNat / 32 = s.cfg.supportedVersion)
    (hsec : s.latch.enf = true → (byteAt (inputBytes s) 1).toNat = inLen s - 2) :
    parseStart s = parseLead s (inputBytes s) := by
  have h5 : ¬(s.latch.enf = true ∧ (byteAt (inputBytes s) 1).toNat ≠ inLen s - 2) := fun h => h.2 (hsec h.1)
  simp only [parseStart]
  rw [if_neg (by omega), versionOf_eq, if_neg (not_not.2 hv), if_neg (by omega), if_neg (by omega), if_neg h5]

/-- With a leading element that is legal and lies in the frame, ADV_PARSE asks for its nonce (45_adv_parse.md R264). -/
theorem parseLead_asks {s : State} {buf salt : List Byte} {h : Header} {l : Nat} (hd : hdrDecode buf 2 (inLen s) = some h)
    (hl : leadingLength s.cfg h.typ = some l) (hlen : h.length = l) (hfit : 2 + h.n + h.length ≤ inLen s)
    (hsalt : leadingSalt s.cfg h.typ (slice buf (2 + h.n) (2 + h.n + h.length)) = .ok salt) :
    parseLead s buf =
      .ask (nonceRequest s.cfg (h.typ != s.cfg.tSalt) salt)
        { s.work with
          pos := .nonce
          salt := salt
          lead := slice buf 2 (2 + h.n + h.length)
          cursor := 2 + h.n + h.length } := by
  simp only [parseLead, hd, hl, hlen, ne_eq, not_true_eq_false, if_false] at hfit hsalt ⊢
  rw [if_neg (Nat.not_lt.2 hfit)]
  simp only [hsalt]

theorem slice_byteAt_zero {s : List Byte} {i j : Nat} (h : i < j) : byteAt (slice s i j) 0 = byteAt s i := by
  rw [byteAt, byteAt, List.getD_eq_getElem?_getD, List.getD_eq_getElem?_getD, slice_getElem?, if_pos (by omega),
    Nat.add_zero]

theorem slice_drop (s : List Byte) (i j k : Nat) : (slice s i j).drop k = slice s (i + k) j := by
  rw [slice, slice, List.drop_drop]

/-- The salt of an encryption-info element of one of the two schemes: its value past the scheme byte. -/
theorem leadingSalt_ei {c : Params} {t : Nat} (hne : t ≠ c.tSalt) {v : List Byte} (hlen : v.length = eiLen)
    (hs : (byteAt v 0).toNat / 8 % 16 = c.schemeMic ∨ (byteAt v 0).toNat / 8 % 16 = c.schemeSignature) :
    leadingSalt c t v = .ok (v.drop 1) := by
  rw [leadingSalt, if_neg hne, eiDecode_decodes hlen (by rw [eiScheme_eq]; tauto)]

/-! ### The obligation -/

/-- Settles O23: the equations of the two requests, for each leading element. -/
theorem frameCommandsAskForTheirNonce : Obligations.FrameCommandsAskForTheirNonce := by
  refine ⟨fun s hp hin hv => ⟨fun h2 => ?short, fun h16 => ?long⟩,
    fun s h hp h2 hmax hv hsec hd hfit => ⟨fun ht hl => ?salt, fun hne ht hl hs => ?ei⟩⟩
  case short =>
    have harg : arg1 s = 2 := by rw [arg1, h2]; rfl
    have hask := buildStart_asks hv (.inl harg) (leadingElement_short (by rw [saltBytes_length, harg]))
    rw [harg] at hask
    rw [exec_advBuild_start hp, commonChecks_of_le hin, hask]
    exact ⟨_, rfl, issueRequest_requests _ _ s, rfl, rfl⟩
  case long =>
    have harg : arg1 s = 16 := by rw [arg1, h16]; rfl
    have hask := buildStart_asks hv (.inr harg) (leadingElement_long (by rw [saltBytes_length, harg]))
    rw [harg] at hask
    rw [exec_advBuild_start hp, commonChecks_of_le hin, hask]
    exact ⟨_, rfl, issueRequest_requests _ _ s, rfl, rfl⟩
  case salt =>
    have hend : 2 + h.n + h.length = 4 + h.n := by omega
    have hask := parseLead_asks (s := s) hd (if_pos ht) hl hfit
      ((congrArg (fun t => leadingSalt s.cfg t _) ht).trans (leadingSalt_of_salt _ _))
    rw [ht, bne_self_eq_false, hend] at hask
    rw [exec_advParse_start hp, commonChecks_of_le (hmax.trans (by decide)), parseStart_eq_parseLead h2 hmax hv hsec, hask]
    exact ⟨_, rfl, issueRequest_requests _ _ s, rfl, rfl, rfl, rfl⟩
  case ei =>
    have hend : 2 + h.n + h.length = 19 + h.n := by omega
    have hask := parseLead_asks (s := s) hd ((if_neg hne).trans (if_pos ht)) hl hfit
      (leadingSalt_ei hne (by rw [slice_length, inputBytes_length]; simp only [eiLen]; omega)
        (by rw [slice_byteAt_zero (by omega)]; exact hs))
    rw [bne_iff_ne.2 hne, hend, slice_drop, (by omega : 2 + h.n + 1 = 3 + h.n)] at hask
    rw [exec_advParse_start hp, commonChecks_of_le (hmax.trans (by decide)), parseStart_eq_parseLead h2 hmax hv hsec, hask]
    exact ⟨_, rfl, issueRequest_requests _ _ s, rfl, rfl, rfl, rfl⟩

end Sys2Proof.Machine
end

section
/-! Whole runs of the two frame commands with their requests answered in turn: what they commit is the pseudocode of
44_adv_build.md R236 and 45_adv_parse.md R261, and every accepted command ends (70_reset_and_hazards.md R330). -/

namespace Sys2Proof.Machine

open Sys2Proof Sys2Proof.Safety

/-! ### Rounds of a served run -/

/-- The state in which the engine goes on after the request that `w` was kept for has been answered. -/
def resumed (s : State) (w : Work) (r : Response) : State :=
  { s with phase := .run, pending := none, work := { w with answer := some r } }

/-- A served run ends with the commit of `result`. -/
def ServedTo (rs : List Response) (s : State) (result : Result) : Prop :=
  servedRun rs s = .next (perform (completion result) { s with events := [] })

/-- The outcome of a command from an engine step on: a commit's own, or what follows its request. -/
def follow (next : Work → Result) : Action → Result
  | .ask _ w => next w
  | .ok out r0 r1 r2 r3 => .ok out r0 r1 r2 r3
  | .fail code step => .fail code step

@[simp] theorem follow_ask (next : Work → Result) (r : Request) (w : Work) : follow next (.ask r w) = next w := rfl

@[simp] theorem follow_ok (next : Work → Result) (out : List Byte) (r0 r1 r2 r3 : Nat) :
    follow next (.ok out r0 r1 r2 r3) = .ok out r0 r1 r2 r3 := rfl

@[simp] theorem follow_fail (next : Work → Result) (code : ErrorCode) (step : Nat) :
    follow next (.fail code step) = .fail code step := rfl

/-- A commit wipes out what the rounds before it changed. -/
theorem perform_completion_resumed (result : Result) (s : State) (w : Work) (r : Response) :
    perform (completion result) { resumed s w r with events := [] } = perform (completion result) { s with events := [] } := by
  cases result <;> rfl

section
variable {s : State} (hw : s.cfg.wf) (hr : s.phase = .run) {i : Instr} (hi : fetchCommand s = i)
include hw hr hi

/-- The round that completes the command. -/
theorem servedTo_completion {result : Result}
    (ha : ∀ es, exec i { s with events := es } = .next (perform (completion result) { s with events := es }))
    {rs : List Response} (h255 : ∀ r ∈ rs, r.data.length ≤ cryRspMax) : ServedTo rs s result :=
  (served_round hw hr hi ha rs h255).trans (by cases result <;> rfl)

/-- A round whose request is answered goes on as the run from there. -/
theorem servedTo_follow {a : Action} (ha : ∀ es, exec i { s with events := es } = .next (perform a { s with events := es }))
    {r : Response} {rs : List Response} (h255 : ∀ r' ∈ r :: rs, r'.data.length ≤ cryRspMax) {next : Work → Result}
    (hnext : ∀ q w, a = .ask q w → ServedTo rs (resumed s w r) (next w)) : ServedTo (r :: rs) s (follow next a) := by
  refine (served_round hw hr hi ha (r :: rs) h255).trans ?_
  cases a with
  | ask q w => exact (hnext q w rfl).trans (congrArg _ (perform_completion_resumed _ s w r))
  | ok out r0 r1 r2 r3 => rfl
  | fail code k => rfl

end

/-! ### The outcome of ADV_BUILD, part by part -/

/-- The outcome of ADV_BUILD's last part (44_adv_build.md R245). -/
def buildSigned (s : State) (r : Response) : Result :=
  if r.ok = true ∧ r.data.length = s.cfg.sigLen then
    .ok (s.work.out ++ r.data) (sectionLength s.cfg s.work.lead s.work.idh s.work.ciphertext) 0 0 0
  else .fail .cryptorFailure 6

theorem buildAfterSign_eq (s : State) (r : Response) : buildAfterSign s r = completion (buildSigned s r) := by
  unfold buildSigned
  split_ifs with h
  · exact buildAfterSign_tagged h
  · exact buildAfterSign_refused h

/-- The parts of ADV_BUILD one after the other, each with the answer to the request before it. -/
def buildOutcome (s : State) (rn re rs : Response) : Result :=
  follow (fun w₁ =>
    follow (fun w₂ =>
      follow (fun w₃ => buildSigned (resumed s w₃ rs) rs)
        (buildAfterEncrypt (resumed s w₂ re) re))
      (buildAfterNonce (resumed s w₁ rn) rn))
    (commonChecks s (buildStart s))

/-- The run of an accepted ADV_BUILD, with any answers after the three that it may need. -/
theorem build_servedTo {s : State} (h : Accepted s) (hc : fetchCommand s = .advBuild) {rn re rs : Response}
    {rest : List Response} (h255 : ∀ r ∈ rn :: re :: rs :: rest, r.data.length ≤ cryRspMax) :
    ServedTo (rn :: re :: rs :: rest) s (buildOutcome s rn re rs) := by
  obtain ⟨hw, hr, hp⟩ := h
  simp only [List.forall_mem_cons] at h255
  obtain ⟨hn, he, hs, hrest⟩ := h255
  refine servedTo_follow hw hr hc (fun es => exec_advBuild_start (s := { s with events := es }) hp)
    (by simp only [List.forall_mem_cons]; exact ⟨hn, he, hs, hrest⟩) fun q₁ w₁ h₁ => ?_
  obtain ⟨-, h₁⟩ := commonChecks_ask h₁
  obtain ⟨-, -, -, -, -, rfl⟩ := buildStart_ask h₁
  refine servedTo_follow (s := resumed s _ rn) hw rfl hc
    (fun es => exec_advBuild_nonce (s := { resumed s _ rn with events := es }) rfl rfl)
    (by simp only [List.forall_mem_cons]; exact ⟨he, hs, hrest⟩) fun q₂ w₂ h₂ => ?_
  obtain ⟨-, -, -, -, -, -, rfl⟩ := buildAfterNonce_ask h₂
  refine servedTo_follow (s := resumed s _ re) hw rfl hc
    (fun es => exec_advBuild_encrypt (s := { resumed s _ re with events := es }) rfl rfl)
    (by simp only [List.forall_mem_cons]; exact ⟨hs, hrest⟩) fun q₃ w₃ h₃ => ?_
  obtain ⟨-, -, -, rfl⟩ := buildAfterEncrypt_ask h₃
  refine servedTo_completion (s := resumed s _ rs) hw rfl hc (fun es => ?_) hrest
  rw [exec_advBuild_sign (s := { resumed s _ rs with events := es }) rfl rfl, buildAfterSign_eq]
  rfl

section
variable {s : State} {r : Response} (h : nonceRefused r = false)
include h

theorem buildAfterNonce_noIdentity (hid : arg2 s ∉ s.cfg.identityTypes) :
    buildAfterNonce s r = .fail .invalidElementType 3 := by
  have hid' : s.cfg.identityTypes.contains (arg2 s) = false := by simpa using hid
  simp only [buildAfterNonce, h, hid', Bool.false_eq_true, Bool.not_false, if_true, if_false]

variable (hid : arg2 s ∈ s.cfg.identityTypes)
include hid

theorem buildAfterNonce_tooManyActions (hnA : arg3 s > inLen s) : buildAfterNonce s r = .fail .invalidArgument 4 := by
  simp only [buildAfterNonce, h, List.contains_iff_mem.2 hid, hnA, Bool.false_eq_true, Bool.not_true, if_true, if_false]

variable (hnA : ¬arg3 s > inLen s)
include hnA

theorem buildAfterNonce_badExtras {code : ErrorCode}
    (hes : scanElements s.cfg (inputBytes s) (arg3 s) (inLen s) .extras = .error code) :
    buildAfterNonce s r = .fail code 4 := by
  simp only [buildAfterNonce, h, List.contains_iff_mem.2 hid, hnA, hes, Bool.false_eq_true, Bool.not_true, if_false]

theorem buildAfterNonce_tooLarge {es : List Entry}
    (hes : scanElements s.cfg (inputBytes s) (arg3 s) (inLen s) .extras = .ok es)
    (hlen : (buildPlaintext s.cfg (idkeyBytes s) (inputBytes s) (arg3 s)).length > sectionMax) :
    buildAfterNonce s r = .fail .sectionTooLarge 4 := by
  simp only [buildAfterNonce, h, List.contains_iff_mem.2 hid, hnA, hes, hlen, Bool.false_eq_true, Bool.not_true, if_true,
    if_false]

end

/-- The pseudocode of R236 from the ciphertext on. -/
def buildEncrypted (s : State) (lead idh : List Byte) (re rs : Response) : Result :=
  if re.ok = false then .fail .cryptorFailure 4
  else if sectionLength s.cfg lead idh re.data > sectionMax then .fail .sectionTooLarge 5
  else if rs.ok = false ∨ rs.data.length ≠ s.cfg.sigLen then .fail .cryptorFailure 6
  else
    .ok ([byteOf (s.cfg.supportedVersion * 32), byteOf (sectionLength s.cfg lead idh re.data)] ++ lead ++ idh ++ re.data ++
        rs.data)
      (sectionLength s.cfg lead idh re.data) 0 0 0

theorem follow_buildAfterEncrypt (s : State) (w : Work) (re rs : Response) :
    follow (fun w₃ => buildSigned (resumed s w₃ rs) rs) (buildAfterEncrypt (resumed s w re) re) =
      buildEncrypted s w.lead w.idh re rs := by
  unfold buildEncrypted
  split_ifs with hok hlen htag
  · rw [buildAfterEncrypt_refused hok, follow_fail]
  · rw [buildAfterEncrypt_tooLarge (s := resumed s w re) (by simpa using hok) hlen, follow_fail]
  all_goals
    obtain ⟨q, w₃, hask⟩ := buildAfterEncrypt_asks (s := resumed s w re) (by simpa using hok) (Nat.le_of_not_lt hlen)
    obtain ⟨-, -, -, rfl⟩ := buildAfterEncrypt_ask hask
    rw [hask, follow_ask, buildSigned]
  · exact if_neg fun h => htag.elim (fun ht => by rw [h.1] at ht; cases ht) (fun ht => ht h.2)
  · rw [not_or, not_ne_iff] at htag
    obtain ⟨hok', hsig⟩ := htag
    have hhead : headerByte s.cfg = byteOf (s.cfg.supportedVersion * 32) := headerByte_eq s.cfg
    rw [← hhead]
    exact if_pos ⟨by simpa using hok', hsig⟩

/-- The pseudocode of R236 from the nonce on. -/
def buildNonced (s : State) (lead : List Byte) (rn re rs : Response) : Result :=
  if rn.ok = false ∨ rn.data.length > nonceMax then .fail .cryptorFailure 2
  else if arg2 s ∉ s.cfg.identityTypes then .fail .invalidElementType 3
  else if arg3 s > inLen s then .fail .invalidArgument 4
  else
    match scanElements s.cfg (inputBytes s) (arg3 s) (inLen s) .extras with
    | .error code => .fail code 4
    | .ok _ =>
      if (buildPlaintext s.cfg (idkeyBytes s) (inputBytes s) (arg3 s)).length > sectionMax then .fail .sectionTooLarge 4
      else buildEncrypted s lead (hdrEncode (arg2 s) idLen) re rs

theorem follow_buildAfterNonce (s : State) (w : Work) (rn re rs : Response) :
    follow (fun w₂ => follow (fun w₃ => buildSigned (resumed s w₃ rs) rs) (buildAfterEncrypt (resumed s w₂ re) re))
      (buildAfterNonce (resumed s w rn) rn) = buildNonced s w.lead rn re rs := by
  unfold buildNonced
  by_cases href : nonceRefused rn = true
  · rw [if_pos ((nonceRefused_iff rn).1 href), buildAfterNonce_refused href, follow_fail]
  rw [if_neg (mt (nonceRefused_iff rn).2 href)]
  replace href : nonceRefused rn = false := by simpa using href
  by_cases hid : arg2 s ∈ s.cfg.identityTypes
  case neg => rw [if_pos hid, buildAfterNonce_noIdentity (s := resumed s w rn) href hid, follow_fail]
  rw [if_neg (not_not.2 hid)]
  by_cases hnA : arg3 s > inLen s
  · rw [if_pos hnA, buildAfterNonce_tooManyActions (s := resumed s w rn) href hid hnA, follow_fail]
  rw [if_neg hnA]
  cases hes : scanElements s.cfg (inputBytes s) (arg3 s) (inLen s) .extras with
  | error code => rw [buildAfterNonce_badExtras (s := resumed s w rn) href hid hnA hes, follow_fail]
  | ok es =>
    by_cases hlen : (buildPlaintext s.cfg (idkeyBytes s) (inputBytes s) (arg3 s)).length > sectionMax
    · simp only [if_pos hlen]
      rw [buildAfterNonce_tooLarge (s := resumed s w rn) href hid hnA hes hlen, follow_fail]
    · simp only [if_neg hlen]
      obtain ⟨q, w₂, hask⟩ := (buildAfterNonce_asks_iff (s := resumed s w rn) href).2
        ⟨hid, Nat.le_of_not_lt hnA, ⟨es, hes⟩, Nat.le_of_not_lt hlen⟩
      obtain ⟨-, -, -, -, -, -, rfl⟩ := buildAfterNonce_ask hask
      rw [hask, follow_ask, follow_buildAfterEncrypt]
      rfl

/-- The leading element of R238. -/
def buildLead (s : State) : List Byte :=
  if arg1 s = saltShort then hdrEncode s.cfg.tSalt 2 ++ saltBytes s (arg1 s)
  else hdrEncode s.cfg.tEi eiLen ++ byteOf (s.cfg.schemeMic <<< 3 &&& eiSchemeMask) :: saltBytes s (arg1 s)

theorem leadingElement_buildLead {s : State} (h : arg1 s = saltShort ∨ arg1 s = saltLong) :
    leadingElement s.cfg (saltBytes s (arg1 s)) = .ok (buildLead s) := by
  have hlen := saltBytes_length s (arg1 s)
  rcases h with h | h
  · rw [buildLead, if_pos h, leadingElement_short (hlen.trans h)]
  · rw [buildLead, if_neg (by rw [h]; decide), leadingElement_long (hlen.trans h), shiftLeft_and_eiSchemeMask]
    rfl

theorem buildResult_eq (s : State) (rn re rs : Response) :
    buildResult s rn re rs =
      if inLen s > ibufBytes then .fail .invalidArgument 0
      else if arg0 s ≠ s.cfg.supportedVersion then .fail .unsupportedVersion 1
      else if arg1 s ≠ saltShort ∧ arg1 s ≠ saltLong then .fail .invalidSaltLength 1
      else buildNonced s (buildLead s) rn re rs := rfl

/-- The parts of ADV_BUILD in a row are the pseudocode of R236. -/
theorem buildOutcome_eq_buildResult (s : State) (rn re rs : Response) :
    buildOutcome s rn re rs = buildResult s rn re rs := by
  rw [buildOutcome, buildResult_eq]
  split_ifs with h512 hv hsalt
  · rw [commonChecks_of_gt h512, follow_fail]
  · rw [commonChecks_of_le (Nat.le_of_not_lt h512), buildStart, if_pos hv, follow_fail]
  · simp only [commonChecks_of_le (Nat.le_of_not_lt h512), buildStart, if_neg hv, if_pos hsalt, follow_fail]
  · have hl : arg1 s = saltShort ∨ arg1 s = saltLong := by tauto
    rw [commonChecks_of_le (Nat.le_of_not_lt h512), buildStart_asks (not_not.1 hv) hl (leadingElement_buildLead hl),
      follow_ask, follow_buildAfterNonce]

/-- What a completed run has committed: the state before it differs from the one that ends only in what the commit sets. -/
theorem servedTo_commits {rs : List Response} {s : State} {result : Result} (h : ServedTo rs s result) :
    ∃ t, servedRun rs s = .next t ∧ Commits { s with events := [] } t result :=
  ⟨_, h, perform_completion_commits result _⟩

/-- Settles O21: the run goes through the parts of ADV_BUILD, and these are the pseudocode. -/
theorem buildRunCommitsItsPseudocode : Obligations.BuildRunCommitsItsPseudocode := by
  intro s rn re rs h hc hn he hs
  rw [← buildOutcome_eq_buildResult]
  exact servedTo_commits (build_servedTo h hc (by simp [hn, he, hs]))

end Sys2Proof.Machine
end

section
/-! The whole run of ADV_PARSE: its parts in a row are the pseudocode of 45_adv_parse.md R261 with the result of R270 and R271. -/

namespace Sys2Proof.Machine

open Sys2Proof Sys2Proof.Safety

/-! ### The outcome of ADV_PARSE, part by part -/

/-- The pseudocode of R261 from the verified tag on, for the plaintext, the salt and the identity type observed. -/
def parseScanned (s : State) (pt salt : List Byte) (idType : Nat) (rv : Response) : Result :=
  if rv.ok = false then .fail .authenticationMismatch 7
  else
    match scanElements s.cfg pt idLen pt.length .inner with
    | .error code => .fail code (if code = .invalidActionLength then 9 else 8)
    | .ok es =>
      let acts := es.filter (fun e => e.typ = s.cfg.tAction)
      let dats := es.filter (fun e => e.typ ≠ s.cfg.tAction)
      .ok (pt.take idLen ++ salt ++ acts.map (fun e => byteAt pt e.voff) ++
          dats.flatMap (fun e => slice pt (e.voff - e.n) (e.voff + e.length)))
        ((byteAt (inputBytes s) 0).toNat / 32) idType (salt.length + acts.length * 256 + dats.length * 65536)
        (dats.map (fun e => e.n + e.length)).sum

/-- The last part of ADV_PARSE, when the bytes kept are identity and salt. -/
theorem parseAfterVerify_eq {s : State} (hout : s.work.out = s.work.plaintext.take idLen ++ s.work.salt) (r : Response) :
    parseAfterVerify s r = completion (parseScanned s s.work.plaintext s.work.salt s.work.idType r) := by
  unfold parseScanned
  cases hok : r.ok with
  | false => exact parseAfterVerify_refused hok
  | true =>
    rw [if_neg (by decide)]
    cases hes : scanElements s.cfg s.work.plaintext idLen s.work.plaintext.length .inner with
    | error code => exact parseAfterVerify_inner_fail hok hes
    | ok es =>
      rw [parseAfterVerify_ok hok hes, versionOf_eq, advTail, dataLength, ← List.append_assoc, actionsOf_eq, dataOf_eq, hout]
      rfl

/-- The pseudocode of R261 from the expected tag on. -/
def parseHashed (s : State) (pt salt : List Byte) (idType : Nat) (rh rv : Response) : Result :=
  if rh.ok = false ∨ rh.data.length ≠ s.cfg.mktagLen then .fail .cryptorFailure 6
  else if rh.data ≠ mktagBytes s then .fail .authenticationMismatch 6
  else parseScanned s pt salt idType rv

/-- The pseudocode of R261 from the plaintext on. -/
def parseDecrypted (s : State) (salt : List Byte) (idType : Nat) (rd rh rv : Response) : Result :=
  if rd.ok = false then .fail .decryptionFailure 5
  else if rd.data.length < idLen then .fail .truncated 6
  else parseHashed s rd.data salt idType rh rv

/-- The pseudocode of R261 from the nonce on, for the cursor behind the leading element. -/
def parseNonced (s : State) (p : Nat) (salt : List Byte) (rn rd rh rv : Response) : Result :=
  if rn.ok = false ∨ rn.data.length > nonceMax then .fail .cryptorFailure 3
  else
    match hdrDecode (inputBytes s) p (inLen s) with
    | none => .fail .malformedHeader 4
    | some ih =>
      if ih.typ ∉ s.cfg.identityTypes then .fail .invalidElementType 4
      else if ih.length ≠ idLen then .fail .invalidIdentityLength 4
      else if inLen s - (p + ih.n) < s.cfg.sigLen then .fail .truncated 5
      else parseDecrypted s salt ih.typ rd rh rv

/-- The pseudocode of R261 from the leading element's header on. -/
def parseHeaded (s : State) (h : Header) (rn rd rh rv : Response) : Result :=
  let p := 2 + h.n + h.length
  let v := slice (inputBytes s) (2 + h.n) p
  if h.typ ≠ s.cfg.tSalt ∧ h.typ ≠ s.cfg.tEi then .fail .invalidElementType 3
  else if h.typ = s.cfg.tSalt ∧ h.length ≠ saltShort ∨ h.typ = s.cfg.tEi ∧ h.length ≠ eiLen then
    .fail .invalidSaltLength 3
  else if p > inLen s then .fail .truncated 3
  else if h.typ = s.cfg.tEi ∧ eiScheme (byteAt v 0) ≠ s.cfg.schemeMic ∧ eiScheme (byteAt v 0) ≠ s.cfg.schemeSignature then
    .fail .invalidEncryptionScheme 3
  else parseNonced s p (if h.typ = s.cfg.tSalt then v else v.drop 1) rn rd rh rv

theorem parseResult_eq (s : State) (rn rd rh rv : Response) :
    parseResult s rn rd rh rv =
      if inLen s > ibufBytes then .fail .invalidArgument 0
      else if inLen s < 1 then .fail .truncated 1
      else if (byteAt (inputBytes s) 0).toNat / 32 ≠ s.cfg.supportedVersion then .fail .unsupportedVersion 1
      else if inLen s < 2 then .fail .truncated 2
      else if inLen s - 2 > sectionMax then .fail .sectionTooLarge 2
      else if s.latch.enf = true ∧ (byteAt (inputBytes s) 1).toNat ≠ inLen s - 2 then .fail .sectionLengthMismatch 2
      else
        match hdrDecode (inputBytes s) 2 (inLen s) with
        | none => .fail .malformedHeader 3
        | some h => parseHeaded s h rn rd rh rv := by
  unfold parseResult parseHeaded parseNonced parseDecrypted parseHashed parseScanned
  rfl

/-! ### The parts of the model -/

theorem parseAfterHash_outcome {s : State} {next : Work → Result} {salt pt : List Byte} {idType : Nat} {rh rv : Response}
    (hnext : ∀ q w, parseAfterHash s rh = .ask q w → next w = parseScanned s pt salt idType rv) :
    follow next (parseAfterHash s rh) = parseHashed s pt salt idType rh rv := by
  unfold parseHashed
  by_cases hbad : rh.ok = false ∨ rh.data.length ≠ s.cfg.mktagLen
  · rw [if_pos hbad, parseAfterHash_refused hbad, follow_fail]
  rw [if_neg hbad]
  by_cases hdiff : rh.data = mktagBytes s
  · obtain ⟨q, w, hask⟩ := parseAfterHash_asks hbad hdiff
    rw [if_neg (not_not.2 hdiff), ← hnext q w hask, hask, follow_ask]
  · rw [if_pos hdiff, parseAfterHash_mismatch hbad hdiff, follow_fail]

theorem parseAfterDecrypt_outcome {s : State} {next : Work → Result} {salt : List Byte} {idType : Nat} {rd rh rv : Response}
    (hnext : ∀ q w, parseAfterDecrypt s rd = .ask q w → next w = parseHashed s rd.data salt idType rh rv) :
    follow next (parseAfterDecrypt s rd) = parseDecrypted s salt idType rd rh rv := by
  unfold parseDecrypted
  cases hok : rd.ok with
  | false => rw [if_pos rfl, parseAfterDecrypt_refused hok, follow_fail]
  | true =>
    rw [if_neg (by decide)]
    by_cases hlen : rd.data.length < idLen
    · rw [if_pos hlen, parseAfterDecrypt_short hok hlen, follow_fail]
    · obtain ⟨q, w, hask⟩ := parseAfterDecrypt_asks (s := s) hok (Nat.le_of_not_lt hlen)
      rw [if_neg hlen, ← hnext q w hask, hask, follow_ask]

section
variable {s : State} {r : Response} (h : nonceRefused r = false)
include h

theorem parseAfterNonce_malformed (hd : hdrDecode (inputBytes s) s.work.cursor (inLen s) = none) :
    parseAfterNonce s r = .fail .malformedHeader 4 := by
  simp only [parseAfterNonce, h, hd, Bool.false_eq_true, if_false]

variable {ih : Header} (hd : hdrDecode (inputBytes s) s.work.cursor (inLen s) = some ih)
include hd

theorem parseAfterNonce_noIdentity (hid : ih.typ ∉ s.cfg.identityTypes) :
    parseAfterNonce s r = .fail .invalidElementType 4 := by
  have hid' : s.cfg.identityTypes.contains ih.typ = false := by simpa using hid
  simp only [parseAfterNonce, h, hd, hid', Bool.false_eq_true, Bool.not_false, if_true, if_false]

variable (hid : ih.typ ∈ s.cfg.identityTypes)
include hid

theorem parseAfterNonce_badLength (hl : ih.length ≠ idLen) : parseAfterNonce s r = .fail .invalidIdentityLength 4 := by
  simp only [parseAfterNonce, h, hd, List.contains_iff_mem.2 hid, if_pos hl, Bool.false_eq_true, Bool.not_true, if_false]

theorem parseAfterNonce_truncated (hl : ih.length = idLen) (hsig : inLen s - (s.work.cursor + ih.n) < s.cfg.sigLen) :
    parseAfterNonce s r = .fail .truncated 5 := by
  simp only [parseAfterNonce, h, hd, List.contains_iff_mem.2 hid, if_neg (not_not.2 hl), if_pos hsig, Bool.false_eq_true,
    Bool.not_true, if_false]

end

theorem parseAfterNonce_outcome {s : State} {next : Work → Result} {salt : List Byte} {rn rd rh rv : Response}
    (hnext : ∀ q w, parseAfterNonce s rn = .ask q w → next w = parseDecrypted s salt w.idType rd rh rv) :
    follow next (parseAfterNonce s rn) = parseNonced s s.work.cursor salt rn rd rh rv := by
  unfold parseNonced
  by_cases href : nonceRefused rn = true
  · rw [if_pos ((nonceRefused_iff rn).1 href), parseAfterNonce_refused href, follow_fail]
  rw [if_neg (mt (nonceRefused_iff rn).2 href)]
  replace href : nonceRefused rn = false := by simpa using href
  cases hd : hdrDecode (inputBytes s) s.work.cursor (inLen s) with
  | none => rw [parseAfterNonce_malformed href hd, follow_fail]
  | some ih =>
    simp only
    by_cases hid : ih.typ ∈ s.cfg.identityTypes
    case neg => rw [if_pos hid, parseAfterNonce_noIdentity href hd hid, follow_fail]
    rw [if_neg (not_not.2 hid)]
    by_cases hl : ih.length = idLen
    case neg => rw [if_pos hl, parseAfterNonce_badLength href hd hid hl, follow_fail]
    rw [if_neg (not_not.2 hl)]
    by_cases hsig : inLen s - (s.work.cursor + ih.n) < s.cfg.sigLen
    · rw [if_pos hsig, parseAfterNonce_truncated href hd hid hl hsig, follow_fail]
    rw [if_neg hsig]
    obtain ⟨q, w, hask⟩ := (parseAfterNonce_asks_iff href).2 ⟨ih, hd, hid, hl, Nat.le_of_not_lt hsig⟩
    rw [hask, follow_ask, hnext q w hask]
    obtain ⟨-, ih', hd', -, -, -, -, rfl⟩ := parseAfterNonce_ask hask
    obtain rfl : ih' = ih := Option.some.inj (hd'.symm.trans hd)
    rfl

section
variable {s : State} {buf : List Byte} {h : Header} (hd : hdrDecode buf 2 (inLen s) = some h)
include hd

theorem parseLead_badType (hl : leadingLength s.cfg h.typ = none) : parseLead s buf = .fail .invalidElementType 3 := by
  simp only [parseLead, hd, hl]

variable {l : Nat} (hl : leadingLength s.cfg h.typ = some l)
include hl

theorem parseLead_badLength (hlen : h.length ≠ l) : parseLead s buf = .fail .invalidSaltLength 3 := by
  simp only [parseLead, hd, hl, if_pos hlen]

theorem parseLead_truncated (hlen : h.length = l) (hfit : 2 + h.n + h.length > inLen s) :
    parseLead s buf = .fail .truncated 3 := by
  simp only [parseLead, hd, hl, if_neg (not_not.2 hlen), if_pos hfit]

theorem parseLead_badSalt (hlen : h.length = l) (hfit : ¬2 + h.n + h.length > inLen s) {code : ErrorCode}
    (hsalt : leadingSalt s.cfg h.typ (slice buf (2 + h.n) (2 + h.n + h.length)) = .error code) :
    parseLead s buf = .fail code 3 := by
  simp only [parseLead, hd, hl, if_neg (not_not.2 hlen), if_neg hfit, hsalt]

end

theorem leadingSalt_badScheme {c : Params} {t : Nat} (hne : t ≠ c.tSalt) {v : List Byte} (hlen : v.length = eiLen)
    (hs : eiScheme (byteAt v 0) ≠ c.schemeMic ∧ eiScheme (byteAt v 0) ≠ c.schemeSignature) :
    leadingSalt c t v = .error .invalidEncryptionScheme := by
  rw [leadingSalt, if_neg hne, eiDecode_unknownScheme hlen hs]

/-- The leading element's part: which type it has decides its length, and the encryption-info element's scheme is checked. -/
theorem parseLead_outcome {s : State} (hne : s.cfg.tSalt ≠ s.cfg.tEi) {h : Header}
    (hd : hdrDecode (inputBytes s) 2 (inLen s) = some h) {next : Work → Result} {rn rd rh rv : Response}
    (hnext : ∀ q w, parseLead s (inputBytes s) = .ask q w → next w = parseNonced s w.cursor w.salt rn rd rh rv) :
    follow next (parseLead s (inputBytes s)) = parseHeaded s h rn rd rh rv := by
  have hlen (hl : h.length = eiLen) (hfit : ¬2 + h.n + h.length > inLen s) :
      (slice (inputBytes s) (2 + h.n) (2 + h.n + h.length)).length = eiLen := by
    rw [slice_length, inputBytes_length]; omega
  unfold parseHeaded
  simp only
  by_cases ht : h.typ = s.cfg.tSalt
  · have hl : leadingLength s.cfg h.typ = some saltShort := if_pos ht
    have hnei : h.typ ≠ s.cfg.tEi := by rw [ht]; exact hne
    simp only [ht, hne, not_true_eq_false, ne_eq, false_and, true_and, or_false, if_false, if_true]
    by_cases hsl : h.length = saltShort
    case neg => rw [if_pos hsl, parseLead_badLength hd hl hsl, follow_fail]
    rw [if_neg (not_not.2 hsl)]
    by_cases hfit : 2 + h.n + h.length > inLen s
    · rw [if_pos hfit, parseLead_truncated hd hl hsl hfit, follow_fail]
    have hask := parseLead_asks hd hl hsl (Nat.le_of_not_lt hfit)
      ((congrArg (fun t => leadingSalt s.cfg t _) ht).trans (leadingSalt_of_salt _ _))
    rw [if_neg hfit, hask, follow_ask, hnext _ _ hask]
  by_cases ht' : h.typ = s.cfg.tEi
  · have hl : leadingLength s.cfg h.typ = some eiLen := (if_neg ht).trans (if_pos ht')
    simp only [ht', hne.symm, not_true_eq_false, not_false_eq_true, ne_eq, false_and, true_and, false_or, and_false,
      if_false]
    by_cases hsl : h.length = eiLen
    case neg => rw [if_pos hsl, parseLead_badLength hd hl hsl, follow_fail]
    rw [if_neg (not_not.2 hsl)]
    by_cases hfit : 2 + h.n + h.length > inLen s
    · rw [if_pos hfit, parseLead_truncated hd hl hsl hfit, follow_fail]
    rw [if_neg hfit]
    split_ifs with hs
    · rw [parseLead_badSalt hd hl hsl hfit (leadingSalt_badScheme ht (hlen hsl hfit) hs), follow_fail]
    · have hask := parseLead_asks hd hl hsl (Nat.le_of_not_lt hfit)
        (leadingSalt_ei ht (hlen hsl hfit) (by simp only [eiScheme_eq] at hs; tauto))
      rw [hask, follow_ask, hnext _ _ hask]
  · rw [if_pos ⟨ht, ht'⟩, parseLead_badType hd ((if_neg ht).trans (if_neg ht')), follow_fail]

/-! ### The parts in a row -/

/-- The parts of ADV_PARSE one after the other, each with the answer to the request before it. -/
def parseOutcome (s : State) (rn rd rh rv : Response) : Result :=
  follow (fun w₁ =>
    follow (fun w₂ =>
      follow (fun w₃ =>
        follow (fun w₄ => parseScanned s w₄.plaintext w₄.salt w₄.idType rv)
          (parseAfterHash (resumed s w₃ rh) rh))
        (parseAfterDecrypt (resumed s w₂ rd) rd))
      (parseAfterNonce (resumed s w₁ rn) rn))
    (commonChecks s (parseStart s))

theorem tSalt_ne_tEi {c : Params} (h : c.wf) : c.tSalt ≠ c.tEi := by
  obtain ⟨hnodup, -⟩ := h
  simp only [Params.roleTypes, List.nodup_cons, List.mem_cons, not_or] at hnodup
  exact hnodup.1.2.1

/-- From the nonce on, with the salt and the cursor that the leading element left. -/
theorem follow_parseAfterNonce (s : State) (w : Work) (rn rd rh rv : Response) :
    follow (fun w₂ =>
        follow (fun w₃ =>
          follow (fun w₄ => parseScanned s w₄.plaintext w₄.salt w₄.idType rv) (parseAfterHash (resumed s w₃ rh) rh))
          (parseAfterDecrypt (resumed s w₂ rd) rd))
      (parseAfterNonce (resumed s w rn) rn) = parseNonced s w.cursor w.salt rn rd rh rv := by
  refine parseAfterNonce_outcome (s := resumed s w rn) fun q₂ w₂ h₂ => ?_
  obtain ⟨-, hd, -, -, -, -, -, rfl⟩ := parseAfterNonce_ask h₂
  refine parseAfterDecrypt_outcome (s := resumed s _ rd) fun q₃ w₃ h₃ => ?_
  obtain ⟨-, -, -, rfl⟩ := parseAfterDecrypt_ask h₃
  refine parseAfterHash_outcome (s := resumed s _ rh) fun q₄ w₄ h₄ => ?_
  obtain ⟨-, -, -, rfl⟩ := parseAfterHash_ask h₄
  rfl

/-- The parts of ADV_PARSE in a row are the pseudocode of R261. -/
theorem parseOutcome_eq_parseResult {s : State} (hwf : s.cfg.wf) (rn rd rh rv : Response) :
    parseOutcome s rn rd rh rv = parseResult s rn rd rh rv := by
  rw [parseOutcome, parseResult_eq]
  by_cases h512 : inLen s > ibufBytes
  · rw [if_pos h512, commonChecks_of_gt h512, follow_fail]
  rw [if_neg h512, commonChecks_of_le (Nat.le_of_not_lt h512)]
  simp only [parseStart, ← versionOf_eq]
  split_ifs
  iterate 5 exact follow_fail _ _ _
  cases hd : hdrDecode (inputBytes s) 2 (inLen s) with
  | none => simp only [parseLead, hd, follow_fail]
  | some h => exact parseLead_outcome (tSalt_ne_tEi hwf) hd fun q w _ => follow_parseAfterNonce s w rn rd rh rv

/-- The run of an accepted ADV_PARSE. -/
theorem parse_servedTo {s : State} (h : Accepted s) (hc : fetchCommand s = .advParse) {rn rd rh rv : Response}
    (h255 : ∀ r ∈ [rn, rd, rh, rv], r.data.length ≤ cryRspMax) :
    ServedTo [rn, rd, rh, rv] s (parseOutcome s rn rd rh rv) := by
  obtain ⟨hw, hr, hp⟩ := h
  simp only [List.forall_mem_cons] at h255
  obtain ⟨hn, hd, hh, hv, hnil⟩ := h255
  refine servedTo_follow hw hr hc (fun es => exec_advParse_start (s := { s with events := es }) hp)
    (by simp only [List.forall_mem_cons]; exact ⟨hn, hd, hh, hv, hnil⟩) fun q₁ w₁ h₁ => ?_
  obtain ⟨-, h₁⟩ := commonChecks_ask h₁
  obtain ⟨-, -, -, hd₁, l₁, salt, -, -, -, -, -, -, rfl⟩ := parseStart_ask h₁
  refine servedTo_follow (s := resumed s _ rn) hw rfl hc
    (fun es => exec_advParse_nonce (s := { resumed s _ rn with events := es }) rfl rfl)
    (by simp only [List.forall_mem_cons]; exact ⟨hd, hh, hv, hnil⟩) fun q₂ w₂ h₂ => ?_
  obtain ⟨-, ih, -, -, -, -, -, rfl⟩ := parseAfterNonce_ask h₂
  refine servedTo_follow (s := resumed s _ rd) hw rfl hc
    (fun es => exec_advParse_decrypt (s := { resumed s _ rd with events := es }) rfl rfl)
    (by simp only [List.forall_mem_cons]; exact ⟨hh, hv, hnil⟩) fun q₃ w₃ h₃ => ?_
  obtain ⟨-, -, -, rfl⟩ := parseAfterDecrypt_ask h₃
  refine servedTo_follow (s := resumed s _ rh) hw rfl hc
    (fun es => exec_advParse_hash (s := { resumed s _ rh with events := es }) rfl rfl)
    (by simp only [List.forall_mem_cons]; exact ⟨hv, hnil⟩) fun q₄ w₄ h₄ => ?_
  obtain ⟨-, -, -, rfl⟩ := parseAfterHash_ask h₄
  refine servedTo_completion (s := resumed s _ rv) hw rfl hc (fun es => ?_) hnil
  rw [exec_advParse_verify (s := { resumed s _ rv with events := es }) rfl rfl, parseAfterVerify_eq rfl]
  rfl

/-- Settles O22: the run goes through the parts of ADV_PARSE, and these are the pseudocode. -/
theorem parseRunCommitsItsPseudocode : Obligations.ParseRunCommitsItsPseudocode := by
  intro s rn rd rh rv h hc hn hd hh hv
  rw [← parseOutcome_eq_parseResult h.1]
  exact servedTo_commits (parse_servedTo h hc (by simp [hn, hd, hh, hv]))

/-! ### Every accepted command ends -/

/-- An engine step that leaves the engine idle completes with some outcome. -/
theorem completion_of_idle {a : Action} {s : State} (h : (perform a s).phase = .idle) : ∃ result, a = completion result := by
  cases a with
  | ask r w => cases h
  | ok out r0 r1 r2 r3 => exact ⟨.ok out r0 r1 r2 r3, rfl⟩
  | fail code k => exact ⟨.fail code k, rfl⟩

/-- A command without requests completes in its one step, whatever events are to come. -/
theorem exec_other_completion {i : Instr} (hi : i.position = .command) (hb : i ≠ .advBuild) (hp : i ≠ .advParse) (s : State) :
    ∃ result, ∀ es, exec i { s with events := es } = .next (perform (completion result) { s with events := es }) := by
  have completes {a : Action} (ha : ∀ es, exec i { s with events := es } = .next (perform a { s with events := es })) :
      ∃ result, ∀ es, exec i { s with events := es } = .next (perform (completion result) { s with events := es }) := by
    obtain ⟨result, rfl⟩ := completion_of_idle (exec_commit hi hb hp (ha []))
    exact ⟨result, ha⟩
  cases i with
  | hdrEnc => exact completes (a := commonChecks s (hdrEncAction s)) fun _ => rfl
  | hdrDec => exact completes (a := commonChecks s (hdrDecAction s)) fun _ => rfl
  | eiEnc => exact completes (a := commonChecks s (eiEncAction s)) fun _ => rfl
  | eiDec => exact completes (a := commonChecks s (eiDecAction s)) fun _ => rfl
  | scan => exact completes (a := commonChecks s (scanAction s)) fun _ => rfl
  | illegalZero _ | illegalHigh _ _ | illegalReserved _ _ => exact completes (a := illegalAction) fun _ => rfl
  | advBuild => exact absurd rfl hb
  | advParse => exact absurd rfl hp
  | hdr1 _ _ | hdrm _ | groupCont _ | groupFinal _ => cases hi

theorem other_servedTo {s : State} (h : Accepted s) (hb : fetchCommand s ≠ .advBuild) (hp : fetchCommand s ≠ .advParse)
    {rs : List Response} (h255 : ∀ r ∈ rs, r.data.length ≤ cryRspMax) : ∃ result, ServedTo rs s result := by
  obtain ⟨hw, hr, -⟩ := h
  obtain ⟨result, hresult⟩ := exec_other_completion (fetchCommand_position s) hb hp s
  exact ⟨result, servedTo_completion hw hr rfl hresult h255⟩

/-- A completed command leaves the engine idle with exactly one of DONE and ERR. -/
theorem completion_ends {s : State} (hf : FlagsAgree s) (hne : s.phase ≠ .idle) (result : Result) :
    (perform (completion result) s).phase = .idle ∧ (perform (completion result) s).status.busy = false ∧
      ((perform (completion result) s).status.done = true ∧ (perform (completion result) s).status.err = false ∨
        (perform (completion result) s).status.done = false ∧ (perform (completion result) s).status.err = true) := by
  obtain ⟨-, hdone, herr, -⟩ := flagsAgree_run hf hne
  cases result with
  | ok out r0 r1 r2 r3 => exact ⟨rfl, rfl, .inl ⟨rfl, herr⟩⟩
  | fail code k => exact ⟨rfl, rfl, .inr ⟨hdone, rfl⟩⟩

theorem servedTo_idle {rs : List Response} {s : State} {result : Result} (h : ServedTo rs s result) :
    ∃ t, servedRun rs s = .next t ∧ t.phase = .idle :=
  ⟨_, h, by cases result <;> rfl⟩

/-- Settles O45: each kind of command ends within its requests, and answers after its end are discarded. -/
theorem answeredCommandsEnd : Obligations.AnsweredCommandsEnd := by
  intro s r1 r2 r3 r4 h hf h1 h2 h3 h4
  have all4 : ∀ r ∈ [r1, r2, r3, r4], r.data.length ≤ cryRspMax := by simp [h1, h2, h3, h4]
  have all3 : ∀ r ∈ [r1, r2, r3], r.data.length ≤ cryRspMax := by simp [h1, h2, h3]
  have hne : s.phase ≠ .idle := by rw [h.2.1]; decide
  have full : ∃ result, ServedTo [r1, r2, r3, r4] s result := by
    by_cases hb : fetchCommand s = .advBuild
    · exact ⟨_, build_servedTo h hb all4⟩
    by_cases hp : fetchCommand s = .advParse
    · exact ⟨_, parse_servedTo h hp all4⟩
    · exact other_servedTo h hb hp all4
  obtain ⟨result, hrun⟩ := full
  obtain ⟨hidle, hbusy, hflags⟩ := completion_ends (s := { s with events := [] }) hf hne result
  refine ⟨_, hrun, hidle, hbusy, hflags, fun hp => ?three, fun hp hb => ?none⟩
  case three =>
    by_cases hb : fetchCommand s = .advBuild
    · exact servedTo_idle (build_servedTo h hb all3)
    · obtain ⟨result, hrun⟩ := other_servedTo h hb hp all3
      exact servedTo_idle hrun
  case none =>
    obtain ⟨result, hrun⟩ := other_servedTo h hb hp (rs := []) (by simp)
    exact servedTo_idle hrun

end Sys2Proof.Machine
end

section
/-! Byte strings in pieces, and what a scan of a built plaintext gives (44_adv_build.md R241; 45_adv_parse.md R269-R271): the
actions, and behind them the extras as they stood in the input. -/

namespace Sys2Proof.Machine

open Sys2Proof Sys2Proof.Safety

/-! ### Slices of a string that is put together -/

theorem slice_append_right (pre x : List Byte) (i j : Nat) :
    slice (pre ++ x) (pre.length + i) (pre.length + j) = slice x i j := by
  refine List.ext_getElem? fun k => ?_
  simp only [slice_getElem?, Nat.add_assoc, Nat.add_lt_add_iff_left, List.getElem?_append_right (Nat.le_add_right _ _),
    Nat.add_sub_cancel_left]

theorem slice_middle (a b c : List Byte) : slice (a ++ (b ++ c)) a.length (a.length + b.length) = b := by
  have h := slice_append_right a (b ++ c) 0 b.length
  rw [Nat.add_zero] at h
  rw [h, slice, List.take_left, List.drop_zero]

theorem slice_eq_nil {s : List Byte} {i j : Nat} (h : j ≤ i) : slice s i j = [] :=
  List.eq_nil_of_length_eq_zero (by rw [slice_length]; omega)

theorem slice_append_slice (s : List Byte) {i j k : Nat} (hij : i ≤ j) (hjk : j ≤ k) :
    slice s i j ++ slice s j k = slice s i k := by
  have h := List.take_append_drop (j - i) (slice s i k)
  rwa [slice_take (by omega), slice_drop, Nat.add_sub_cancel' hij] at h

theorem hdrDecode_append_right (pre x : List Byte) (i j : Nat) :
    hdrDecode (pre ++ x) (pre.length + i) (pre.length + j) = hdrDecode x i j := by
  simp only [hdrDecode, slice_append_right]

/-- An encoded header decodes wherever it stands. -/
theorem hdrDecode_hdrEncode_at {typ length : Nat} (ht : typ < typeLimit) (hl : length < lenLimit) (pre post : List Byte) :
    hdrDecode (pre ++ (hdrEncode typ length ++ post)) pre.length (pre ++ (hdrEncode typ length ++ post)).length =
      some { typ := typ, length := length, n := (hdrEncode typ length).length } := by
  have h := hdrDecode_append_right pre (hdrEncode typ length ++ post) 0 ((hdrEncode typ length).length + post.length)
  rwa [hdrDecode_hdrEncode_append ht hl, Nat.add_zero, ← List.length_append, ← List.length_append] at h

/-! ### The extras -/

/-- What EXTRAS lets through, INNER lets through, and it is no ACTION (43_scanner.md R218, R219). -/
theorem checkElement_inner_of_extras {c : Params} {t l : Nat} (h : checkElement c .extras t l = none) :
    checkElement c .inner t l = none ∧ t ≠ c.tAction := by
  simp only [checkElement] at h ⊢
  split_ifs at h with hhead hact
  exact ⟨by rw [if_neg hhead, if_neg fun ha => hact ha.1], hact⟩

/-- Extras that a scan under EXTRAS has accepted are accepted under INNER behind any other bytes, and none is an ACTION. -/
theorem scanLoop_inner_of_extras {c : Params} {pre x : List Byte} {rounds k : Nat} {es : List Entry}
    (h : scanLoop c .extras (pre ++ x) (pre.length + x.length) rounds (pre.length + k) = .ok es) (pre' : List Byte) :
    ∃ es', scanLoop c .inner (pre' ++ x) (pre'.length + x.length) rounds (pre'.length + k) = .ok es' ∧
      ∀ e ∈ es', e.typ ≠ c.tAction := by
  induction rounds generalizing k es with
  | zero => exact ⟨[], rfl, by simp⟩
  | succ rounds ih =>
    rcases scanLoop_ok h with ⟨hend, -⟩ | ⟨hlt, hd, es₁, hdec, hfit, hcheck, hrest, -⟩
    · exact ⟨[], scanLoop_end _ _ _ _ _ _ (by omega), by simp⟩
    · obtain ⟨hinner, hact⟩ := checkElement_inner_of_extras hcheck
      rw [hdrDecode_append_right] at hdec
      rw [Nat.add_assoc, Nat.add_assoc] at hrest
      obtain ⟨es₂, hes₂, hall⟩ := ih hrest
      refine ⟨{ typ := hd.typ, length := hd.length, n := hd.n, voff := pre'.length + k + hd.n } :: es₂, ?_, ?_⟩
      · rw [scanLoop, if_pos (by omega), hdrDecode_append_right, hdec]
        simp only [hinner, if_neg (show ¬pre'.length + k + hd.n + hd.length > pre'.length + x.length by omega)]
        rw [Nat.add_assoc (pre'.length + k), Nat.add_assoc pre'.length, hes₂]
      · simp only [List.forall_mem_cons]
        exact ⟨hact, hall⟩

/-- The elements of a scan, header and value each, put together are the stream (43_scanner.md R215). -/
theorem scanLoop_slices {c : Params} {rs : RuleSet} {buf : List Byte} {fin rounds pos : Nat} {es : List Entry}
    (hr : fin - pos ≤ rounds) (hp : pos ≤ fin) (h : scanLoop c rs buf fin rounds pos = .ok es) :
    es.flatMap (fun e => slice buf (e.voff - e.n) (e.voff + e.length)) = slice buf pos fin := by
  induction rounds generalizing pos es with
  | zero =>
    simp only [scanLoop, Except.ok.injEq] at h
    rw [← h, slice_eq_nil (by omega), List.flatMap_nil]
  | succ rounds ih =>
    rcases scanLoop_ok h with ⟨hend, rfl⟩ | ⟨-, hd, es', hhd, hfit, -, hes, rfl⟩
    · rw [slice_eq_nil hend, List.flatMap_nil]
    · obtain ⟨-, -, hn, -⟩ := hdrDecode_bounds hhd
      rw [List.flatMap_cons, Nat.add_sub_cancel, ih (by omega) hfit hes, slice_append_slice buf (by omega) hfit]

/-! ### The actions -/

/-- A scan of a stream tells its actions and its other elements apart as `actions` and `rest`. -/
def Separates (c : Params) (buf : List Byte) (es : List Entry) (actions rest : List Byte) : Prop :=
  (es.filter (fun e => e.typ = c.tAction)).map (fun e => byteAt buf e.voff) = actions ∧
  (es.filter (fun e => e.typ ≠ c.tAction)).flatMap (fun e => slice buf (e.voff - e.n) (e.voff + e.length)) = rest

theorem scanElements_separates_extras {c : Params} {pre x : List Byte} {es : List Entry}
    (h : scanElements c (pre ++ x) pre.length (pre ++ x).length .extras = .ok es) (pre' : List Byte) :
    ∃ es', scanElements c (pre' ++ x) pre'.length (pre' ++ x).length .inner = .ok es' ∧ Separates c (pre' ++ x) es' [] x := by
  simp only [scanElements, List.length_append, Nat.add_sub_cancel_left] at h ⊢
  obtain ⟨es', hes', hall⟩ := scanLoop_inner_of_extras (k := 0) h pre'
  have hslices := scanLoop_slices (pos := pre'.length) (Nat.add_sub_cancel_left ..).le (Nat.le_add_right _ _) hes'
  have hmiddle := slice_middle pre' x []
  rw [List.append_nil] at hmiddle
  refine ⟨es', hes', ?_, ?_⟩
  · rw [List.filter_eq_nil_iff.2 (by simpa using hall), List.map_nil]
  · rw [List.filter_eq_self.2 (by simpa using hall), hslices, hmiddle]

theorem tAction_not_head {c : Params} (h : c.wf) : isHeadType c c.tAction = false := by
  obtain ⟨hnodup, -⟩ := h
  simp only [Params.roleTypes, List.nodup_cons, List.mem_cons, not_or] at hnodup
  obtain ⟨⟨hsalt, -⟩, ⟨hei, hid⟩, -⟩ := hnodup
  rw [← Bool.not_eq_true, isHeadType_iff]
  rintro (h | h | h)
  exacts [hsalt h.symm, hei h, hid h]

/-- One action element of length 1 in front of a stream. -/
theorem scanElements_action {c : Params} (hwf : c.wf) {pre rest : List Byte} {a : Byte} {es : List Entry}
    {buf : List Byte} (hbuf : buf = pre ++ (hdrEncode c.tAction 1 ++ (a :: rest)))
    (h : scanElements c buf (pre.length + ((hdrEncode c.tAction 1).length + 1)) buf.length .inner = .ok es) :
    scanElements c buf pre.length buf.length .inner =
      .ok ({ typ := c.tAction, length := 1, n := (hdrEncode c.tAction 1).length,
             voff := pre.length + (hdrEncode c.tAction 1).length } :: es) := by
  have hlen : buf.length = pre.length + ((hdrEncode c.tAction 1).length + (rest.length + 1)) := by
    rw [hbuf, List.length_append, List.length_append, List.length_cons]
  have hd := hdrDecode_hdrEncode_at (roleType_lt hwf (tAction_mem c)) (show 1 < lenLimit by decide) pre (a :: rest)
  have hcheck : checkElement c .inner c.tAction 1 = none := by
    simp [checkElement, tAction_not_head hwf]
  rw [← hbuf] at hd
  rw [scanElements_step (by omega) hd]
  simp only [hcheck, if_neg (show ¬pre.length + (hdrEncode c.tAction 1).length + 1 > buf.length by omega)]
  rw [Nat.add_assoc, h]
  rfl

theorem separates_action {c : Params} {buf rest acts : List Byte} {es : List Entry} (h : Separates c buf es acts rest)
    (l n voff : Nat) :
    Separates c buf ({ typ := c.tAction, length := l, n := n, voff := voff } :: es) (byteAt buf voff :: acts) rest := by
  obtain ⟨hacts, hrest⟩ := h
  constructor
  · rw [List.filter_cons_of_pos (by simp), List.map_cons, hacts]
  · rw [List.filter_cons_of_neg (by simp), hrest]

/-- Action elements in front of accepted extras: the scan gives back the actions and the extras. -/
theorem scanElements_separates {c : Params} (hwf : c.wf) {pre₀ x : List Byte} {es₀ : List Entry}
    (h : scanElements c (pre₀ ++ x) pre₀.length (pre₀ ++ x).length .extras = .ok es₀) (acts pre : List Byte) :
    ∃ es, scanElements c (pre ++ (actionElements c acts ++ x)) pre.length (pre ++ (actionElements c acts ++ x)).length .inner =
        .ok es ∧ Separates c (pre ++ (actionElements c acts ++ x)) es acts x := by
  induction acts generalizing pre with
  | nil => exact scanElements_separates_extras h pre
  | cons a acts ih =>
    have hbuf : pre ++ (actionElements c (a :: acts) ++ x) =
        pre ++ (hdrEncode c.tAction 1 ++ (a :: (actionElements c acts ++ x))) := by
      simp [actionElements]
    have hnext : pre ++ (hdrEncode c.tAction 1 ++ (a :: (actionElements c acts ++ x))) =
        (pre ++ (hdrEncode c.tAction 1 ++ [a])) ++ (actionElements c acts ++ x) := by simp
    obtain ⟨es, hes, hsep⟩ := ih (pre ++ (hdrEncode c.tAction 1 ++ [a]))
    have hpos : (pre ++ (hdrEncode c.tAction 1 ++ [a])).length = pre.length + ((hdrEncode c.tAction 1).length + 1) := by
      simp
    rw [← hnext, ← hbuf] at hes hsep
    rw [hpos] at hes
    have hread : byteAt (pre ++ (actionElements c (a :: acts) ++ x)) (pre.length + (hdrEncode c.tAction 1).length) = a := by
      rw [hbuf, ← List.append_assoc, ← List.length_append, byteAt, List.getD_eq_getElem?_getD,
        List.getElem?_append_right le_rfl, Nat.sub_self]
      rfl
    refine ⟨_, scanElements_action hwf hbuf hes, ?_⟩
    have := separates_action hsep 1 (hdrEncode c.tAction 1).length (pre.length + (hdrEncode c.tAction 1).length)
    rwa [hread] at this

end Sys2Proof.Machine
end

section
/-! Runs with the Cryptor at hand (45_adv_parse.md R272, log 1), and what a run of ADV_BUILD that ends with DONE has gone through. -/

namespace Sys2Proof.Machine

open Sys2Proof Sys2Proof.Safety

/-! ### Rounds of a run -/

/-- The engine is to move, with no event left, and its step does `a`. -/
structure AboutTo (s : State) (a : Action) : Prop where
  wf : s.cfg.wf
  noRequest : s.pending = none
  noEvents : s.events = []
  moves : engineStep s = .next (perform a s)

/-- The state in which the engine goes on after its answer, in a run with the Cryptor at hand. -/
def answered (s : State) (w : Work) (r : Response) : State := { resumed s w r with events := [] }

theorem aboutTo_of_exec {s : State} {i : Instr} {a : Action} (hw : s.cfg.wf) (hp : s.pending = none) (he : s.events = [])
    (hr : s.phase = .run) (hi : fetchCommand s = i) (ha : exec i s = .next (perform a s)) : AboutTo s a :=
  ⟨hw, hp, he, by rw [engineStep_of_run hr, hi, ha]⟩

/-- An accepted command word, with no event left. -/
def started (w : Word) (s : State) : State := { accept w s with events := [] }

/-- A run with the Cryptor at hand does not look at the events that are left at its start. -/
theorem runWith_started (cry : Cryptor) (n : Nat) (w : Word) (s : State) :
    runWith cry (n + 1) (started w s) = runWith cry (n + 1) (accept w s) := rfl

section
variable {cry : Cryptor} {s : State}

theorem stepWith_noRequest (hw : s.cfg.wf) (hp : s.pending = none) (he : s.events = []) : stepWith cry s = engineStep s := by
  cases s
  cases hp
  cases he
  exact step_engine hw []

section
variable {q : Request} (hw : s.cfg.wf) (hq : s.pending = some q)
include hw hq

theorem stepWith_request (hr : (cry q).data.length ≤ cryRspMax) :
    stepWith cry s = .next (takeAnswer s.abandoned (cry q) { s with events := [] }) := by
  cases s
  cases hq
  exact step_cryptor hw hr _ []

theorem stepWith_tooLong (hr : ¬(cry q).data.length ≤ cryRspMax) : stepWith cry s = .fault .responseTooLong := by
  have hstep : stepWith cry s = step { s with events := [.cryptor s.abandoned (cry q)] } := by
    cases s
    cases hq
    rfl
  rw [hstep, step_of_wf (s := { s with events := [.cryptor s.abandoned (cry q)] }) hw]
  exact if_pos (Nat.lt_of_not_le hr)

end

theorem runWith_succ (n : Nat) {t : State} (h : stepWith cry s = .next t) : runWith cry (n + 1) s = runWith cry n t := by
  rw [runWith, h]

/-- An idle engine stays as it is. -/
theorem runWith_idle (hw : s.cfg.wf) (hp : s.pending = none) (he : s.events = []) (hi : s.phase = .idle) (n : Nat) :
    runWith cry n s = .next s := by
  induction n with
  | zero => rfl
  | succ n ih =>
    have hidle := stepWith_noRequest (cry := cry) hw hp he
    rw [engineStep_of_not_run (by rw [hi]; decide)] at hidle
    rw [runWith_succ n hidle, ih]

theorem runWith_completion {result : Result} (h : AboutTo s (completion result)) (n : Nat) :
    runWith cry (n + 1) s = .next (perform (completion result) s) := by
  obtain ⟨hw, hp, he, ha⟩ := h
  rw [runWith_succ n ((stepWith_noRequest hw hp he).trans ha)]
  cases result with
  | ok out r0 r1 r2 r3 => exact runWith_idle (s := commitOk _ _ _ _ _ s) hw rfl he rfl n
  | fail code k => exact runWith_idle (s := commitFail _ _ s) hw rfl he rfl n

section
variable {q : Request} {w : Work} (h : AboutTo s (.ask q w))
include h

theorem runWith_ask (hr : (cry q).data.length ≤ cryRspMax) (n : Nat) :
    runWith cry (n + 2) s = runWith cry n (answered s w (cry q)) := by
  obtain ⟨hw, hp, he, ha⟩ := h
  rw [runWith_succ (n + 1) ((stepWith_noRequest hw hp he).trans ha)]
  refine runWith_succ n ((stepWith_request (s := issueRequest q w s) hw rfl hr).trans ?_)
  exact congrArg _ (takeAnswer_of_wait (s := { issueRequest q w s with events := [] }) rfl (cry q))

/-- A request whose answer the port cannot carry stops the run. -/
theorem runWith_ask_tooLong (hr : ¬(cry q).data.length ≤ cryRspMax) (n : Nat) :
    runWith cry (n + 2) s = .fault .responseTooLong := by
  obtain ⟨hw, hp, he, ha⟩ := h
  have hstop := stepWith_tooLong (cry := cry) (s := issueRequest q w s) hw rfl hr
  rw [runWith_succ (n + 1) ((stepWith_noRequest hw hp he).trans ha), runWith, perform, hstop]

end

/-! ### Runs that end with DONE -/

/-- An action that is no `Ok`: the parts of a frame command before its last. -/
def NeverOk (a : Action) : Prop := ∀ out r0 r1 r2 r3, a ≠ .ok out r0 r1 r2 r3

/-- A run that ends with DONE gets over a part that is no `Ok` by its request. -/
theorem runWith_done_asks {a : Action} (h : AboutTo s a) (hok : NeverOk a) (hs : s.status.done = false) {n : Nat} {t : State}
    (hrun : runWith cry (n + 2) s = .next t) (ht : t.status.done = true) :
    ∃ q w, a = .ask q w ∧ runWith cry n (answered s w (cry q)) = .next t := by
  cases a with
  | ask q w =>
    by_cases hr : (cry q).data.length ≤ cryRspMax
    · exact ⟨q, w, rfl, (runWith_ask h hr n).symm.trans hrun⟩
    · rw [runWith_ask_tooLong h hr] at hrun
      cases hrun
  | ok out r0 r1 r2 r3 => exact absurd rfl (hok out r0 r1 r2 r3)
  | fail code k =>
    rw [runWith_completion (result := .fail code k) h] at hrun
    cases hrun
    exact absurd (hs.symm.trans ht) (by decide)

/-- What a run that ends with DONE has committed, once its last part is reached. -/
theorem runWith_done_commits {a : Action} {result : Result} (h : AboutTo s a) (ha : a = completion result)
    (hs : s.status.done = false) {n : Nat} {t : State} (hrun : runWith cry (n + 1) s = .next t) (ht : t.status.done = true) :
    ∃ out r0 r1 r2 r3, result = .ok out r0 r1 r2 r3 ∧ ObufHolds t out ∧ t.outLen = BitVec.ofNat 13 out.length := by
  subst ha
  rw [runWith_completion h] at hrun
  have hcommits := perform_completion_commits result s
  cases hrun
  cases result with
  | ok out r0 r1 r2 r3 =>
    obtain ⟨hobuf, hlen, -⟩ := hcommits
    exact ⟨out, r0, r1, r2, r3, rfl, hobuf, hlen⟩
  | fail code k => exact absurd (hs.symm.trans ht) (by decide)

end

theorem commonChecks_neverOk {s : State} {a : Action} (h : NeverOk a) : NeverOk (commonChecks s a) := by
  intro out r0 r1 r2 r3 hok
  unfold commonChecks at hok
  split_ifs at hok
  exact h _ _ _ _ _ hok

theorem buildStart_neverOk (s : State) : NeverOk (buildStart s) := by
  intro out r0 r1 r2 r3 hok
  simp only [buildStart] at hok
  split_ifs at hok
  split at hok <;> cases hok

theorem buildAfterNonce_neverOk (s : State) (r : Response) : NeverOk (buildAfterNonce s r) := by
  intro out r0 r1 r2 r3 hok
  simp only [buildAfterNonce] at hok
  split_ifs at hok <;> split at hok <;> cases hok

theorem buildAfterEncrypt_neverOk (s : State) (r : Response) : NeverOk (buildAfterEncrypt s r) := by
  intro out r0 r1 r2 r3 hok
  simp only [buildAfterEncrypt] at hok
  split_ifs at hok

/-! ### The frame of a run -/

section
variable (cry : Cryptor) (s : State)

/-- The plaintext of R241, on the operands. -/
def builtPlaintext : List Byte := buildPlaintext s.cfg (idkeyBytes s) (inputBytes s) (arg3 s)

/-- The Cryptor's answer to the request of R239. -/
def builtNonce : Response := cry (nonceRequest s.cfg (arg1 s == saltLong) (saltBytes s (arg1 s)))

/-- The Cryptor's answer to the request of R241. -/
def builtCipher : Response := cry (.encrypt (builtPlaintext s) (builtNonce cry s).data (keyBytes s))

/-- The identity header of R240. -/
def builtIdh : List Byte := hdrEncode (arg2 s) idLen

/-- The section length of R242. -/
def builtLength : Nat := sectionLength s.cfg (buildLead s) (builtIdh s) (builtCipher cry s).data

/-- The string that is signed (R243). -/
def builtSigned : List Byte :=
  authBytes s.cfg (headerByte s.cfg) (byteOf (builtLength cry s)) (buildLead s) (builtNonce cry s).data (builtIdh s)
    (builtCipher cry s).data

/-- The Cryptor's answer to the request of R244. -/
def builtTag : Response := cry (.sign (builtSigned cry s) (keyBytes s))

/-- The frame of R245. -/
def builtFrame : List Byte :=
  [headerByte s.cfg, byteOf (builtLength cry s)] ++ buildLead s ++ builtIdh s ++ (builtCipher cry s).data ++ (builtTag cry s).data

/-- What the checks of R236 have found in a run of ADV_BUILD that ends with DONE. -/
structure Built : Prop where
  inputFits : inLen s ≤ ibufBytes
  saltLength : arg1 s = saltShort ∨ arg1 s = saltLong
  nonceTaken : nonceRefused (builtNonce cry s) = false
  identity : arg2 s ∈ s.cfg.identityTypes
  actions : arg3 s ≤ inLen s
  extras : ∃ es, scanElements s.cfg (inputBytes s) (arg3 s) (inLen s) .extras = .ok es
  plaintextFits : (builtPlaintext s).length ≤ sectionMax
  encrypted : (builtCipher cry s).ok = true
  sectionFits : builtLength cry s ≤ sectionMax
  signed : (builtTag cry s).ok = true
  tagLength : (builtTag cry s).data.length = s.cfg.sigLen

end

/-- A run of ADV_BUILD that ends with DONE has built its frame. -/
theorem built_of_done {cry : Cryptor} {s t : State} (h : Accepted s) (hp : s.pending = none) (he : s.events = [])
    (hc : fetchCommand s = .advBuild) (hs : s.status.done = false) (hrun : runWith cry 7 s = .next t)
    (ht : t.status.done = true) :
    Built cry s ∧ ObufHolds t (builtFrame cry s) ∧ t.outLen = BitVec.ofNat 13 (builtFrame cry s).length := by
  obtain ⟨hw, hr, hpos⟩ := h
  obtain ⟨q₁, w₁, h₁, hrun⟩ := runWith_done_asks (aboutTo_of_exec hw hp he hr hc (exec_advBuild_start hpos))
    (commonChecks_neverOk (buildStart_neverOk s)) hs hrun ht
  obtain ⟨hfits, h₁⟩ := commonChecks_ask h₁
  obtain ⟨-, hsalt, lead, hlead, rfl, rfl⟩ := buildStart_ask h₁
  obtain rfl : buildLead s = lead := Except.ok.inj ((leadingElement_buildLead hsalt).symm.trans hlead)
  obtain ⟨q₂, w₂, h₂, hrun⟩ := runWith_done_asks
    (aboutTo_of_exec (s := answered s _ _) hw rfl rfl rfl hc (exec_advBuild_nonce rfl rfl)) (buildAfterNonce_neverOk _ _) hs
    hrun ht
  obtain ⟨hnonce, hid, hnA, hextras, hplain, rfl, rfl⟩ := buildAfterNonce_ask h₂
  obtain ⟨q₃, w₃, h₃, hrun⟩ := runWith_done_asks
    (aboutTo_of_exec (s := answered _ _ _) hw rfl rfl rfl hc (exec_advBuild_encrypt rfl rfl)) (buildAfterEncrypt_neverOk _ _)
    hs hrun ht
  obtain ⟨henc, hsec, rfl, rfl⟩ := buildAfterEncrypt_ask h₃
  obtain ⟨out, r0, r1, r2, r3, hout, hobuf, hlen⟩ := runWith_done_commits
    (aboutTo_of_exec (s := answered _ _ _) hw rfl rfl rfl hc (exec_advBuild_sign rfl rfl)) (buildAfterSign_eq _ _) hs hrun ht
  unfold buildSigned at hout
  split_ifs at hout with htag
  obtain ⟨hsigned, hsig⟩ := htag
  cases hout
  exact ⟨⟨hfits, hsalt, hnonce, hid, hnA, hextras, hplain, henc, hsec, hsigned, hsig⟩, hobuf, hlen⟩

end Sys2Proof.Machine
end

section
/-! The round trip of the two frame commands (45_adv_parse.md R272): the parts of a built frame where ADV_PARSE reads them, and its
run over the frame. -/

namespace Sys2Proof.Machine

open Sys2Proof Sys2Proof.Safety

/-! ### An element in a frame -/

/-- An element that stands in a string decodes, and its value is the slice behind its header. -/
theorem element_reads {t : Nat} (ht : t < typeLimit) {v : List Byte} (hv : v.length < lenLimit) (pre post : List Byte) :
    let buf := pre ++ (hdrEncode t v.length ++ v ++ post)
    let n := (hdrEncode t v.length).length
    hdrDecode buf pre.length buf.length = some { typ := t, length := v.length, n := n } ∧
      slice buf (pre.length + n) (pre.length + n + v.length) = v := by
  intro buf n
  constructor
  · have h := hdrDecode_hdrEncode_at ht hv pre (v ++ post)
    rwa [← List.append_assoc (hdrEncode t v.length)] at h
  · have h := slice_middle (pre ++ hdrEncode t v.length) v post
    rwa [List.append_assoc, ← List.append_assoc (hdrEncode t v.length), List.length_append] at h

/-- How a leading element reads back: its header, its two ends, its salt, and whether the salt is extended (R264). -/
def LeadReads (c : Params) (buf : List Byte) (off : Nat) (lead salt : List Byte) (h : Header) : Prop :=
  hdrDecode buf off buf.length = some h ∧ leadingLength c h.typ = some h.length ∧ h.n + h.length = lead.length ∧
  leadingSalt c h.typ (slice buf (off + h.n) (off + h.n + h.length)) = .ok salt ∧
  (h.typ != c.tSalt) = (salt.length == saltLong)

/-- The leading element that ADV_BUILD makes is the one that ADV_PARSE reads. -/
theorem leadingElement_reads {c : Params} (hwf : c.wf) {salt lead : List Byte}
    (hsalt : salt.length = saltShort ∨ salt.length = saltLong) (hlead : leadingElement c salt = .ok lead)
    (pre post : List Byte) : ∃ h, LeadReads c (pre ++ (lead ++ post)) pre.length lead salt h := by
  rcases hsalt with hshort | hlong
  · obtain ⟨hd, hv⟩ := element_reads (roleType_lt hwf (tSalt_mem c)) (v := salt) (by rw [hshort]; decide) pre post
    rw [leadingElement_short hshort, Except.ok.injEq, ← saltShort, ← hshort] at hlead
    rw [hlead] at hd hv
    refine ⟨_, hd, (if_pos rfl).trans (congrArg some hshort.symm), ?_, ?_, ?_⟩
    · rw [← hlead, List.length_append]
    · rw [hv, leadingSalt_of_salt]
    · rw [hshort]
      exact bne_self_eq_false _
  · have hne : c.tEi ≠ c.tSalt := (tSalt_ne_tEi hwf).symm
    have hlen : (BitVec.ofNat 8 (c.schemeMic % 16 * 8) :: salt).length = eiLen := congrArg (· + 1) hlong
    obtain ⟨hd, hv⟩ := element_reads (roleType_lt hwf (tEi_mem c)) (by rw [hlen]; decide) pre post
    rw [leadingElement_long hlong, Except.ok.injEq, ← eiLen, ← hlen] at hlead
    rw [hlead] at hd hv
    obtain ⟨-, -, -, -, hmic, -⟩ := hwf
    refine ⟨_, hd, ((if_neg hne).trans (if_pos rfl)).trans (congrArg some hlen.symm), ?_, ?_, ?_⟩
    · rw [← hlead, List.length_append]
    · rw [hv, leadingSalt_ei hne hlen (.inl (eiScheme_encoded hmic))]
      rfl
    · rw [hlong]
      exact bne_iff_ne.2 hne

/-! ### The parts of a built frame -/

section
variable {cry : Cryptor} {s : State} (hb : Built cry s)
include hb

theorem builtFrame_length : (builtFrame cry s).length = 2 + builtLength cry s := by
  simp only [builtFrame, List.length_append, List.length_cons, List.length_nil, hb.tagLength, builtLength, sectionLength]
  omega

theorem builtFrame_length_le : (builtFrame cry s).length ≤ 257 :=
  (builtFrame_length hb).trans_le (Nat.add_le_add_left hb.sectionFits 2)

theorem builtFrame_tag :
    slice (builtFrame cry s) ((builtFrame cry s).length - s.cfg.sigLen) (builtFrame cry s).length = (builtTag cry s).data := by
  rw [← hb.tagLength, slice_of_length_le le_rfl, builtFrame, List.length_append, Nat.add_sub_cancel, List.drop_left]

theorem builtFrame_cipher :
    slice (builtFrame cry s) (2 + (buildLead s).length + (builtIdh s).length) ((builtFrame cry s).length - s.cfg.sigLen) =
      (builtCipher cry s).data := by
  have h := slice_middle ([headerByte s.cfg, byteOf (builtLength cry s)] ++ buildLead s ++ builtIdh s) (builtCipher cry s).data
    (builtTag cry s).data
  rw [← List.append_assoc, ← builtFrame] at h
  simp only [List.length_append, List.length_cons, List.length_nil] at h
  rw [builtFrame_length hb, builtLength, sectionLength]
  exact (congrArg _ (by omega)).trans h

end

section
variable (cry : Cryptor) (s : State)

theorem builtFrame_eq_append_lead :
    builtFrame cry s = [headerByte s.cfg, byteOf (builtLength cry s)] ++
      (buildLead s ++ (builtIdh s ++ (builtCipher cry s).data ++ (builtTag cry s).data)) := by
  simp only [builtFrame, List.append_assoc]

theorem builtFrame_eq_append_idh :
    builtFrame cry s = ([headerByte s.cfg, byteOf (builtLength cry s)] ++ buildLead s) ++
      (builtIdh s ++ ((builtCipher cry s).data ++ (builtTag cry s).data)) := by
  simp only [builtFrame, List.append_assoc]

theorem builtFrame_byte_zero : byteAt (builtFrame cry s) 0 = headerByte s.cfg := rfl

theorem builtFrame_byte_one : byteAt (builtFrame cry s) 1 = byteOf (builtLength cry s) := rfl

theorem builtFrame_lead : slice (builtFrame cry s) 2 (2 + (buildLead s).length) = buildLead s := by
  rw [builtFrame_eq_append_lead]
  exact slice_middle [headerByte s.cfg, byteOf (builtLength cry s)] _ _

theorem builtFrame_idh :
    slice (builtFrame cry s) (2 + (buildLead s).length) (2 + (buildLead s).length + (builtIdh s).length) = builtIdh s := by
  have h := slice_middle ([headerByte s.cfg, byteOf (builtLength cry s)] ++ buildLead s) (builtIdh s)
    ((builtCipher cry s).data ++ (builtTag cry s).data)
  rwa [← builtFrame_eq_append_idh, List.length_append] at h

theorem builtFrame_identity {s : State} (hwf : s.cfg.wf) (hid : arg2 s ∈ s.cfg.identityTypes) :
    hdrDecode (builtFrame cry s) (2 + (buildLead s).length) (builtFrame cry s).length =
      some { typ := arg2 s, length := idLen, n := (builtIdh s).length } := by
  have h := hdrDecode_hdrEncode_at (roleType_lt hwf (identityType_mem hid)) (show idLen < lenLimit by decide)
    ([headerByte s.cfg, byteOf (builtLength cry s)] ++ buildLead s) ((builtCipher cry s).data ++ (builtTag cry s).data)
  rwa [← builtIdh, ← builtFrame_eq_append_idh, List.length_append] at h

theorem builtFrame_leadReads {s : State} (hwf : s.cfg.wf) (hsalt : arg1 s = saltShort ∨ arg1 s = saltLong) :
    ∃ h, LeadReads s.cfg (builtFrame cry s) 2 (buildLead s) (saltBytes s (arg1 s)) h := by
  rw [builtFrame_eq_append_lead]
  exact leadingElement_reads hwf (by rwa [saltBytes_length]) (leadingElement_buildLead hsalt) [_, _] _

theorem headerByte_version {c : Params} (h : c.supportedVersion ≤ 7) : (headerByte c).toNat / 32 = c.supportedVersion := by
  rw [headerByte_eq, BitVec.toNat_ofNat]
  omega

end

/-! ### The plaintext of a built frame -/

theorem builtPlaintext_take (s : State) : (builtPlaintext s).take idLen = idkeyBytes s := by
  have hid : (idkeyBytes s).length = idLen := Memory.bytes_length _ _ _
  rw [builtPlaintext, buildPlaintext, List.append_assoc, ← hid, List.take_left]

/-- The scan of the plaintext gives back the operands of ADV_BUILD: identity, actions and extras. -/
theorem parseScanned_built {cry : Cryptor} {s : State} (hwf : s.cfg.wf) (hb : Built cry s) {u : State} (hcfg : u.cfg = s.cfg)
    (salt : List Byte) (idType : Nat) {rv : Response} (hok : rv.ok = true) :
    ∃ r0 nActs nData len, parseScanned u (builtPlaintext s) salt idType rv =
      .ok (idkeyBytes s ++ salt ++ inputBytes s) r0 idType (salt.length + nActs * 256 + nData * 65536) len := by
  obtain ⟨es₀, hes₀⟩ := hb.extras
  have hinput : (inputBytes s).take (arg3 s) ++ (inputBytes s).drop (arg3 s) = inputBytes s := List.take_append_drop _ _
  have htake : ((inputBytes s).take (arg3 s)).length = arg3 s := by
    rw [List.length_take, inputBytes_length]; exact min_eq_left hb.actions
  have hextras : scanElements s.cfg ((inputBytes s).take (arg3 s) ++ (inputBytes s).drop (arg3 s))
      ((inputBytes s).take (arg3 s)).length ((inputBytes s).take (arg3 s) ++ (inputBytes s).drop (arg3 s)).length .extras =
      .ok es₀ := by
    rw [hinput, htake, inputBytes_length]; exact hes₀
  obtain ⟨es, hes, hacts, hdata⟩ := scanElements_separates hwf hextras ((inputBytes s).take (arg3 s)) (idkeyBytes s)
  rw [← List.append_assoc, ← buildPlaintext, ← builtPlaintext] at hes hacts hdata
  have hid : (idkeyBytes s).length = idLen := Memory.bytes_length _ _ _
  rw [hid] at hes
  rw [parseScanned, if_neg (by rw [hok]; decide), hcfg, hes]
  simp only [hacts, hdata, builtPlaintext_take, List.append_assoc, hinput]
  exact ⟨_, _, _, _, rfl⟩

/-! ### The run of ADV_PARSE over a built frame -/

/-- `u` has the frame that `s` built as its input, under the same key and parameters and with the Cryptor's hash of the identity
as the expected tag. -/
structure HoldsFrame (cry : Cryptor) (s u : State) : Prop where
  cfg : u.cfg = s.cfg
  length : inLen u = (builtFrame cry s).length
  input : inputBytes u = builtFrame cry s
  key : keyBytes u = keyBytes s
  mktag : mktagBytes u = (cry (.hash (idkeyBytes s) (keyBytes s))).data

/-- `u` runs ADV_PARSE over that frame, and its engine is to move. -/
structure Parsing (cry : Cryptor) (s u : State) : Prop extends HoldsFrame cry s u where
  wf : u.cfg.wf
  noRequest : u.pending = none
  noEvents : u.events = []
  running : u.phase = .run
  command : fetchCommand u = .advParse

theorem Parsing.aboutTo {cry : Cryptor} {s u : State} (hu : Parsing cry s u) {a : Action}
    (ha : exec .advParse u = .next (perform a u)) : AboutTo u a :=
  aboutTo_of_exec hu.wf hu.noRequest hu.noEvents hu.running hu.command ha

/-- A part of ADV_PARSE that asks, with its answer: the operands stay as they are. -/
theorem Parsing.round {cry : Cryptor} {s u : State} (hu : Parsing cry s u) {a : Action}
    (ha : exec .advParse u = .next (perform a u)) {q : Request} {w : Work} (hask : a = .ask q w) {r : Response}
    (hq : cry q = r) (hr : r.data.length ≤ cryRspMax) :
    (∀ n, runWith cry (n + 2) u = runWith cry n (answered u w r)) ∧ Parsing cry s (answered u w r) := by
  subst hask hq
  exact ⟨runWith_ask (hu.aboutTo ha) hr, ⟨hu.cfg, hu.length, hu.input, hu.key, hu.mktag⟩, hu.wf, rfl, rfl, rfl, hu.command⟩

/-- The string that ADV_PARSE has verified is the one that ADV_BUILD had signed (R268). -/
theorem observedAuthBytes_of_frame {cry : Cryptor} {s u : State} (hu : HoldsFrame cry s u) (hlead : u.work.lead = buildLead s)
    (hnonce : u.work.nonce = (builtNonce cry s).data) (hidh : u.work.idh = builtIdh s)
    (hct : u.work.ciphertext = (builtCipher cry s).data) : observedAuthBytes u = builtSigned cry s := by
  rw [observedAuthBytes, hu.input, hu.cfg, hlead, hnonce, hidh, hct]
  rfl

section
variable {cry : Cryptor} {s u : State} (hwf : s.cfg.wf) (hb : Built cry s) (hu : HoldsFrame cry s u)
include hwf hb hu

/-- The first part asks for the nonce that ADV_BUILD asked for. -/
theorem parseStart_of_frame :
    commonChecks u (parseStart u) =
      .ask (nonceRequest s.cfg (arg1 s == saltLong) (saltBytes s (arg1 s)))
        { u.work with
          pos := .nonce
          salt := saltBytes s (arg1 s)
          lead := buildLead s
          cursor := 2 + (buildLead s).length } := by
  obtain ⟨-, -, -, -, -, -, hver, -⟩ := id hwf
  have hlen : inLen u = 2 + builtLength cry s := hu.length.trans (builtFrame_length hb)
  have hfits : builtLength cry s ≤ 255 := hb.sectionFits
  have hlead : (buildLead s).length ≤ builtLength cry s := by
    rw [builtLength, sectionLength]; omega
  obtain ⟨h, hd, hl, hn, hsalt, hext⟩ := builtFrame_leadReads cry hwf hb.saltLength
  have hend : 2 + h.n + h.length = 2 + (buildLead s).length := by omega
  rw [saltBytes_length] at hext
  rw [← hu.length, ← hu.input] at hd
  rw [← hu.input, ← hu.cfg] at hsalt
  rw [← hu.cfg] at hl hext
  have hask := parseLead_asks (s := u) hd hl rfl (by omega) hsalt
  rw [hend, hext, hu.cfg, hu.input, builtFrame_lead] at hask
  have hversion : (byteAt (inputBytes u) 0).toNat / 32 = u.cfg.supportedVersion := by
    rw [hu.input, builtFrame_byte_zero, hu.cfg, headerByte_version hver]
  have hsection : (byteAt (inputBytes u) 1).toNat = inLen u - 2 := by
    rw [hu.input, builtFrame_byte_one, byteOf, BitVec.toNat_ofNat]
    omega
  rw [commonChecks_of_le (by simp only [ibufBytes]; omega),
    parseStart_eq_parseLead (by omega) (by simp only [sectionMax]; omega) hversion fun _ => hsection, hu.input, hask]

/-- The second part reads the identity header, the ciphertext and the tag that ADV_BUILD has put there. -/
theorem parseAfterNonce_of_frame (hcursor : u.work.cursor = 2 + (buildLead s).length) :
    parseAfterNonce u (builtNonce cry s) =
      .ask (.decrypt (builtCipher cry s).data (builtNonce cry s).data (keyBytes s))
        { u.work with
          pos := .decrypt
          nonce := (builtNonce cry s).data
          idType := arg2 s
          idh := builtIdh s
          cursor := 2 + (buildLead s).length + (builtIdh s).length
          ciphertext := (builtCipher cry s).data
          tag := (builtTag cry s).data } := by
  have hd := builtFrame_identity cry hwf hb.identity
  rw [← hu.length, ← hu.input, ← hcursor] at hd
  have hsig : s.cfg.sigLen ≤ inLen u - (u.work.cursor + (builtIdh s).length) := by
    rw [hu.length, builtFrame_length hb, hcursor, builtLength, sectionLength]
    omega
  obtain ⟨q, w, hask⟩ := (parseAfterNonce_asks_iff (s := u) hb.nonceTaken).2
    ⟨_, hd, by rw [hu.cfg]; exact hb.identity, rfl, by rw [hu.cfg]; exact hsig⟩
  obtain ⟨-, ih, hd', -, -, -, rfl, rfl⟩ := parseAfterNonce_ask hask
  obtain rfl : _ = ih := Option.some.inj (hd.symm.trans hd')
  rw [hask]
  simp only [hu.input, hu.length, hu.key, hcursor, hu.cfg, builtFrame_cipher hb, builtFrame_tag hb, builtFrame_idh]

end

theorem builtPlaintext_length_ge (s : State) : idLen ≤ (builtPlaintext s).length := by
  have h := congrArg List.length (builtPlaintext_take s)
  rw [List.length_take, idkeyBytes, Memory.bytes_length] at h
  exact (le_of_eq h.symm).trans (min_le_right _ _)

section
variable {cry : Cryptor} {s u : State} (hu : HoldsFrame cry s u)
include hu

/-- The third part has the identity of the plaintext hashed. -/
theorem parseAfterDecrypt_of_frame :
    parseAfterDecrypt u { ok := true, data := builtPlaintext s } =
      .ask (.hash (idkeyBytes s) (keyBytes s)) { u.work with pos := .hash, plaintext := builtPlaintext s } := by
  rw [parseAfterDecrypt, if_neg (by simp), if_neg (Nat.not_lt.2 (builtPlaintext_length_ge s)), builtPlaintext_take, hu.key]

/-- The fourth part has the tag verified, with the string that was signed. -/
theorem parseAfterHash_of_frame {r : Response} (hr : r = cry (.hash (idkeyBytes s) (keyBytes s))) (hok : r.ok = true)
    (hlen : r.data.length = s.cfg.mktagLen) (hsigned : observedAuthBytes u = builtSigned cry s)
    (htag : u.work.tag = (builtTag cry s).data) :
    parseAfterHash u r =
      .ask (.verify (builtSigned cry s) (keyBytes s) (builtTag cry s).data)
        { u.work with pos := .verify, out := u.work.plaintext.take idLen ++ u.work.salt } := by
  rw [parseAfterHash, if_neg (by rw [hok, hu.cfg, hlen]; simp), if_neg (not_not.2 (by rw [hr, hu.mktag])), hsigned, htag, hu.key]

end

/-- The run of ADV_PARSE over a built frame, under an honest Cryptor: it completes with the operands of ADV_BUILD. -/
theorem runWith_parse_of_frame {cry : Cryptor} {s u : State} (hwf : s.cfg.wf) (hb : Built cry s) (hcry : HonestCryptor s.cfg cry)
    (hu : Parsing cry s u) (hpos : u.work.pos = .start) : ∃ x v r0 nActs nData len,
    runWith cry 9 u = .next v ∧ CommitsOk x v (idkeyBytes s ++ saltBytes s (arg1 s) ++ inputBytes s) r0 (arg2 s)
      (arg1 s + nActs * 256 + nData * 65536) len := by
  obtain ⟨hdec, hver, hhash⟩ := hcry
  obtain ⟨-, hnonce⟩ := nonceRefused_false hb.nonceTaken
  obtain ⟨hhok, hhlen⟩ := hhash (idkeyBytes s) (keyBytes s)
  obtain ⟨hverify, hverlen⟩ := hver (builtSigned cry s) (keyBytes s) (builtTag cry s).data
  replace hverify := hverify.trans (decide_eq_true ⟨hb.signed, rfl⟩)
  obtain ⟨-, -, -, hmktag, -⟩ := wf_lengths hwf
  obtain ⟨run₁, hu₁⟩ := hu.round (exec_advParse_start hpos) (parseStart_of_frame hwf hb hu.toHoldsFrame)
    (r := builtNonce cry s) rfl (hnonce.trans (by decide))
  obtain ⟨run₂, hu₂⟩ := hu₁.round (exec_advParse_nonce rfl rfl) (parseAfterNonce_of_frame hwf hb hu₁.toHoldsFrame rfl)
    (hdec _ _ _ hb.plaintextFits hb.encrypted) hb.plaintextFits
  obtain ⟨run₃, hu₃⟩ := hu₂.round (exec_advParse_decrypt rfl rfl) (parseAfterDecrypt_of_frame hu₂.toHoldsFrame) rfl
    (by rw [hhlen]; exact hmktag.trans (by decide))
  obtain ⟨run₄, hu₄⟩ := hu₃.round (exec_advParse_hash rfl rfl)
    (parseAfterHash_of_frame hu₃.toHoldsFrame rfl hhok hhlen
      (observedAuthBytes_of_frame hu₃.toHoldsFrame rfl rfl rfl rfl) rfl) rfl hverlen
  obtain ⟨r0, nActs, nData, len, hscan⟩ := parseScanned_built hwf hb hu₄.cfg (saltBytes s (arg1 s)) (arg2 s) hverify
  rw [saltBytes_length] at hscan
  have hlast := hu₄.aboutTo (exec_advParse_verify rfl rfl)
  rw [(parseAfterVerify_eq rfl _).trans (congrArg completion hscan)] at hlast
  exact ⟨_, _, r0, nActs, nData, len,
    (run₁ 7).trans <| (run₂ 5).trans <| (run₃ 3).trans <| (run₄ 1).trans <| runWith_completion hlast 0,
    commitOk_commits _ _ _ _ _ _⟩

/-! ### The obligation -/

/-- The bytes of a range that hold a string one by one are the string. -/
theorem Memory.bytes_eq_of_read {m : Memory} {lo : Nat} {bs : List Byte}
    (h : ∀ k, k < bs.length → Memory.read m (lo + k) = bs.getD k 0) : Memory.bytes m lo bs.length = bs := by
  refine List.ext_getElem (Memory.bytes_length _ _ _) fun k hk hk' => ?_
  simp only [Memory.bytes, List.getElem_map, List.getElem_range, h k hk', List.getD_eq_getElem _ _ hk']

/-- What the premises of R272 on the second state say of its accepted ADV_PARSE. -/
theorem parsing_of_accept {cry : Cryptor} {s t u : State} {frame : List Byte} (hwf : s.cfg.wf) (hpu : u.pending = none)
    (hcfg : u.cfg = s.cfg) (hframe : frame = builtFrame cry (started 6 s)) (hfits : frame.length ≤ 257)
    (hobuf : ObufHolds t frame) (hout : t.outLen = BitVec.ofNat 13 frame.length) (hlen : u.inLen.toNat = t.outLen.toNat)
    (hmem : ∀ k, k < t.outLen.toNat → Memory.read u.mem (0x400 + k) = Memory.read t.mem (0x1000 + k))
    (hkey : ∀ k, k < 16 → Memory.read u.mem (0x100 + k) = Memory.read s.mem (0x100 + k))
    (hmktag : Memory.bytes u.mem 0x140 s.cfg.mktagLen =
      (cry (.hash (Memory.bytes s.mem 0x110 16) (Memory.bytes s.mem 0x100 16))).data) :
    Parsing cry (started 6 s) (started 7 u) := by
  have hbytes : t.outLen.toNat = frame.length := by
    rw [hout, BitVec.toNat_ofNat]; omega
  rw [hbytes] at hlen hmem
  have hinput : Memory.bytes u.mem 0x400 frame.length = frame :=
    Memory.bytes_eq_of_read fun k hk => (hmem k hk).trans (hobuf k (by simp only [obufBytes]; omega))
  subst hframe
  refine ⟨⟨hcfg, hlen, ?_, Memory.bytes_congr hkey, ?_⟩, by rw [← hcfg] at hwf; exact hwf, hpu, rfl, rfl, rfl⟩
  · exact (congrArg (Memory.bytes u.mem 0x400) hlen).trans hinput
  · exact (congrArg (fun c => Memory.bytes u.mem 0x140 c.mktagLen) hcfg).trans hmktag

/-- Settles O31: a run that ends with DONE has built its frame from its operands, and over that frame each request of ADV_PARSE
gets the answer that inverts ADV_BUILD's. -/
theorem buildThenParseRoundTrip : Obligations.BuildThenParseRoundTrip := by
  intro cry s t u hcry hwf _ hps _ hpu hcfg hrun hdone hlen hmem hkey hmktag
  obtain ⟨hb, hobuf, hout⟩ := built_of_done (s := started 6 s) ⟨hwf, rfl, rfl⟩ hps rfl rfl rfl
    ((runWith_started cry 6 6 s).trans hrun) hdone
  have hparsing := parsing_of_accept hwf hpu hcfg rfl (builtFrame_length_le hb) hobuf hout hlen hmem hkey hmktag
  obtain ⟨x, v, r0, nActs, nData, len, hv, hobuf', houtLen, ⟨-, hres1, hres2, -⟩, hstatus, hidle, -⟩ :=
    runWith_parse_of_frame (s := started 6 s) hwf hb hcry hparsing rfl
  have hin : s.inLen.toNat ≤ 512 := hb.inputFits
  have harg : s.arg1.toNat = 2 ∨ s.arg1.toNat = 16 := hb.saltLength
  refine ⟨v, (runWith_started cry 8 7 u).symm.trans hv, by rw [hstatus], hidle, hobuf', ?_, ?_, ?_⟩
  · have hlength : (idkeyBytes s ++ saltBytes s s.arg1.toNat ++ Memory.bytes s.mem 0x400 s.inLen.toNat).length =
        16 + s.arg1.toNat + s.inLen.toNat := by
      simp only [idkeyBytes, saltBytes, List.length_append, Memory.bytes_length]
    rw [houtLen]
    refine (BitVec.toNat_ofNat _ _).trans ((congrArg (· % 2 ^ 13) hlength).trans ?_)
    omega
  · exact hres1.trans (BitVec.ofNat_toNat _ _)
  · have hlatched : arg1 (started 6 s) = s.arg1.toNat := rfl
    rw [hres2, BitVec.toNat_ofNat, hlatched]
    omega

end Sys2Proof.Machine
end
